-- ==== Sys2Proof/Word.lean ====
section
/-!
DEFINITION. The word types of the block: every width `00_scope.md` R11 fixes, and byte sequences.
-/

namespace Sys2Proof

/-- `uint8` (R11, R12). -/
abbrev Byte := BitVec 8

/-- `uint16` (R11): the `flags` field. -/
abbrev U16 := BitVec 16

/-- `uint32` (R11): `stream_id`, `space_hash32`, table entries, dimensions, `crc32`. -/
abbrev U32 := BitVec 32

/-- `uint64` (R11): `frame_seq`, `num_slices`. -/
abbrev U64 := BitVec 64

/-- A byte sequence, offset 0 first (`20_memory.md` R40, R41). -/
abbrev Bytes := List Byte

end Sys2Proof
end

