-- ==== Sys2Proof/Config.lean ====
section
/-!
DEFINITION. The implementation parameters (`00_scope.md` R10), the one external parameter of the dispatcher,
`JsonObject` (`47_dispatch_consumer.md` R249), and the error of a buffer the decoder does not accept.
-/

namespace Sys2Proof

/-- `Q4_POLICY` (R10, D4): whether dtype Q4 is refused or sized as packed nibbles. -/
inductive Q4Policy where
  | reject
  | packedNibble
deriving DecidableEq, Repr

/-- `SPARSE_POLICY` (R10, D5): fixed at `reject`. -/
inductive SparsePolicy where
  | reject
deriving DecidableEq, Repr

/-- `TRAILING_BYTES` (R10, D7): fixed at `reject`. -/
inductive TrailingBytes where
  | reject
deriving DecidableEq, Repr

/-- The configuration record of R10. It is a parameter of every operation: no step changes it. -/
structure Config where
  /-- `Q4_POLICY` -/
  q4Policy : Q4Policy
  /-- `SPARSE_POLICY` -/
  sparsePolicy : SparsePolicy
  /-- `TRAILING_BYTES` -/
  trailingBytes : TrailingBytes
  /-- `MAX_BUFFER_LEN`: `none` is no bound -/
  maxBufferLen : Option Nat
deriving DecidableEq, Repr

/-- The values R10 takes: `Q4_POLICY = reject`, no bound on the buffer. -/
def Config.default : Config where
  q4Policy := .reject
  sparsePolicy := .reject
  trailingBytes := .reject
  maxBufferLen := none

/-- `MAX_SHAPE_LEN` (R10): most dimensions in one shape. -/
abbrev Config.maxShapeLen : Nat := 255

/-- `HEADER_BYTES` (R10, `90_conflicts.md` C1): bytes before the slice-length table. -/
abbrev Config.headerBytes : Nat := 24

/-- A JSON object value as the external parser hands it over (R249). DESIGN CHOICE, log entry 8: an
abstract token, since the spec gives objects no structure. -/
structure JsonObject where
  token : Nat
deriving DecidableEq, Repr

/-- The external parser `JsonObject` of R249 on bytes that are valid UTF-8: an object or none. A FREE VALUE (log entry
8): it has no body, so nothing but its being a function of the bytes can be used. -/
opaque Config.jsonObject : Bytes → Option JsonObject

/-- The errors FRAME_DEC may report (`60_exceptions.md` R270, codes 1 to 4). -/
inductive DecoderError where
  | truncatedInput
  | sizeMismatch
  | integrityError
  | unsupportedDtype
deriving DecidableEq, Repr, Inhabited

/-- The error FRAME_DEC reports for a buffer longer than `MAX_BUFFER_LEN`, given the bound and the buffer. A FREE VALUE
(log entry 10): the decoder does not accept such a buffer (R10) and answers one of its four errors (R281), and the spec
does not say which. -/
opaque Config.overlongError : Option Nat → Bytes → DecoderError

end Sys2Proof
end

