-- ==== Sys2Proof/Syntax.lean ====
section
/-!
DEFINITION. The value types an operation takes (`10_state.md` R32, R34; `30_encoding.md` R61), the instructions
(one constructor per row of `spec/opcode_table.json`), and the request by which the host issues one.
-/

namespace Sys2Proof

/-- A SliceDescriptor (R34). -/
structure SliceDescriptor where
  dtype : Byte
  shape : List U32
  payload : Bytes
deriving DecidableEq, Repr

/-- A Frame (R32): the eight caller-set fields. `crc32` is no field (`90_conflicts.md` C5). -/
structure Frame where
  version : Byte
  msgType : Byte
  flags : U16
  streamId : U32
  frameSeq : U64
  spaceHash32 : U32
  modality : Byte
  slices : List SliceDescriptor
deriving DecidableEq, Repr

/-- The six fields before the slice-length table (R61, R140). -/
structure Header where
  version : Byte
  msgType : Byte
  flags : U16
  streamId : U32
  frameSeq : U64
  numSlices : U64
deriving DecidableEq, Repr

/-- What a frame operation done part by part works on: a Frame to encode or a buffer to decode (R217, R225, R235). -/
inductive WireJob where
  | encode (f : Frame)
  | decode (b : Bytes)
deriving DecidableEq, Repr

/-- The instructions: the 26 operations of R80, then the selector-field rows (R71 to R74) and the wire-format rows
(R61, R63 to R66) of the opcode table, in the table's order. -/
inductive Instr where
  -- the checksum unit (`40_crc32.md`)
  | crc32 (m : Bytes)
  | crcInit
  | crcStep (acc : U32) (byte : Byte)
  | crcFinal (acc : U32)
  -- the integer field codec (`41_le_integer.md`)
  | lePut1 (v : Byte)
  | lePut2 (v : U16)
  | lePut4 (v : U32)
  | lePut8 (v : U64)
  | leGet1 (b : Bytes) (pos : Nat)
  | leGet2 (b : Bytes) (pos : Nat)
  | leGet4 (b : Bytes) (pos : Nat)
  | leGet8 (b : Bytes) (pos : Nat)
  -- the header marshaller (`42_header.md`)
  | hdrEnc (version msgType : Byte) (flags : U16) (streamId : U32) (frameSeq numSlices : U64)
  | hdrDec (b : Bytes) (pos : Nat)
  | tagEnc (spaceHash32 : U32) (modality : Byte)
  | tagDec (b : Bytes) (pos : Nat)
  -- the slice-length table codec (`43_slice_table.md`)
  | tblEnc (lens : List U32)
  | tblDec (b : Bytes) (pos : Nat) (n : U64)
  -- the payload length calculator (`44_payload_length.md`)
  | elemSize (dtype : Byte)
  | plen (dtype : Byte) (shape : List U32)
  -- the slice codec (`45_slice.md`)
  | sliceEnc (d : SliceDescriptor)
  | sliceDec (b : Bytes) (pos : Nat) (entry : U32)
  -- the frame codec and the integrity verifier (`46_frame_integrity.md`)
  | frameEnc (f : Frame)
  | frameDec (b : Bytes)
  | verify (b : Bytes) (p : Nat)
  -- the dispatcher, outside the block (`47_dispatch_consumer.md`)
  | dispatch (f : Frame)
  -- the dtype byte of a slice (R74)
  | dtypeF16
  | dtypeI8
  | dtypeQ4
  | dtypeSparseCoo
  | dtypeUnrecognised (d : Byte)
  -- the `msg_type` byte of a header (R71)
  | msgThink
  | msgCache
  | msgAsk
  | msgSync
  | msgCritique
  | msgUnknown (v : Byte)
  -- the `modality` byte of a tag group (R73)
  | modText
  | modImage
  | modAudio
  | modGraph
  | modMixed
  | modUnknown (v : Byte)
  -- the `flags` bits of a header (R72); the operands are the bits the row's pattern leaves free
  | flagCompressed (hi : BitVec 15)
  | flagEncrypted (hi : BitVec 14) (lo : BitVec 1)
  | flagStrongTail (hi : BitVec 13) (lo : BitVec 2)
  | flagReserved (r : BitVec 13) (lo : BitVec 3)
  -- the parts of a frame on the wire (R60), as stages of a frame operation
  | fmtHeader (job : WireJob)
  | fmtTable
  | fmtTag
  | fmtSlice
  | fmtTrailer
deriving DecidableEq, Repr

/-- An operand value as the host hands it over, one constructor per operand type of R80. -/
inductive Operand where
  | u8 (v : Byte)
  | u16 (v : U16)
  | u32 (v : U32)
  | u64 (v : U64)
  | nat (v : Nat)
  | bytes (b : Bytes)
  | u32s (vs : List U32)
  | slice (d : SliceDescriptor)
  | frame (f : Frame)
  | job (j : WireJob)
deriving DecidableEq, Repr

/-- The place a selector stands in: the opcode table's `format` column. The four `flags` rows overlap as words, so
each is a place of its own. -/
inductive Space where
  | operation
  | dtype
  | msgType
  | modality
  | flagCompressed
  | flagEncrypted
  | flagStrongTail
  | flagReserved
  | header
  | table
  | tag
  | slice
  | trailer
deriving DecidableEq, Repr

/-- What the host hands over to issue one instruction (R21, R305): the selector word, where it stands, and the operand
values. DESIGN CHOICE, log entry 2: the source has no binary command encoding (R80, R81). -/
structure Request where
  space : Space
  word : Bytes
  operands : List Operand
deriving DecidableEq, Repr

end Sys2Proof
end

