-- ==== Sys2Proof/WellFormed.lean ====
section
/-!
DEFINITION. Which instructions are rows of the opcode table: an operand that stands for the unnamed values of a selector
field is one of them (`30_encoding.md` R71, R73, R74). What an operation asks of its operands beside their types (a cursor
within its buffer, a shape of at most 255 dimensions, a well-formed Frame; R35, R125, R180, R196) is no matter of form: the
meanings test it, each under a name of its own.
-/

namespace Sys2Proof

/-- The dtype bytes the table's row DTYPE_UNRECOGNISED names: 0x00, 0x04 to 0x0F, 0x11 to 0xFF (R74). -/
def dtypeUnnamed (d : Byte) : Bool := d != 0x01#8 && d != 0x02#8 && d != 0x03#8 && d != 0x10#8

/-- The values 5 to 255, which name no message type and no modality (R71, R73). -/
def enumUnnamed (v : Byte) : Bool := decide (5 ≤ v.toNat)

/-- The instruction is a row of the table. -/
def Instr.wellFormed : Instr → Bool
  | .dtypeUnrecognised d => dtypeUnnamed d
  | .msgUnknown v | .modUnknown v => enumUnnamed v
  | .crc32 _ | .crcInit | .crcStep _ _ | .crcFinal _ => true
  | .lePut1 _ | .lePut2 _ | .lePut4 _ | .lePut8 _ => true
  | .leGet1 _ _ | .leGet2 _ _ | .leGet4 _ _ | .leGet8 _ _ => true
  | .hdrEnc _ _ _ _ _ _ | .hdrDec _ _ | .tagEnc _ _ | .tagDec _ _ => true
  | .tblEnc _ | .tblDec _ _ _ | .elemSize _ | .plen _ _ | .sliceEnc _ | .sliceDec _ _ _ => true
  | .frameEnc _ | .frameDec _ | .verify _ _ | .dispatch _ => true
  | .dtypeF16 | .dtypeI8 | .dtypeQ4 | .dtypeSparseCoo => true
  | .msgThink | .msgCache | .msgAsk | .msgSync | .msgCritique => true
  | .modText | .modImage | .modAudio | .modGraph | .modMixed => true
  | .flagCompressed _ | .flagEncrypted _ _ | .flagStrongTail _ _ | .flagReserved _ _ => true
  | .fmtHeader _ | .fmtTable | .fmtTag | .fmtSlice | .fmtTrailer => true

end Sys2Proof
end

