-- ==== Sys2Proof/Decode.lean ====
section
/-!
DEFINITION. The decoder (a request to an instruction, or a named rejection), the encoder, and the two fixed names by
which an opcode-table word is read. Selectors are those of `30_encoding.md` R80; the selector-field bytes those of
R71 to R74; the wire formats have no selector word.
-/

namespace Sys2Proof

/-- Why a request encodes no instruction. -/
inductive DecodeError where
  /-- the selector byte is none of R80's -/
  | unknownSelector
  /-- the word has not the width its place asks for -/
  | wordWidth
  /-- the word lacks the bit its `flags` row asks for (R72) -/
  | patternMismatch
  /-- the operands are not those of the instruction's operand list (R80) -/
  | operandMismatch
deriving DecidableEq, Repr

/-! ### Operand lists: one reader per shape of R80's operand column -/

def operandsNone (i : Instr) : List Operand → Except DecodeError Instr
  | [] => .ok i
  | _ => .error .operandMismatch

def operandsU8 (k : Byte → Instr) : List Operand → Except DecodeError Instr
  | [.u8 v] => .ok (k v)
  | _ => .error .operandMismatch

def operandsU16 (k : U16 → Instr) : List Operand → Except DecodeError Instr
  | [.u16 v] => .ok (k v)
  | _ => .error .operandMismatch

def operandsU32 (k : U32 → Instr) : List Operand → Except DecodeError Instr
  | [.u32 v] => .ok (k v)
  | _ => .error .operandMismatch

def operandsU64 (k : U64 → Instr) : List Operand → Except DecodeError Instr
  | [.u64 v] => .ok (k v)
  | _ => .error .operandMismatch

def operandsU32U8 (k : U32 → Byte → Instr) : List Operand → Except DecodeError Instr
  | [.u32 v, .u8 w] => .ok (k v w)
  | _ => .error .operandMismatch

def operandsBytes (k : Bytes → Instr) : List Operand → Except DecodeError Instr
  | [.bytes b] => .ok (k b)
  | _ => .error .operandMismatch

def operandsBytesNat (k : Bytes → Nat → Instr) : List Operand → Except DecodeError Instr
  | [.bytes b, .nat p] => .ok (k b p)
  | _ => .error .operandMismatch

def operandsBytesNatU32 (k : Bytes → Nat → U32 → Instr) : List Operand → Except DecodeError Instr
  | [.bytes b, .nat p, .u32 v] => .ok (k b p v)
  | _ => .error .operandMismatch

def operandsBytesNatU64 (k : Bytes → Nat → U64 → Instr) : List Operand → Except DecodeError Instr
  | [.bytes b, .nat p, .u64 v] => .ok (k b p v)
  | _ => .error .operandMismatch

def operandsU32s (k : List U32 → Instr) : List Operand → Except DecodeError Instr
  | [.u32s vs] => .ok (k vs)
  | _ => .error .operandMismatch

def operandsU8U32s (k : Byte → List U32 → Instr) : List Operand → Except DecodeError Instr
  | [.u8 v, .u32s vs] => .ok (k v vs)
  | _ => .error .operandMismatch

def operandsSlice (k : SliceDescriptor → Instr) : List Operand → Except DecodeError Instr
  | [.slice d] => .ok (k d)
  | _ => .error .operandMismatch

def operandsFrame (k : Frame → Instr) : List Operand → Except DecodeError Instr
  | [.frame f] => .ok (k f)
  | _ => .error .operandMismatch

def operandsJob (k : WireJob → Instr) : List Operand → Except DecodeError Instr
  | [.job j] => .ok (k j)
  | _ => .error .operandMismatch

/-- The six operands of HDR_ENC (R141). -/
def operandsHeader (k : Byte → Byte → U16 → U32 → U64 → U64 → Instr) :
    List Operand → Except DecodeError Instr
  | [.u8 version, .u8 msgType, .u16 flags, .u32 streamId, .u64 frameSeq, .u64 numSlices] =>
    .ok (k version msgType flags streamId frameSeq numSlices)
  | _ => .error .operandMismatch

/-! ### The `flags` word (R72) -/

/-- The 16 bits from the two bytes as the frame stores them, least significant byte first (R43). -/
def flagsOfBytes (lo hi : Byte) : U16 := hi ++ lo

/-- The two bytes as the frame stores them (R43). -/
def bytesOfFlags (v : U16) : Bytes := [v.extractLsb' 0 8, v.extractLsb' 8 8]

/-- FLAG_COMPRESSED, pattern `xxxxxxxxxxxxxxx1`. -/
def flagsCompressed (hi : BitVec 15) : U16 := hi ++ 1#1

/-- FLAG_ENCRYPTED, pattern `xxxxxxxxxxxxxx1x`. -/
def flagsEncrypted (hi : BitVec 14) (lo : BitVec 1) : U16 := hi ++ 1#1 ++ lo

/-- FLAG_STRONG_TAIL, pattern `xxxxxxxxxxxxx1xx`. -/
def flagsStrongTail (hi : BitVec 13) (lo : BitVec 2) : U16 := hi ++ 1#1 ++ lo

/-- FLAG_RESERVED, pattern `rrrrrrrrrrrrrxxx`. -/
def flagsReserved (r : BitVec 13) (lo : BitVec 3) : U16 := r ++ lo

/-! ### The decoder -/

/-- The operation a selector byte names (R80). -/
def decodeOperation (sel : Byte) (ops : List Operand) : Except DecodeError Instr :=
  match sel with
  | 0x01#8 => operandsBytes .crc32 ops
  | 0x02#8 => operandsNone .crcInit ops
  | 0x03#8 => operandsU32U8 .crcStep ops
  | 0x04#8 => operandsU32 .crcFinal ops
  | 0x10#8 => operandsU8 .lePut1 ops
  | 0x11#8 => operandsU16 .lePut2 ops
  | 0x12#8 => operandsU32 .lePut4 ops
  | 0x13#8 => operandsU64 .lePut8 ops
  | 0x18#8 => operandsBytesNat .leGet1 ops
  | 0x19#8 => operandsBytesNat .leGet2 ops
  | 0x1A#8 => operandsBytesNat .leGet4 ops
  | 0x1B#8 => operandsBytesNat .leGet8 ops
  | 0x20#8 => operandsHeader .hdrEnc ops
  | 0x21#8 => operandsBytesNat .hdrDec ops
  | 0x22#8 => operandsU32U8 .tagEnc ops
  | 0x23#8 => operandsBytesNat .tagDec ops
  | 0x30#8 => operandsU32s .tblEnc ops
  | 0x31#8 => operandsBytesNatU64 .tblDec ops
  | 0x40#8 => operandsU8 .elemSize ops
  | 0x41#8 => operandsU8U32s .plen ops
  | 0x50#8 => operandsSlice .sliceEnc ops
  | 0x51#8 => operandsBytesNatU32 .sliceDec ops
  | 0x60#8 => operandsFrame .frameEnc ops
  | 0x61#8 => operandsBytes .frameDec ops
  | 0x62#8 => operandsBytesNat .verify ops
  | 0x70#8 => operandsFrame .dispatch ops
  | _ => .error .unknownSelector

/-- The dtype row a byte belongs to (R74). -/
def decodeDtype (d : Byte) : Instr :=
  match d with
  | 0x01#8 => .dtypeF16
  | 0x02#8 => .dtypeI8
  | 0x03#8 => .dtypeQ4
  | 0x10#8 => .dtypeSparseCoo
  | _ => .dtypeUnrecognised d

/-- The message-type row a byte belongs to (R71). -/
def decodeMsgType (v : Byte) : Instr :=
  match v with
  | 0#8 => .msgThink
  | 1#8 => .msgCache
  | 2#8 => .msgAsk
  | 3#8 => .msgSync
  | 4#8 => .msgCritique
  | _ => .msgUnknown v

/-- The modality row a byte belongs to (R73). -/
def decodeModality (v : Byte) : Instr :=
  match v with
  | 0#8 => .modText
  | 1#8 => .modImage
  | 2#8 => .modAudio
  | 3#8 => .modGraph
  | 4#8 => .modMixed
  | _ => .modUnknown v

/-- A one-byte word. -/
def word1 (k : Byte → Except DecodeError Instr) : Bytes → Except DecodeError Instr
  | [d] => k d
  | _ => .error .wordWidth

/-- A two-byte word read as `flags`. -/
def word2 (k : U16 → Except DecodeError Instr) : Bytes → Except DecodeError Instr
  | [lo, hi] => k (flagsOfBytes lo hi)
  | _ => .error .wordWidth

/-- The wire formats have no selector word. -/
def word0 (k : Except DecodeError Instr) : Bytes → Except DecodeError Instr
  | [] => k
  | _ => .error .wordWidth

/-- A `flags` row asks for the bit `n` to be 1 (R72). -/
def needBit (v : U16) (n : Nat) (k : Except DecodeError Instr) : Except DecodeError Instr :=
  if v.getLsbD n then k else .error .patternMismatch

/-- The decoder: the instruction a request's place, word and operand list name; total on every request. -/
def decode (r : Request) : Except DecodeError Instr :=
  match r.space with
  | .operation => word1 (fun sel => decodeOperation sel r.operands) r.word
  | .dtype => word1 (fun d => operandsNone (decodeDtype d) r.operands) r.word
  | .msgType => word1 (fun v => operandsNone (decodeMsgType v) r.operands) r.word
  | .modality => word1 (fun v => operandsNone (decodeModality v) r.operands) r.word
  | .flagCompressed =>
    word2 (fun v => needBit v 0 (operandsNone (.flagCompressed (v.extractLsb' 1 15)) r.operands)) r.word
  | .flagEncrypted =>
    word2 (fun v => needBit v 1
      (operandsNone (.flagEncrypted (v.extractLsb' 2 14) (v.extractLsb' 0 1)) r.operands)) r.word
  | .flagStrongTail =>
    word2 (fun v => needBit v 2
      (operandsNone (.flagStrongTail (v.extractLsb' 3 13) (v.extractLsb' 0 2)) r.operands)) r.word
  | .flagReserved =>
    word2 (fun v => operandsNone (.flagReserved (v.extractLsb' 3 13) (v.extractLsb' 0 3)) r.operands) r.word
  | .header => word0 (operandsJob .fmtHeader r.operands) r.word
  | .table => word0 (operandsNone .fmtTable r.operands) r.word
  | .tag => word0 (operandsNone .fmtTag r.operands) r.word
  | .slice => word0 (operandsNone .fmtSlice r.operands) r.word
  | .trailer => word0 (operandsNone .fmtTrailer r.operands) r.word

/-! ### The encoder -/

def operationRequest (sel : Byte) (ops : List Operand) : Request := ⟨.operation, [sel], ops⟩

def fieldRequest (sp : Space) (v : Byte) : Request := ⟨sp, [v], []⟩

def flagsRequest (sp : Space) (v : U16) : Request := ⟨sp, bytesOfFlags v, []⟩

def wireRequest (sp : Space) (ops : List Operand) : Request := ⟨sp, [], ops⟩

/-- The encoder: the request that issues an instruction (R80, R71 to R74). -/
def encode : Instr → Request
  | .crc32 m => operationRequest 0x01#8 [.bytes m]
  | .crcInit => operationRequest 0x02#8 []
  | .crcStep acc byte => operationRequest 0x03#8 [.u32 acc, .u8 byte]
  | .crcFinal acc => operationRequest 0x04#8 [.u32 acc]
  | .lePut1 v => operationRequest 0x10#8 [.u8 v]
  | .lePut2 v => operationRequest 0x11#8 [.u16 v]
  | .lePut4 v => operationRequest 0x12#8 [.u32 v]
  | .lePut8 v => operationRequest 0x13#8 [.u64 v]
  | .leGet1 b pos => operationRequest 0x18#8 [.bytes b, .nat pos]
  | .leGet2 b pos => operationRequest 0x19#8 [.bytes b, .nat pos]
  | .leGet4 b pos => operationRequest 0x1A#8 [.bytes b, .nat pos]
  | .leGet8 b pos => operationRequest 0x1B#8 [.bytes b, .nat pos]
  | .hdrEnc version msgType flags streamId frameSeq numSlices =>
    operationRequest 0x20#8
      [.u8 version, .u8 msgType, .u16 flags, .u32 streamId, .u64 frameSeq, .u64 numSlices]
  | .hdrDec b pos => operationRequest 0x21#8 [.bytes b, .nat pos]
  | .tagEnc spaceHash32 modality => operationRequest 0x22#8 [.u32 spaceHash32, .u8 modality]
  | .tagDec b pos => operationRequest 0x23#8 [.bytes b, .nat pos]
  | .tblEnc lens => operationRequest 0x30#8 [.u32s lens]
  | .tblDec b pos n => operationRequest 0x31#8 [.bytes b, .nat pos, .u64 n]
  | .elemSize dtype => operationRequest 0x40#8 [.u8 dtype]
  | .plen dtype shape => operationRequest 0x41#8 [.u8 dtype, .u32s shape]
  | .sliceEnc d => operationRequest 0x50#8 [.slice d]
  | .sliceDec b pos entry => operationRequest 0x51#8 [.bytes b, .nat pos, .u32 entry]
  | .frameEnc f => operationRequest 0x60#8 [.frame f]
  | .frameDec b => operationRequest 0x61#8 [.bytes b]
  | .verify b p => operationRequest 0x62#8 [.bytes b, .nat p]
  | .dispatch f => operationRequest 0x70#8 [.frame f]
  | .dtypeF16 => fieldRequest .dtype 0x01#8
  | .dtypeI8 => fieldRequest .dtype 0x02#8
  | .dtypeQ4 => fieldRequest .dtype 0x03#8
  | .dtypeSparseCoo => fieldRequest .dtype 0x10#8
  | .dtypeUnrecognised d => fieldRequest .dtype d
  | .msgThink => fieldRequest .msgType 0#8
  | .msgCache => fieldRequest .msgType 1#8
  | .msgAsk => fieldRequest .msgType 2#8
  | .msgSync => fieldRequest .msgType 3#8
  | .msgCritique => fieldRequest .msgType 4#8
  | .msgUnknown v => fieldRequest .msgType v
  | .modText => fieldRequest .modality 0#8
  | .modImage => fieldRequest .modality 1#8
  | .modAudio => fieldRequest .modality 2#8
  | .modGraph => fieldRequest .modality 3#8
  | .modMixed => fieldRequest .modality 4#8
  | .modUnknown v => fieldRequest .modality v
  | .flagCompressed hi => flagsRequest .flagCompressed (flagsCompressed hi)
  | .flagEncrypted hi lo => flagsRequest .flagEncrypted (flagsEncrypted hi lo)
  | .flagStrongTail hi lo => flagsRequest .flagStrongTail (flagsStrongTail hi lo)
  | .flagReserved r lo => flagsRequest .flagReserved (flagsReserved r lo)
  | .fmtHeader job => wireRequest .header [.job job]
  | .fmtTable => wireRequest .table []
  | .fmtTag => wireRequest .tag []
  | .fmtSlice => wireRequest .slice []
  | .fmtTrailer => wireRequest .trailer []

/-! ### Opcode-table words -/

/-- The Frame whose every field is 0 and which has no slices. -/
def zeroFrame : Frame := ⟨0, 0, 0, 0, 0, 0, 0, []⟩

/-- The operands of zeros that stand where a table word gives an operation's operands no bits (log entry 2): numbers
0, sequences empty, records of such. -/
def zeroOperands (sel : Byte) : List Operand :=
  match sel with
  | 0x01#8 => [.bytes []]
  | 0x02#8 => []
  | 0x03#8 => [.u32 0, .u8 0]
  | 0x04#8 => [.u32 0]
  | 0x10#8 => [.u8 0]
  | 0x11#8 => [.u16 0]
  | 0x12#8 => [.u32 0]
  | 0x13#8 => [.u64 0]
  | 0x18#8 => [.bytes [], .nat 0]
  | 0x19#8 => [.bytes [], .nat 0]
  | 0x1A#8 => [.bytes [], .nat 0]
  | 0x1B#8 => [.bytes [], .nat 0]
  | 0x20#8 => [.u8 0, .u8 0, .u16 0, .u32 0, .u64 0, .u64 0]
  | 0x21#8 => [.bytes [], .nat 0]
  | 0x22#8 => [.u32 0, .u8 0]
  | 0x23#8 => [.bytes [], .nat 0]
  | 0x30#8 => [.u32s []]
  | 0x31#8 => [.bytes [], .nat 0, .u64 0]
  | 0x40#8 => [.u8 0]
  | 0x41#8 => [.u8 0, .u32s []]
  | 0x50#8 => [.slice ⟨0, [], []⟩]
  | 0x51#8 => [.bytes [], .nat 0, .u32 0]
  | 0x60#8 => [.frame zeroFrame]
  | 0x61#8 => [.bytes []]
  | 0x62#8 => [.bytes [], .nat 0]
  | 0x70#8 => [.frame zeroFrame]
  | _ => []

/-- The requests an opcode-table word can stand for, in the order they are tried: a word of 16 bits is a `flags`
pattern, a word of 8 bits an operation selector, else a selector-field byte (log entry 11: the table uses one byte in
several places, and a bare word does not say which). -/
def tableCandidates (nbits w : Nat) : List Request :=
  if nbits = 16 then
    [flagsRequest .flagCompressed (BitVec.ofNat 16 w), flagsRequest .flagEncrypted (BitVec.ofNat 16 w),
      flagsRequest .flagStrongTail (BitVec.ofNat 16 w), flagsRequest .flagReserved (BitVec.ofNat 16 w)]
  else if nbits = 8 then
    [operationRequest (BitVec.ofNat 8 w) (zeroOperands (BitVec.ofNat 8 w)),
      fieldRequest .msgType (BitVec.ofNat 8 w), fieldRequest .dtype (BitVec.ofNat 8 w),
      fieldRequest .modality (BitVec.ofNat 8 w)]
  else []

/-- A request decodes. -/
def decodable (r : Request) : Bool :=
  match decode r with
  | .ok _ => true
  | .error _ => false

/-- The request a table word stands for: the first candidate that decodes, else a request the decoder rejects. -/
def requestOfTableWord (nbits w : Nat) : Request :=
  match (tableCandidates nbits w).find? decodable with
  | some r => r
  | none => ⟨.operation, [], []⟩

/-- The instruction the decoder reads from a table word. -/
def decodeTableWord (nbits w : Nat) : Option Instr :=
  match decode (requestOfTableWord nbits w) with
  | .ok i => some i
  | .error _ => none

end Sys2Proof
end

