-- ==== Sys2Proof/Machine/State.lean ====
section
/-!
DEFINITION. The result types (`10_state.md` R33, `60_exceptions.md` R270, `47_dispatch_consumer.md` R247), the reasons a
step can stop, and the machine's state: the configuration, the host interface, and the working variables of a frame
operation in flight.
-/

namespace Sys2Proof.Machine

/-- The error taxonomy, complete and closed (R270). An error is a value handed to the host, no stop of the machine. -/
inductive Error where
  | truncatedInput
  | sizeMismatch
  | integrityError
  | unsupportedDtype
  | decodeIncomplete
  | malformedPayload
deriving DecidableEq, Repr

/-- The named message types (R71); `unnamed` is any of 5 to 255. -/
inductive MsgName where
  | think
  | cache
  | ask
  | sync
  | critique
  | unnamed
deriving DecidableEq, Repr

/-- The named modalities (R73); `unnamed` is any of 5 to 255. -/
inductive ModName where
  | text
  | image
  | audio
  | graph
  | mixed
  | unnamed
deriving DecidableEq, Repr

/-- The bits of a `flags` word by name (R72). -/
structure FlagBits where
  compressed : Bool
  encrypted : Bool
  strongTail : Bool
  reserved : BitVec 13
deriving DecidableEq, Repr

/-- What the dispatcher makes of a Frame (R247). -/
inductive SemanticMessage where
  | handshake (o : JsonObject)
  | tensors (ts : List (Byte × List U32 × Bytes))
  | critiquePair (divergence : SliceDescriptor) (explanation : JsonObject)
  | cachePassThrough (slices : List SliceDescriptor)
  | askPassThrough (slices : List SliceDescriptor)
  | unknown (f : Frame)
deriving DecidableEq, Repr

/-- The values an operation returns (R80, the result column), and what a selector-field row gives (R71 to R74). -/
inductive Ret where
  | u32 (v : U32)
  | bytes (out : Bytes)
  | got1 (v : Byte) (pos : Nat)
  | got2 (v : U16) (pos : Nat)
  | got4 (v : U32) (pos : Nat)
  | got8 (v : U64) (pos : Nat)
  | header (h : Header) (pos : Nat)
  | tag (spaceHash32 : U32) (modality : Byte) (pos : Nat)
  | table (tbl : List U32) (pos : Nat)
  | elemSize (num den : Nat)
  | length (size : Nat)
  | slice (d : SliceDescriptor) (pos : Nat)
  | frame (f : Frame) (crc32 : U32)
  | message (m : SemanticMessage)
  | msgType (wire : Bytes) (name : MsgName)
  | modality (wire : Bytes) (name : ModName)
  | flags (wire : Bytes) (bits : FlagBits)
deriving DecidableEq, Repr

/-- The result of an operation: `Ok(v)` or a named error and nothing else (R33, R272). -/
abbrev Result := Except Error Ret

/-- The uncontrolled faults of the block: there are none (R281). Nobody raises one; that no input can is what the
empty type says (safe: it claims less than any fault would excuse). -/
inductive Fault where
deriving DecidableEq, Repr

/-- Why a step gives no meaning. Every one is safe: the model claims nothing of such a step. -/
inductive Refusal where
  /-- raised by an arm of `exec` whose instruction has no meaning yet; safe -/
  | notModelled (mnemonic : String)
  /-- raised by `step`: the request names no operation of R80 and no row of R71 to R74 or R60, or gives operands that are
  no values of its operand list (R121: such a value "cannot be given"); no other operation exists (R80, R84, R286); safe -/
  | undecodable (why : DecodeError)
  /-- raised by the decoding operations: a cursor operand outside `0 <= pos <= L` (R125, R17); safe -/
  | cursorOutsideBuffer
  /-- raised by PLEN: a shape of more than 255 dimensions is outside its operand type (R180, R17); safe -/
  | shapeTooLong
  /-- raised by SLICE_ENC outside its precondition, or on a payload of 4 GiB or more (R197, U1); safe -/
  | illFormedSlice
  /-- raised by FRAME_ENC and by the header part of an encoding on a Frame that is not well-formed (R216, U1); safe -/
  | illFormedFrame
  /-- raised by the header part while a frame operation is in flight: an instance performs one at a time (R290); safe -/
  | jobInFlight
  /-- raised by a part of a frame that is not the next in the order of R60; safe -/
  | partOutOfOrder
deriving DecidableEq, Repr

/-- The part of a frame that comes next, after the header (R60). -/
inductive Part where
  | table
  | tag
  | slice
  | trailer
deriving DecidableEq, Repr

/-- The working variables of a FRAME_DEC in flight (`10_state.md` R25 to R30, `46_frame_integrity.md` R225, R235). `L`
is the length of `b`; `n` is the header's `numSlices`. -/
structure DecodeJob where
  b : Bytes
  pos : Nat
  acc : U32
  header : Header
  tbl : List U32
  spaceHash32 : U32
  modality : Byte
  slices : List SliceDescriptor
  next : Part
deriving DecidableEq, Repr

/-- The working variables of a FRAME_ENC in flight (R27, R28, `46_frame_integrity.md` R217, R235). -/
structure EncodeJob where
  frame : Frame
  out : Bytes
  acc : U32
  todo : List SliceDescriptor
  next : Part
deriving DecidableEq, Repr

/-- A frame operation in flight. -/
inductive Job where
  | decode (j : DecodeJob)
  | encode (j : EncodeJob)
deriving DecidableEq, Repr

end Sys2Proof.Machine

namespace Sys2Proof.Machine

/-- The machine. The block itself keeps nothing from one operation to the next (R20): `cfg` is its parameters (R10),
`requests` and `results` are the host's two sides of the interface (R305), and `job` is there only while a frame
operation is being done part by part (log entries 1, 2, 4). -/
structure State where
  /-- the configuration (R10); no step changes it -/
  cfg : Config
  /-- what the host has handed over and the block has not begun, oldest first -/
  requests : List Request
  /-- what the block has handed back, oldest first; no operation reads it -/
  results : List Result
  /-- the frame operation in flight, if there is one -/
  job : Option Job
deriving DecidableEq, Repr

/-- The machine after reset: the configuration at the values R10 takes, nothing handed over, nothing handed back,
nothing in flight (R300: reset has no architectural effect; log entries 1, 2). -/
def State.reset : State where
  cfg := Config.default
  requests := []
  results := []
  job := none

end Sys2Proof.Machine
end

