-- ==== Sys2Proof/Machine/Ops.lean ====
section
/-!
DEFINITION. The shared operations: handing a result back and raising an error (`60_exceptions.md` R280), the two
pseudocode primitives `MemRead` and `MemWrite` (`00_scope.md` R14), and the bounds test (`20_memory.md` R45).
-/

namespace Sys2Proof.Machine

/-- The three outcomes of a step of this machine. -/
abbrev StepOutcome := Host.Outcome State Fault Refusal

/-! ### Results -/

/-- Hand a result back to the host (R33, R305). -/
def State.deliver (s : State) (r : Result) : State := { s with results := s.results ++ [r] }

/-- The frame operation in flight is over, or there is none: its working variables no longer exist (R300). -/
def State.endJob (s : State) : State := { s with job := none }

/-- The frame operation in flight goes on with these working variables. -/
def State.withJob (s : State) (j : Job) : State := { s with job := some j }

/-- The requests not yet begun. -/
def State.withRequests (s : State) (rs : List Request) : State := { s with requests := rs }

/-- `raise E` (R14, R280): the operation ends and its result is the error, nothing else. Nothing is saved, no mode
changes, no handler runs. -/
def raise (e : Error) (s : State) : StepOutcome := .next (s.deliver (.error e))

/-- `return v` (R14): the operation ends and its result is `Ok(v)`. -/
def returnOk (v : Ret) (s : State) : StepOutcome := .next (s.deliver (.ok v))

/-- An operation ends with what its pseudocode gave. -/
def finish (r : Result) (s : State) : StepOutcome :=
  match r with
  | .ok v => returnOk v s
  | .error e => raise e s

/-- The numeric code of an error (R270, R271); 0 is `Ok`. -/
def Error.code : Error → Nat
  | .truncatedInput => 1
  | .sizeMismatch => 2
  | .integrityError => 3
  | .unsupportedDtype => 4
  | .decodeIncomplete => 5
  | .malformedPayload => 6

/-- The code of a result (R271). -/
def resultCode : Result → Nat
  | .ok _ => 0
  | .error e => e.code

/-! ### Bytes -/

/-- The number whose little-endian bytes these are (R14, R43). -/
def leNat : Bytes → Nat
  | [] => 0
  | x :: xs => x.toNat + 2 ^ 8 * leNat xs

/-- The `n` low bytes of `v`, least significant first (R14 `MemWrite`, R43). -/
def leBytes : Nat → Nat → Bytes
  | 0, _ => []
  | n + 1, v => BitVec.ofNat 8 v :: leBytes n (v >>> 8)

/-- `s[a:a+n]` (R13). -/
def subBytes (b : Bytes) (a n : Nat) : Bytes := (b.drop a).take n

/-- `MemRead(addr, n)` (R14). -/
def memRead (b : Bytes) (addr n : Nat) : Nat := leNat (subBytes b addr n)

/-- The test `L - pos >= n` before every read, in exact arithmetic (R45). -/
def roomFor (b : Bytes) (pos n : Nat) : Bool := decide (pos + n ≤ b.length)

/-- A field read of `n` bytes: the bounds test, then the value and the advanced cursor (R45, R128). -/
def readField (b : Bytes) (pos n : Nat) : Except Error (Nat × Nat) :=
  if roomFor b pos n then .ok (memRead b pos n, pos + n) else .error .truncatedInput

end Sys2Proof.Machine
end

