-- ==== Sys2Proof/Machine/Crc.lean ====
section
/-!
DEFINITION. The checksum unit (`40_crc32.md` R101 to R105): CRC32, CRC_INIT, CRC_STEP, CRC_FINAL. The parameters are
supplied by the spec from general knowledge (`93_implementation_defined.md` G1, G2).
-/

namespace Sys2Proof.Machine

/-- The generator polynomial, reflected form (R101). -/
def crcPoly : U32 := 0xEDB88320#32

/-- CRC_INIT (R102). -/
def crcInit : U32 := 0xFFFFFFFF#32

/-- One pass of CRC_STEP's loop body (R103). -/
def crcShift (acc : U32) : U32 :=
  if acc &&& 1#32 = 1#32 then (acc >>> 1) ^^^ crcPoly else acc >>> 1

/-- `repeat n times` of the loop body. -/
def crcShifts : Nat → U32 → U32
  | 0, acc => acc
  | n + 1, acc => crcShifts n (crcShift acc)

/-- CRC_STEP (R103): one byte, least significant bit first. -/
def crcStep (acc : U32) (byte : Byte) : U32 := crcShifts 8 (acc ^^^ byte.zeroExtend 32)

/-- CRC_FINAL (R104). -/
def crcFinal (acc : U32) : U32 := acc ^^^ 0xFFFFFFFF#32

/-- The accumulator after a byte sequence, in offset order (R105, R108 clause 2). -/
def absorb (acc : U32) (m : Bytes) : U32 := m.foldl crcStep acc

/-- CRC32 (R105). -/
def crc32 (m : Bytes) : U32 := crcFinal (absorb crcInit m)

def execCrc32 (m : Bytes) (s : State) : StepOutcome := finish (.ok (.u32 (crc32 m))) s

def execCrcInit (s : State) : StepOutcome := finish (.ok (.u32 crcInit)) s

def execCrcStep (acc : U32) (byte : Byte) (s : State) : StepOutcome :=
  finish (.ok (.u32 (crcStep acc byte))) s

def execCrcFinal (acc : U32) (s : State) : StepOutcome := finish (.ok (.u32 (crcFinal acc))) s

end Sys2Proof.Machine
end

