-- ==== Sys2Proof/Machine/Operands.lean ====
section
/-!
DEFINITION. The operand domains a meaning checks before it runs: a cursor within its buffer (`41_le_integer.md` R125,
`46_frame_integrity.md` R220), a shape of at most 255 dimensions (`44_payload_length.md` R180), a buffer the decoder
accepts (`00_scope.md` R10).
-/

namespace Sys2Proof.Machine

/-- An operation on a buffer and a cursor: outside `0 <= pos <= L` it has no meaning (R17, R125). -/
def atCursor (b : Bytes) (pos : Nat) (r : Result) (s : State) : StepOutcome :=
  if pos ≤ b.length then finish r s else .refused .cursorOutsideBuffer

/-- An operation on a shape: it has 0 to 255 dimensions (R180). -/
def onShape (shape : List U32) (r : Result) (s : State) : StepOutcome :=
  if shape.length ≤ Config.maxShapeLen then finish r s else .refused .shapeTooLong

/-- `MAX_BUFFER_LEN` (R10, D8): the buffer is no longer than the decoder accepts. -/
def bufferAccepted (cfg : Config) (b : Bytes) : Bool :=
  match cfg.maxBufferLen with
  | none => true
  | some m => decide (b.length ≤ m)

/-- A decoder's error as an error (R270). -/
def ofDecoderError : DecoderError → Error
  | .truncatedInput => .truncatedInput
  | .sizeMismatch => .sizeMismatch
  | .integrityError => .integrityError
  | .unsupportedDtype => .unsupportedDtype

/-- The error of a buffer the decoder does not accept: one of its four, which one is free (R10, R281; log entry 10). -/
def overlongError (cfg : Config) (b : Bytes) : Error := ofDecoderError (Config.overlongError cfg.maxBufferLen b)

/-- The decoder accepts the buffer, or raises an error. -/
def acceptBuffer (cfg : Config) (b : Bytes) : Except Error Unit :=
  if bufferAccepted cfg b then .ok () else .error (overlongError cfg b)

end Sys2Proof.Machine
end

