-- ==== Sys2Proof/Machine/PayloadLength.lean ====
section
/-!
DEFINITION. The payload length calculator (`44_payload_length.md` R176 to R183): ELEM_SIZE and PLEN, in exact
arithmetic (R181).
-/

namespace Sys2Proof.Machine

/-- ELEM_SIZE (R177): `num` bytes per `den` elements, rounded up. Q4 by `Q4_POLICY` (R182), SparseCoo by
`SPARSE_POLICY`, which has no other value than reject (R183). -/
def elemSize (cfg : Config) (dtype : Byte) : Except Error (Nat × Nat) :=
  match dtype with
  | 0x01#8 => .ok (2, 1)
  | 0x02#8 => .ok (1, 1)
  | 0x03#8 =>
    match cfg.q4Policy with
    | .packedNibble => .ok (1, 2)
    | .reject => .error .unsupportedDtype
  | 0x10#8 =>
    match cfg.sparsePolicy with
    | .reject => .error .unsupportedDtype
  | _ => .error .unsupportedDtype

/-- A dtype is supported when ELEM_SIZE gives it a size (R176). -/
def supported (cfg : Config) (dtype : Byte) : Bool :=
  match elemSize cfg dtype with
  | .ok _ => true
  | .error _ => false

/-- `product(shape)` (R13, R178): the product of the empty shape is 1. -/
def shapeProduct (shape : List U32) : Nat := shape.foldl (fun count d => count * d.toNat) 1

/-- `ceil_div(a, b)` (R12). -/
def ceilDiv (a b : Nat) : Nat := (a + b - 1) / b

/-- PLEN (R180). -/
def payloadLength (cfg : Config) (dtype : Byte) (shape : List U32) : Except Error Nat := do
  let (num, den) ← elemSize cfg dtype
  return ceilDiv (shapeProduct shape * num) den

def execElemSize (dtype : Byte) (s : State) : StepOutcome :=
  finish ((elemSize s.cfg dtype).map fun (num, den) => .elemSize num den) s

def execPlen (dtype : Byte) (shape : List U32) (s : State) : StepOutcome :=
  onShape shape ((payloadLength s.cfg dtype shape).map .length) s

end Sys2Proof.Machine
end

