-- ==== Sys2Proof/Machine/Dispatcher.lean ====
section
/-!
DEFINITION. The dispatcher, outside the block (`47_dispatch_consumer.md` R245 to R252): what the consumer of a decoded
Frame makes of it. `JsonObject` is the external parser of R249.
-/

namespace Sys2Proof.Machine

/-- The name of a message type (R71). -/
def msgName (v : Byte) : MsgName :=
  match v with
  | 0#8 => .think
  | 1#8 => .cache
  | 2#8 => .ask
  | 3#8 => .sync
  | 4#8 => .critique
  | _ => .unnamed

/-- A UTF-8 lead byte: how many continuation bytes follow and the range of the first; none for a byte that leads
nothing. PRESUMED (log entry 9): the Unicode standard's table of well-formed byte sequences. -/
def utf8Lead (a : Nat) : Option (Nat × Nat × Nat) :=
  if a < 0x80 then some (0, 0x80, 0xBF)
  else if a < 0xC2 then none
  else if a < 0xE0 then some (1, 0x80, 0xBF)
  else if a = 0xE0 then some (2, 0xA0, 0xBF)
  else if a = 0xED then some (2, 0x80, 0x9F)
  else if a < 0xF0 then some (2, 0x80, 0xBF)
  else if a = 0xF0 then some (3, 0x90, 0xBF)
  else if a < 0xF4 then some (3, 0x80, 0xBF)
  else if a = 0xF4 then some (3, 0x80, 0x8F)
  else none

/-- The bytes continue a character that still needs `need` bytes, the next in `lo` to `hi`, and then are UTF-8. -/
def utf8Run (need lo hi : Nat) : Bytes → Bool
  | [] => decide (need = 0)
  | x :: xs =>
    match need with
    | 0 =>
      match utf8Lead x.toNat with
      | some (n, lo', hi') => utf8Run n lo' hi' xs
      | none => false
    | n + 1 => decide (lo ≤ x.toNat) && decide (x.toNat ≤ hi) && utf8Run n 0x80 0xBF xs

/-- The bytes are valid UTF-8 (R249). -/
def utf8Valid (b : Bytes) : Bool := utf8Run 0 0x80 0xBF b

/-- `JsonObject(bytes)` (R249): none when the bytes are not valid UTF-8, otherwise what the external parser says. -/
def jsonObject (b : Bytes) : Option JsonObject := if utf8Valid b then Config.jsonObject b else none

/-- A required JSON object (R246): MalformedPayload when there is none. -/
def needObject (b : Bytes) : Except Error JsonObject :=
  match jsonObject b with
  | some o => .ok o
  | none => .error .malformedPayload

/-- DISPATCH once the message type is a named one and every dtype is supported (R246, R248). -/
def dispatchNamed (name : MsgName) (f : Frame) : Except Error SemanticMessage :=
  match name with
  | .sync =>
    match f.slices with
    | [d] => do return .handshake (← needObject d.payload)
    | _ => .error .decodeIncomplete
  | .think =>
    match f.slices with
    | [] => .error .decodeIncomplete
    | ds => .ok (.tensors (ds.map fun d => (d.dtype, d.shape, d.payload)))
  | .critique =>
    match f.slices with
    | d :: e :: _ => do return .critiquePair d (← needObject e.payload)
    | _ => .error .decodeIncomplete
  | .cache => .ok (.cachePassThrough f.slices)
  | .ask => .ok (.askPassThrough f.slices)
  | .unnamed => .ok (.unknown f)

/-- DISPATCH (R246): an unnamed message type first ("never fatal"), then the dtype of every slice (R250), then the
slice count (R248), then the JSON parse. -/
def dispatchFrame (cfg : Config) (f : Frame) : Except Error SemanticMessage :=
  if msgName f.msgType = .unnamed then .ok (.unknown f)
  else if f.slices.all fun d => supported cfg d.dtype then dispatchNamed (msgName f.msgType) f
  else .error .unsupportedDtype

def execDispatch (f : Frame) (s : State) : StepOutcome :=
  finish ((dispatchFrame s.cfg f).map .message) s

end Sys2Proof.Machine
end

