-- ==== Sys2Proof/Machine/Flags.lean ====
section
/-!
DEFINITION. The block has no status flags and no operation sets one (`10_state.md` R24). This file holds the bits of the
Frame's `flags` field by name (`30_encoding.md` R72): data the block carries and never acts on.
-/

namespace Sys2Proof.Machine

/-- The bits of a `flags` word: bit 0 COMPRESSED, bit 1 ENCRYPTED, bit 2 STRONG_TAIL, bits 3 to 15 reserved (R72). -/
def flagBits (v : U16) : FlagBits where
  compressed := v.getLsbD 0
  encrypted := v.getLsbD 1
  strongTail := v.getLsbD 2
  reserved := v.extractLsb' 3 13

end Sys2Proof.Machine
end

