-- ==== Sys2Proof/Machine/LeInteger.lean ====
section
/-!
DEFINITION. The integer field codec (`41_le_integer.md` R121 to R129): LE_PUT and LE_GET at widths 1, 2, 4 and 8 bytes,
little-endian, unsigned.
-/

namespace Sys2Proof.Machine

/-- LE_PUT1 (R121). -/
def lePut1 (v : Byte) : Bytes := leBytes 1 v.toNat

/-- LE_PUT2 (R122). -/
def lePut2 (v : U16) : Bytes := leBytes 2 v.toNat

/-- LE_PUT4 (R123). -/
def lePut4 (v : U32) : Bytes := leBytes 4 v.toNat

/-- LE_PUT8 (R124). -/
def lePut8 (v : U64) : Bytes := leBytes 8 v.toNat

/-- LE_GET1 (R125). -/
def leGet1 (b : Bytes) (pos : Nat) : Except Error (Byte × Nat) := do
  let (v, pos) ← readField b pos 1
  return (BitVec.ofNat 8 v, pos)

/-- LE_GET2 (R126). -/
def leGet2 (b : Bytes) (pos : Nat) : Except Error (U16 × Nat) := do
  let (v, pos) ← readField b pos 2
  return (BitVec.ofNat 16 v, pos)

/-- LE_GET4 (R127). -/
def leGet4 (b : Bytes) (pos : Nat) : Except Error (U32 × Nat) := do
  let (v, pos) ← readField b pos 4
  return (BitVec.ofNat 32 v, pos)

/-- LE_GET8 (R129). -/
def leGet8 (b : Bytes) (pos : Nat) : Except Error (U64 × Nat) := do
  let (v, pos) ← readField b pos 8
  return (BitVec.ofNat 64 v, pos)

/-- LE_GET4 `k` times: the loop of TBL_DEC (R165) and of SLICE_DEC's dimensions (R200). -/
def getU32s (b : Bytes) (pos : Nat) : Nat → Except Error (List U32 × Nat)
  | 0 => return ([], pos)
  | k + 1 => do
    let (v, pos) ← leGet4 b pos
    let (vs, pos) ← getU32s b pos k
    return (v :: vs, pos)

/-- LE_PUT4 of each value in order: the loop of TBL_ENC (R164) and of SLICE_ENC's dimensions (R196). -/
def putU32s (vs : List U32) : Bytes := vs.flatMap lePut4

def execLePut1 (v : Byte) (s : State) : StepOutcome := finish (.ok (.bytes (lePut1 v))) s

def execLePut2 (v : U16) (s : State) : StepOutcome := finish (.ok (.bytes (lePut2 v))) s

def execLePut4 (v : U32) (s : State) : StepOutcome := finish (.ok (.bytes (lePut4 v))) s

def execLePut8 (v : U64) (s : State) : StepOutcome := finish (.ok (.bytes (lePut8 v))) s

def execLeGet1 (b : Bytes) (pos : Nat) (s : State) : StepOutcome :=
  atCursor b pos ((leGet1 b pos).map fun (v, q) => .got1 v q) s

def execLeGet2 (b : Bytes) (pos : Nat) (s : State) : StepOutcome :=
  atCursor b pos ((leGet2 b pos).map fun (v, q) => .got2 v q) s

def execLeGet4 (b : Bytes) (pos : Nat) (s : State) : StepOutcome :=
  atCursor b pos ((leGet4 b pos).map fun (v, q) => .got4 v q) s

def execLeGet8 (b : Bytes) (pos : Nat) (s : State) : StepOutcome :=
  atCursor b pos ((leGet8 b pos).map fun (v, q) => .got8 v q) s

end Sys2Proof.Machine
end

