-- ==== Sys2Proof/Machine/Fields.lean ====
section
/-!
DEFINITION. The selector-field rows of the opcode table (`30_encoding.md` R71 to R74), log entry 5. A dtype byte gives
what ELEM_SIZE gives for it (`44_payload_length.md` R177). A `msg_type`, `modality` or `flags` value is carried
unchanged: the bytes that carry it on the wire, and the names R71 to R73 give it.
-/

namespace Sys2Proof.Machine

/-- The name of a modality (R73). -/
def modName (v : Byte) : ModName :=
  match v with
  | 0#8 => .text
  | 1#8 => .image
  | 2#8 => .audio
  | 3#8 => .graph
  | 4#8 => .mixed
  | _ => .unnamed

/-- What a dtype byte selects (R74, R177). -/
def dtypeResult (cfg : Config) (d : Byte) : Result :=
  (elemSize cfg d).map fun (num, den) => .elemSize num den

/-- A `msg_type` value: carried as its byte, never examined by the codec (R71). -/
def msgResult (v : Byte) : Result := .ok (.msgType (lePut1 v) (msgName v))

/-- A `modality` value: carried as its byte, never an error (R73). -/
def modResult (v : Byte) : Result := .ok (.modality (lePut1 v) (modName v))

/-- A `flags` word: carried as its two bytes, changing nothing the block does (R72). -/
def flagsResult (v : U16) : Result := .ok (.flags (lePut2 v) (flagBits v))

def execDtypeF16 (s : State) : StepOutcome := finish (dtypeResult s.cfg 0x01#8) s

def execDtypeI8 (s : State) : StepOutcome := finish (dtypeResult s.cfg 0x02#8) s

def execDtypeQ4 (s : State) : StepOutcome := finish (dtypeResult s.cfg 0x03#8) s

def execDtypeSparseCoo (s : State) : StepOutcome := finish (dtypeResult s.cfg 0x10#8) s

def execDtypeUnrecognised (d : Byte) (s : State) : StepOutcome := finish (dtypeResult s.cfg d) s

def execMsgThink (s : State) : StepOutcome := finish (msgResult 0#8) s

def execMsgCache (s : State) : StepOutcome := finish (msgResult 1#8) s

def execMsgAsk (s : State) : StepOutcome := finish (msgResult 2#8) s

def execMsgSync (s : State) : StepOutcome := finish (msgResult 3#8) s

def execMsgCritique (s : State) : StepOutcome := finish (msgResult 4#8) s

def execMsgUnknown (v : Byte) (s : State) : StepOutcome := finish (msgResult v) s

def execModText (s : State) : StepOutcome := finish (modResult 0#8) s

def execModImage (s : State) : StepOutcome := finish (modResult 1#8) s

def execModAudio (s : State) : StepOutcome := finish (modResult 2#8) s

def execModGraph (s : State) : StepOutcome := finish (modResult 3#8) s

def execModMixed (s : State) : StepOutcome := finish (modResult 4#8) s

def execModUnknown (v : Byte) (s : State) : StepOutcome := finish (modResult v) s

def execFlagCompressed (hi : BitVec 15) (s : State) : StepOutcome := finish (flagsResult (flagsCompressed hi)) s

def execFlagEncrypted (hi : BitVec 14) (lo : BitVec 1) (s : State) : StepOutcome :=
  finish (flagsResult (flagsEncrypted hi lo)) s

def execFlagStrongTail (hi : BitVec 13) (lo : BitVec 2) (s : State) : StepOutcome :=
  finish (flagsResult (flagsStrongTail hi lo)) s

def execFlagReserved (r : BitVec 13) (lo : BitVec 3) (s : State) : StepOutcome :=
  finish (flagsResult (flagsReserved r lo)) s

end Sys2Proof.Machine
end

