-- ==== Sys2Proof/Machine/HeaderCodec.lean ====
section
/-!
DEFINITION. The header marshaller (`42_header.md` R141, R142, R145, R146): the 24-byte header and the 5-byte tag group.
No field value is checked (R143).
-/

namespace Sys2Proof.Machine

/-- HDR_ENC (R141, R61). -/
def hdrEncode (h : Header) : Bytes :=
  lePut1 h.version ++ lePut1 h.msgType ++ lePut2 h.flags ++ lePut4 h.streamId ++ lePut8 h.frameSeq
    ++ lePut8 h.numSlices

/-- HDR_DEC (R142). -/
def hdrDecode (b : Bytes) (pos : Nat) : Except Error (Header × Nat) := do
  let (version, pos) ← leGet1 b pos
  let (msgType, pos) ← leGet1 b pos
  let (flags, pos) ← leGet2 b pos
  let (streamId, pos) ← leGet4 b pos
  let (frameSeq, pos) ← leGet8 b pos
  let (numSlices, pos) ← leGet8 b pos
  return (⟨version, msgType, flags, streamId, frameSeq, numSlices⟩, pos)

/-- TAG_ENC (R145, R64). -/
def tagEncode (spaceHash32 : U32) (modality : Byte) : Bytes := lePut4 spaceHash32 ++ lePut1 modality

/-- TAG_DEC (R146). -/
def tagDecode (b : Bytes) (pos : Nat) : Except Error ((U32 × Byte) × Nat) := do
  let (spaceHash32, pos) ← leGet4 b pos
  let (modality, pos) ← leGet1 b pos
  return ((spaceHash32, modality), pos)

def execHdrEnc (version msgType : Byte) (flags : U16) (streamId : U32) (frameSeq numSlices : U64)
    (s : State) : StepOutcome :=
  finish (.ok (.bytes (hdrEncode ⟨version, msgType, flags, streamId, frameSeq, numSlices⟩))) s

def execHdrDec (b : Bytes) (pos : Nat) (s : State) : StepOutcome :=
  atCursor b pos ((hdrDecode b pos).map fun (h, q) => .header h q) s

def execTagEnc (spaceHash32 : U32) (modality : Byte) (s : State) : StepOutcome :=
  finish (.ok (.bytes (tagEncode spaceHash32 modality))) s

def execTagDec (b : Bytes) (pos : Nat) (s : State) : StepOutcome :=
  atCursor b pos ((tagDecode b pos).map fun (t, q) => .tag t.1 t.2 q) s

end Sys2Proof.Machine
end

