-- ==== Sys2Proof/Machine/SliceCodec.lean ====
section
/-!
DEFINITION. The slice codec (`45_slice.md` R196, R197, R200 to R203).
-/

namespace Sys2Proof.Machine

/-- The slices SLICE_ENC takes: clauses 2 to 4 of `WF` (R196; `10_state.md` R35), and no payload of 4 GiB or more, for
which R197 and `93_implementation_defined.md` U1 have the model emit no bytes. -/
def sliceReady (cfg : Config) (d : SliceDescriptor) : Bool :=
  decide (d.shape.length ≤ Config.maxShapeLen)
    && decide (d.payload.length < 2 ^ 32)
    && match payloadLength cfg d.dtype d.shape with
      | .ok size => decide (d.payload.length = size)
      | .error _ => false

/-- SLICE_ENC (R196): `shape_len` is written from the shape. -/
def sliceEncode (d : SliceDescriptor) : Bytes :=
  lePut1 d.dtype ++ lePut1 (BitVec.ofNat 8 d.shape.length) ++ putU32s d.shape ++ d.payload

/-- SLICE_DEC (R200), its checks in the order of R201: metadata, dtype, cross-check (R202), payload (R203). -/
def sliceDecode (cfg : Config) (b : Bytes) (pos : Nat) (entry : U32) :
    Except Error (SliceDescriptor × Nat) := do
  let (dtype, pos) ← leGet1 b pos
  let (k, pos) ← leGet1 b pos
  let (shape, pos) ← getU32s b pos k.toNat
  let size ← payloadLength cfg dtype shape
  if size ≠ entry.toNat then .error .sizeMismatch
  else if roomFor b pos size then return (⟨dtype, shape, subBytes b pos size⟩, pos + size)
  else .error .truncatedInput

/-- SLICE_ENC (R196), refused on a slice it does not take (R197, U1). -/
def execSliceEnc (d : SliceDescriptor) (s : State) : StepOutcome :=
  if sliceReady s.cfg d then finish (.ok (.bytes (sliceEncode d))) s else .refused .illFormedSlice

def execSliceDec (b : Bytes) (pos : Nat) (entry : U32) (s : State) : StepOutcome :=
  atCursor b pos ((sliceDecode s.cfg b pos entry).map fun (d, q) => .slice d q) s

end Sys2Proof.Machine
end

