-- ==== Sys2Proof/Machine/SliceTable.lean ====
section
/-!
DEFINITION. The slice-length table codec (`43_slice_table.md` R164, R165). The test `4 * n > L - pos` is made in exact
arithmetic before any entry is read (R166).
-/

namespace Sys2Proof.Machine

/-- TBL_ENC (R164, R63). -/
def tblEncode (lens : List U32) : Bytes := putU32s lens

/-- TBL_DEC (R165, R166). -/
def tblDecode (b : Bytes) (pos : Nat) (n : U64) : Except Error (List U32 × Nat) :=
  if roomFor b pos (4 * n.toNat) then getU32s b pos n.toNat else .error .truncatedInput

def execTblEnc (lens : List U32) (s : State) : StepOutcome := finish (.ok (.bytes (tblEncode lens))) s

def execTblDec (b : Bytes) (pos : Nat) (n : U64) (s : State) : StepOutcome :=
  atCursor b pos ((tblDecode b pos n).map fun (t, q) => .table t q) s

end Sys2Proof.Machine
end

