-- ==== Sys2Proof/Machine/FrameCodec.lean ====
section
/-!
DEFINITION. The frame encoder, frame decoder and integrity verifier (`46_frame_integrity.md` R216 to R227).
-/

namespace Sys2Proof.Machine

/-- `WF(f)` (`10_state.md` R35). -/
def frameWF (cfg : Config) (f : Frame) : Bool :=
  decide (f.slices.length < 2 ^ 64)
    && f.slices.all (sliceReady cfg)

/-- The header FRAME_ENC writes: `num_slices` is the number of slices (R217). -/
def frameHeader (f : Frame) : Header :=
  ⟨f.version, f.msgType, f.flags, f.streamId, f.frameSeq, BitVec.ofNat 64 f.slices.length⟩

/-- The table entry of a slice: its PLEN (R161, R217). PLEN gives a length below 2^32 for every slice of a well-formed
Frame, and FRAME_ENC runs on no other, so the second arm is not reached. -/
def tableEntry (cfg : Config) (d : SliceDescriptor) : U32 :=
  match payloadLength cfg d.dtype d.shape with
  | .ok size => BitVec.ofNat 32 size
  | .error _ => 0#32

/-- What FRAME_ENC writes before the trailer (R217). -/
def frameBody (cfg : Config) (f : Frame) : Bytes :=
  hdrEncode (frameHeader f) ++ tblEncode (f.slices.map (tableEntry cfg))
    ++ tagEncode f.spaceHash32 f.modality ++ f.slices.flatMap sliceEncode

/-- FRAME_ENC (R217) on a well-formed Frame. -/
def frameEncode (cfg : Config) (f : Frame) : Bytes :=
  frameBody cfg f ++ lePut4 (crc32 (frameBody cfg f))

/-- The end-of-buffer test (R223) under `TRAILING_BYTES` (R10). -/
def endsAt (cfg : Config) (b : Bytes) (q : Nat) : Bool :=
  match cfg.trailingBytes with
  | .reject => decide (q = b.length)

/-- The trailer's tests, given the checksum computed over what stands before it (R220, R222, R223). -/
def checkTrailer (cfg : Config) (b : Bytes) (p : Nat) (computed : U32) : Except Error U32 := do
  let (stored, q) ← leGet4 b p
  if ¬ endsAt cfg b q then .error .integrityError
  else if computed ≠ stored then .error .integrityError
  else return stored

/-- VERIFY (R220): the covered range is `b[0 : p]` (R221). -/
def verify (cfg : Config) (b : Bytes) (p : Nat) : Except Error U32 :=
  if roomFor b p 4 then checkTrailer cfg b p (crc32 (subBytes b 0 p)) else .error .truncatedInput

/-- Stage 4 of FRAME_DEC (R225): one SLICE_DEC for each table entry, in order. -/
def decodeSlices (cfg : Config) (b : Bytes) (pos : Nat) : List U32 → Except Error (List SliceDescriptor × Nat)
  | [] => return ([], pos)
  | entry :: rest => do
    let (d, pos) ← sliceDecode cfg b pos entry
    let (ds, pos) ← decodeSlices cfg b pos rest
    return (d :: ds, pos)

/-- The Frame from what the stages read (R225). -/
def frameOf (h : Header) (spaceHash32 : U32) (modality : Byte) (slices : List SliceDescriptor) : Frame :=
  ⟨h.version, h.msgType, h.flags, h.streamId, h.frameSeq, spaceHash32, modality, slices⟩

/-- FRAME_DEC (R225). -/
def frameDecode (cfg : Config) (b : Bytes) : Except Error (Frame × U32) := do
  let (h, pos) ← hdrDecode b 0
  let (tbl, pos) ← tblDecode b pos h.numSlices
  let (tag, pos) ← tagDecode b pos
  let (slices, pos) ← decodeSlices cfg b pos tbl
  let crc ← verify cfg b pos
  return (frameOf h tag.1 tag.2 slices, crc)

/-- FRAME_DEC under `MAX_BUFFER_LEN` (R10): total on every byte sequence (`60_exceptions.md` R281). -/
def decodeBuffer (cfg : Config) (b : Bytes) : Except Error (Frame × U32) := do
  acceptBuffer cfg b
  frameDecode cfg b

def execFrameEnc (f : Frame) (s : State) : StepOutcome :=
  if frameWF s.cfg f then finish (.ok (.bytes (frameEncode s.cfg f))) s else .refused .illFormedFrame

def execFrameDec (b : Bytes) (s : State) : StepOutcome :=
  finish ((decodeBuffer s.cfg b).map fun (f, crc) => .frame f crc) s

def execVerify (b : Bytes) (p : Nat) (s : State) : StepOutcome :=
  atCursor b p ((verify s.cfg b p).map .u32) s

end Sys2Proof.Machine
end

