-- ==== Sys2Proof/Machine/Wire.lean ====
section
/-!
DEFINITION. The wire-format rows of the opcode table (`30_encoding.md` R60, R61, R63 to R66), log entry 4: the parts of
a frame as the stages of FRAME_ENC (`46_frame_integrity.md` R217) and FRAME_DEC (R225), done one part a step with a
running checksum (R235). Nothing is handed back before the last part (R227, R280).
-/

namespace Sys2Proof.Machine

/-! ### The working variables -/

/-- The cursor moves to `q`, and the bytes it passes are absorbed (R25, R235). -/
def advanceTo (j : DecodeJob) (q : Nat) : DecodeJob :=
  { j with pos := q, acc := absorb j.acc (subBytes j.b j.pos (q - j.pos)) }

/-- Bytes are appended at the end of `out`, and absorbed (R41, R235). -/
def appendOut (j : EncodeJob) (x : Bytes) : EncodeJob := { j with out := j.out ++ x, acc := absorb j.acc x }

/-- The start-of-operation values of a FRAME_DEC (R301); the header is written before it is read. -/
def startDecode (b : Bytes) (h : Header) : DecodeJob where
  b := b
  pos := 0
  acc := crcInit
  header := h
  tbl := []
  spaceHash32 := 0
  modality := 0
  slices := []
  next := .table

/-- The start-of-operation values of a FRAME_ENC (R301). -/
def startEncode (f : Frame) : EncodeJob where
  frame := f
  out := []
  acc := crcInit
  todo := f.slices
  next := .table

/-- After the tag group or a slice: another slice, or the trailer when none is left (R60). -/
def sliceOrTrailer (more : Bool) : Part := if more then .slice else .trailer

/-- The frame operation in flight goes on, or an error ends it (R280). -/
def goOn (r : Except Error Job) (s : State) : StepOutcome :=
  match r with
  | .ok j => .next (s.withJob j)
  | .error e => raise e s.endJob

/-! ### Decoding, one stage of R225 each -/

def decodeHeader (cfg : Config) (b : Bytes) : Except Error Job := do
  acceptBuffer cfg b
  let (h, q) ← hdrDecode b 0
  return .decode (advanceTo (startDecode b h) q)

def decodeTable (j : DecodeJob) : Except Error Job := do
  let (tbl, q) ← tblDecode j.b j.pos j.header.numSlices
  return .decode { advanceTo j q with tbl := tbl, next := .tag }

def decodeTag (j : DecodeJob) : Except Error Job := do
  let (tag, q) ← tagDecode j.b j.pos
  return .decode
    { advanceTo j q with
      spaceHash32 := tag.1, modality := tag.2, next := sliceOrTrailer (decide (0 < j.tbl.length)) }

def decodeSlice (cfg : Config) (j : DecodeJob) (entry : U32) : Except Error Job := do
  let (d, q) ← sliceDecode cfg j.b j.pos entry
  return .decode
    { advanceTo j q with
      slices := j.slices ++ [d]
      next := sliceOrTrailer (decide (j.slices.length + 1 < j.tbl.length)) }

def decodeTrailer (cfg : Config) (j : DecodeJob) : Result := do
  let crc ← checkTrailer cfg j.b j.pos (crcFinal j.acc)
  return .frame (frameOf j.header j.spaceHash32 j.modality j.slices) crc

/-! ### Encoding, one line of R217 each -/

def encodeHeader (f : Frame) : EncodeJob := appendOut (startEncode f) (hdrEncode (frameHeader f))

def encodeTable (cfg : Config) (j : EncodeJob) : EncodeJob :=
  { appendOut j (tblEncode (j.frame.slices.map (tableEntry cfg))) with next := .tag }

def encodeTag (j : EncodeJob) : EncodeJob :=
  { appendOut j (tagEncode j.frame.spaceHash32 j.frame.modality) with
    next := sliceOrTrailer (decide (0 < j.todo.length)) }

def encodeSlice (j : EncodeJob) (d : SliceDescriptor) (rest : List SliceDescriptor) : EncodeJob :=
  { appendOut j (sliceEncode d) with todo := rest, next := sliceOrTrailer (decide (0 < rest.length)) }

def encodeTrailer (j : EncodeJob) : Result := .ok (.bytes (j.out ++ lePut4 (crcFinal j.acc)))

/-! ### The rows -/

/-- FMT_HEADER (R61): a frame operation begins with its header. -/
def execFmtHeader (job : WireJob) (s : State) : StepOutcome :=
  match s.job with
  | some _ => .refused .jobInFlight
  | none =>
    match job with
    | .decode b => goOn (decodeHeader s.cfg b) s
    | .encode f =>
      if frameWF s.cfg f then goOn (.ok (.encode (encodeHeader f))) s else .refused .illFormedFrame

/-- FMT_TABLE (R63). -/
def execFmtTable (s : State) : StepOutcome :=
  match s.job with
  | some (.decode j) => if j.next = .table then goOn (decodeTable j) s else .refused .partOutOfOrder
  | some (.encode j) =>
    if j.next = .table then goOn (.ok (.encode (encodeTable s.cfg j))) s else .refused .partOutOfOrder
  | none => .refused .partOutOfOrder

/-- FMT_TAG (R64). -/
def execFmtTag (s : State) : StepOutcome :=
  match s.job with
  | some (.decode j) => if j.next = .tag then goOn (decodeTag j) s else .refused .partOutOfOrder
  | some (.encode j) =>
    if j.next = .tag then goOn (.ok (.encode (encodeTag j))) s else .refused .partOutOfOrder
  | none => .refused .partOutOfOrder

/-- FMT_SLICE (R65): the entry is the table's for this slice; a slice past the table's or the Frame's last is out of
order. -/
def execFmtSlice (s : State) : StepOutcome :=
  match s.job with
  | some (.decode j) =>
    if j.next = .slice then
      match j.tbl[j.slices.length]? with
      | some entry => goOn (decodeSlice s.cfg j entry) s
      | none => .refused .partOutOfOrder
    else .refused .partOutOfOrder
  | some (.encode j) =>
    if j.next = .slice then
      match j.todo with
      | d :: rest => goOn (.ok (.encode (encodeSlice j d rest))) s
      | [] => .refused .partOutOfOrder
    else .refused .partOutOfOrder
  | none => .refused .partOutOfOrder

/-- FMT_TRAILER (R66): the operation ends, and its result is handed back. -/
def execFmtTrailer (s : State) : StepOutcome :=
  match s.job with
  | some (.decode j) =>
    if j.next = .trailer then finish (decodeTrailer s.cfg j) s.endJob else .refused .partOutOfOrder
  | some (.encode j) =>
    if j.next = .trailer then finish (encodeTrailer j) s.endJob else .refused .partOutOfOrder
  | none => .refused .partOutOfOrder

/-! ### The block's own sequencing -/

/-- The instruction of a part. -/
def partInstr : Part → Instr
  | .table => .fmtTable
  | .tag => .fmtTag
  | .slice => .fmtSlice
  | .trailer => .fmtTrailer

/-- The part a frame operation in flight comes to next (R60, R84). -/
def nextPart : Job → Part
  | .decode j => j.next
  | .encode j => j.next

end Sys2Proof.Machine
end

