-- ==== Sys2Proof/Machine/Dispatch.lean ====
section
/-! DEFINITION. One arm per instruction: the meaning of each row of `spec/opcode_table.json`. -/

namespace Sys2Proof.Machine

def exec (i : Instr) (s : State) : Host.Outcome State Fault Refusal :=
  match i with
  -- the checksum unit (`40_crc32.md`)
  | .crc32 m => Sys2Proof.Machine.execCrc32 m s
  | .crcInit => Sys2Proof.Machine.execCrcInit s
  | .crcStep acc byte => Sys2Proof.Machine.execCrcStep acc byte s
  | .crcFinal acc => Sys2Proof.Machine.execCrcFinal acc s
  -- the integer field codec (`41_le_integer.md`)
  | .lePut1 v => Sys2Proof.Machine.execLePut1 v s
  | .lePut2 v => Sys2Proof.Machine.execLePut2 v s
  | .lePut4 v => Sys2Proof.Machine.execLePut4 v s
  | .lePut8 v => Sys2Proof.Machine.execLePut8 v s
  | .leGet1 b pos => Sys2Proof.Machine.execLeGet1 b pos s
  | .leGet2 b pos => Sys2Proof.Machine.execLeGet2 b pos s
  | .leGet4 b pos => Sys2Proof.Machine.execLeGet4 b pos s
  | .leGet8 b pos => Sys2Proof.Machine.execLeGet8 b pos s
  -- the header marshaller (`42_header.md`)
  | .hdrEnc version msgType flags streamId frameSeq numSlices => Sys2Proof.Machine.execHdrEnc version msgType flags streamId frameSeq numSlices s
  | .hdrDec b pos => Sys2Proof.Machine.execHdrDec b pos s
  | .tagEnc spaceHash32 modality => Sys2Proof.Machine.execTagEnc spaceHash32 modality s
  | .tagDec b pos => Sys2Proof.Machine.execTagDec b pos s
  -- the slice-length table codec (`43_slice_table.md`)
  | .tblEnc lens => Sys2Proof.Machine.execTblEnc lens s
  | .tblDec b pos n => Sys2Proof.Machine.execTblDec b pos n s
  -- the payload length calculator (`44_payload_length.md`)
  | .elemSize dtype => Sys2Proof.Machine.execElemSize dtype s
  | .plen dtype shape => Sys2Proof.Machine.execPlen dtype shape s
  -- the slice codec (`45_slice.md`)
  | .sliceEnc d => Sys2Proof.Machine.execSliceEnc d s
  | .sliceDec b pos entry => Sys2Proof.Machine.execSliceDec b pos entry s
  -- the frame codec and the integrity verifier (`46_frame_integrity.md`)
  | .frameEnc f => Sys2Proof.Machine.execFrameEnc f s
  | .frameDec b => Sys2Proof.Machine.execFrameDec b s
  | .verify b p => Sys2Proof.Machine.execVerify b p s
  -- the dispatcher, outside the block (`47_dispatch_consumer.md`)
  | .dispatch f => Sys2Proof.Machine.execDispatch f s
  -- the dtype byte of a slice (R74)
  | .dtypeF16 => Sys2Proof.Machine.execDtypeF16 s
  | .dtypeI8 => Sys2Proof.Machine.execDtypeI8 s
  | .dtypeQ4 => Sys2Proof.Machine.execDtypeQ4 s
  | .dtypeSparseCoo => Sys2Proof.Machine.execDtypeSparseCoo s
  | .dtypeUnrecognised d => Sys2Proof.Machine.execDtypeUnrecognised d s
  -- the `msg_type` byte of a header (R71)
  | .msgThink => Sys2Proof.Machine.execMsgThink s
  | .msgCache => Sys2Proof.Machine.execMsgCache s
  | .msgAsk => Sys2Proof.Machine.execMsgAsk s
  | .msgSync => Sys2Proof.Machine.execMsgSync s
  | .msgCritique => Sys2Proof.Machine.execMsgCritique s
  | .msgUnknown v => Sys2Proof.Machine.execMsgUnknown v s
  -- the `modality` byte of a tag group (R73)
  | .modText => Sys2Proof.Machine.execModText s
  | .modImage => Sys2Proof.Machine.execModImage s
  | .modAudio => Sys2Proof.Machine.execModAudio s
  | .modGraph => Sys2Proof.Machine.execModGraph s
  | .modMixed => Sys2Proof.Machine.execModMixed s
  | .modUnknown v => Sys2Proof.Machine.execModUnknown v s
  -- the `flags` bits of a header (R72); the operands are the bits the row's pattern leaves free
  | .flagCompressed hi => Sys2Proof.Machine.execFlagCompressed hi s
  | .flagEncrypted hi lo => Sys2Proof.Machine.execFlagEncrypted hi lo s
  | .flagStrongTail hi lo => Sys2Proof.Machine.execFlagStrongTail hi lo s
  | .flagReserved r lo => Sys2Proof.Machine.execFlagReserved r lo s
  -- the parts of a frame on the wire (R60), as stages of a frame operation
  | .fmtHeader job => Sys2Proof.Machine.execFmtHeader job s
  | .fmtTable => Sys2Proof.Machine.execFmtTable s
  | .fmtTag => Sys2Proof.Machine.execFmtTag s
  | .fmtSlice => Sys2Proof.Machine.execFmtSlice s
  | .fmtTrailer => Sys2Proof.Machine.execFmtTrailer s

end Sys2Proof.Machine
end

