-- ==== Sys2Proof/Machine/Step.lean ====
section
/-!
DEFINITION. One step: the block takes the oldest request, decodes it and runs it; with no request it does the next
part of the frame operation in flight; with neither it does nothing, since the host issues each operation
(`30_encoding.md` R84). Log entries 2, 4 and 6.
-/

namespace Sys2Proof.Machine

def step (s : State) : Host.Outcome State Fault Refusal :=
  match s.requests with
  | r :: rest =>
    match decode r with
    | .ok i => exec i (s.withRequests rest)
    | .error e => .refused (.undecodable e)
  | [] =>
    match s.job with
    | some j => exec (partInstr (nextPart j)) s
    | none => .next s

/-- The state with the instruction of an opcode-table word as the next request. -/
def State.withFetchWord (s : State) (nbits w : Nat) : State :=
  s.withRequests (requestOfTableWord nbits w :: s.requests)

end Sys2Proof.Machine
end

