-- ==== Sys2Proof/Safety.lean ====
section
/-!
DEFINITION. What claims use beside the machine: the byte lists of the wire written out, which errors each instruction
may raise (`60_exceptions.md` R270), bits of a buffer, and the invariant of a frame operation in flight.
-/

namespace Sys2Proof.Machine

/-! ### Little-endian byte lists, written out (`20_memory.md` R43) -/

def le2 (v : U16) : Bytes := [v.extractLsb' 0 8, v.extractLsb' 8 8]

def le4 (v : U32) : Bytes := [v.extractLsb' 0 8, v.extractLsb' 8 8, v.extractLsb' 16 8, v.extractLsb' 24 8]

def le8 (v : U64) : Bytes :=
  [v.extractLsb' 0 8, v.extractLsb' 8 8, v.extractLsb' 16 8, v.extractLsb' 24 8,
    v.extractLsb' 32 8, v.extractLsb' 40 8, v.extractLsb' 48 8, v.extractLsb' 56 8]

/-! ### Bits of a buffer -/

/-- Bit `i` of a byte sequence in the order the checksum takes bits in: bytes in offset order, each least significant
bit first (R101). -/
def bitAt (m : Bytes) (i : Nat) : Bool := (m.getD (i / 8) 0#8).getLsbD (i % 8)

/-- The buffer with bit `k` of the byte at offset `i` changed. -/
def flipBit (b : Bytes) (i k : Nat) : Bytes := b.modify i fun x => x ^^^ (1#8 <<< k)

/-- Bytewise exclusive-or of two sequences of one length (R108). -/
def xorBytes (x y : Bytes) : Bytes := List.zipWith (fun u v => u ^^^ v) x y

/-! ### The wire format, written out (`30_encoding.md` R60 to R66) -/

def wireHeader (h : Header) : Bytes :=
  [h.version, h.msgType] ++ le2 h.flags ++ le4 h.streamId ++ le8 h.frameSeq ++ le8 h.numSlices

def wireTag (spaceHash32 : U32) (modality : Byte) : Bytes := le4 spaceHash32 ++ [modality]

def wireSlice (d : SliceDescriptor) : Bytes :=
  [d.dtype, BitVec.ofNat 8 d.shape.length] ++ d.shape.flatMap le4 ++ d.payload

/-- The frame before its trailer: each table entry is the length of its slice's payload (R63). -/
def wireBody (f : Frame) : Bytes :=
  wireHeader ⟨f.version, f.msgType, f.flags, f.streamId, f.frameSeq, BitVec.ofNat 64 f.slices.length⟩
    ++ f.slices.flatMap (fun d => le4 (BitVec.ofNat 32 d.payload.length))
    ++ wireTag f.spaceHash32 f.modality ++ f.slices.flatMap wireSlice

/-- `4*k_i + P_i`, what a slice adds to the frame's length beside its 6 fixed bytes (R67). -/
def sliceBytes (d : SliceDescriptor) : Nat := 4 * d.shape.length + d.payload.length

/-- The slices SLICE_ENC takes: the precondition of `45_slice.md` R196, and the bound of `93_implementation_defined.md` U1
on the payload. They are clauses 2 to 5 of R35. -/
def SliceReady (cfg : Config) (d : SliceDescriptor) : Prop :=
  d.shape.length ≤ 255 ∧ supported cfg d.dtype = true
    ∧ payloadLength cfg d.dtype d.shape = .ok d.payload.length ∧ d.payload.length < 2 ^ 32

/-- `WF(f)` (`10_state.md` R35): clause 1, and clauses 2 to 5 of each slice. -/
def WF (cfg : Config) (f : Frame) : Prop :=
  f.slices.length < 2 ^ 64 ∧ ∀ d ∈ f.slices, SliceReady cfg d

/-- The laws of R130 for one width: `n` bytes, `put` its encoder, `get` its decoder. -/
def LeLaws {w : Nat} (n : Nat) (put : BitVec w → Bytes) (get : Bytes → Nat → Except Error (BitVec w × Nat)) : Prop :=
  (∀ v, (put v).length = n)
    ∧ (∀ v pre post, get (pre ++ put v ++ post) pre.length = .ok (v, pre.length + n))
    ∧ (∀ b pos v q, get b pos = .ok (v, q) → q = pos + n ∧ put v = subBytes b pos n)
    ∧ (∀ b pos e, get b pos = .error e ↔ e = .truncatedInput ∧ b.length < pos + n)
    ∧ (∀ v v', put v = put v' → v = v')

/-- `n` is the length in bits of a window, from bit `o` on, outside which two byte sequences agree (R108 clause 4). -/
def AgreeOutside (x y : Bytes) (o n : Nat) : Prop := ∀ i, bitAt x i ≠ bitAt y i → o ≤ i ∧ i < o + n

/-! ### Operations and their errors -/

/-- The instructions that are one atomic transaction (R48): all but the parts of a frame operation. -/
def atomic : Instr → Bool
  | .fmtHeader _ | .fmtTable | .fmtTag | .fmtSlice | .fmtTrailer => false
  | _ => true

/-- The errors an instruction may raise (R80 and R270, the "raised by" column; a part of a frame by what its stage
calls, a dtype row by ELEM_SIZE; the header part of a decoding also by the error of a buffer the decoder does not accept,
log entry 10). -/
def mayRaise : Instr → List Error
  | .leGet1 _ _ | .leGet2 _ _ | .leGet4 _ _ | .leGet8 _ _ => [.truncatedInput]
  | .hdrDec _ _ | .tagDec _ _ | .tblDec _ _ _ => [.truncatedInput]
  | .elemSize _ | .plen _ _ => [.unsupportedDtype]
  | .sliceDec _ _ _ => [.truncatedInput, .unsupportedDtype, .sizeMismatch]
  | .frameDec _ => [.truncatedInput, .unsupportedDtype, .sizeMismatch, .integrityError]
  | .verify _ _ => [.truncatedInput, .integrityError]
  | .dispatch _ => [.decodeIncomplete, .malformedPayload, .unsupportedDtype]
  | .dtypeQ4 | .dtypeSparseCoo | .dtypeUnrecognised _ => [.unsupportedDtype]
  | .fmtHeader _ => [.truncatedInput, .unsupportedDtype, .sizeMismatch, .integrityError]
  | .fmtTable | .fmtTag => [.truncatedInput]
  | .fmtSlice => [.truncatedInput, .unsupportedDtype, .sizeMismatch]
  | .fmtTrailer => [.truncatedInput, .integrityError]
  | _ => []

/-! ### The invariant of a frame operation in flight -/

/-- What a decoding has read is what the stages of FRAME_DEC read up to its cursor, and the accumulator holds the bytes
before the cursor (R25, R45, R225, R235). -/
def DecodeInv (cfg : Config) (j : DecodeJob) : Prop :=
  bufferAccepted cfg j.b = true ∧ j.pos ≤ j.b.length ∧ j.acc = absorb crcInit (j.b.take j.pos) ∧
    hdrDecode j.b 0 = .ok (j.header, Config.headerBytes) ∧
    match j.next with
    | .table => j.pos = Config.headerBytes ∧ j.tbl = [] ∧ j.slices = []
    | .tag => tblDecode j.b Config.headerBytes j.header.numSlices = .ok (j.tbl, j.pos) ∧ j.slices = []
    | .slice =>
      j.slices.length < j.tbl.length ∧ ∃ p q, tblDecode j.b Config.headerBytes j.header.numSlices = .ok (j.tbl, p)
        ∧ tagDecode j.b p = .ok ((j.spaceHash32, j.modality), q)
        ∧ decodeSlices cfg j.b q (j.tbl.take j.slices.length) = .ok (j.slices, j.pos)
    | .trailer =>
      j.slices.length = j.tbl.length ∧ ∃ p q, tblDecode j.b Config.headerBytes j.header.numSlices = .ok (j.tbl, p)
        ∧ tagDecode j.b p = .ok ((j.spaceHash32, j.modality), q)
        ∧ decodeSlices cfg j.b q j.tbl = .ok (j.slices, j.pos)

/-- The slices an encoding has written. -/
def writtenSlices (j : EncodeJob) : List SliceDescriptor :=
  j.frame.slices.take (j.frame.slices.length - j.todo.length)

/-- What an encoding has written is what FRAME_ENC writes up to there, and the accumulator holds it (R217, R235). -/
def EncodeInv (cfg : Config) (j : EncodeJob) : Prop :=
  frameWF cfg j.frame = true ∧ j.acc = absorb crcInit j.out ∧ j.todo <:+ j.frame.slices ∧
    match j.next with
    | .table => j.todo = j.frame.slices ∧ j.out = hdrEncode (frameHeader j.frame)
    | .tag =>
      j.todo = j.frame.slices ∧
        j.out = hdrEncode (frameHeader j.frame) ++ tblEncode (j.frame.slices.map (tableEntry cfg))
    | .slice =>
      j.todo ≠ [] ∧
        j.out = hdrEncode (frameHeader j.frame) ++ tblEncode (j.frame.slices.map (tableEntry cfg))
          ++ tagEncode j.frame.spaceHash32 j.frame.modality ++ (writtenSlices j).flatMap sliceEncode
    | .trailer => j.todo = [] ∧ j.out = frameBody cfg j.frame

/-- The invariant of the machine: a frame operation in flight is where its stages put it. -/
def State.Inv (s : State) : Prop :=
  match s.job with
  | none => True
  | some (.decode j) => DecodeInv s.cfg j
  | some (.encode j) => EncodeInv s.cfg j

end Sys2Proof.Machine
end

