-- ==== Sys2Proof/Certificates/Slice0/Obligations.lean ====
section
/-!
DEFINITION. The statements for the provers. Each docstring names the rule of `spec/` it formalises. `exec i s` answering
`.next (s.deliver r)` says that the instruction hands back the result `r` and changes nothing else of the state.
-/

open Sys2Proof Sys2Proof.Machine

/-! ### The checksum unit (`40_crc32.md`) -/

/-- R102, R103, R104: CRC_INIT is all ones; in CRC_STEP the byte enters by exclusive-or, then eight times the low bit
decides whether the polynomial is applied after the shift; CRC_FINAL complements; their selectors; and the sample values of
the rules, with the nine register values of R103's worked example. -/
def Obligations.CrcRegisterOperations : Prop :=
  (∀ s : State, exec .crcInit s = .next (s.deliver (.ok (.u32 0xFFFFFFFF#32))))
    ∧ (∀ (s : State) (acc : U32) (byte : Byte), exec (.crcStep acc byte) s = .next (s.deliver (.ok (.u32
      (Nat.iterate (fun a : U32 => if a.getLsbD 0 then (a >>> 1) ^^^ 0xEDB88320#32 else a >>> 1) 8
        (acc ^^^ byte.zeroExtend 32))))))
    ∧ (∀ (s : State) (acc : U32), exec (.crcFinal acc) s = .next (s.deliver (.ok (.u32 (acc ^^^ 0xFFFFFFFF#32)))))
    ∧ (∀ (acc : U32) (byte : Byte), encode .crcInit = ⟨.operation, [0x02#8], []⟩
      ∧ encode (.crcStep acc byte) = ⟨.operation, [0x03#8], [.u32 acc, .u8 byte]⟩
      ∧ encode (.crcFinal acc) = ⟨.operation, [0x04#8], [.u32 acc]⟩)
    ∧ crcStep 0#32 0x00#8 = 0#32 ∧ crcStep 0#32 0x01#8 = 0x77073096#32 ∧ crcStep 0#32 0x80#8 = 0xEDB88320#32
    ∧ crcStep 0xFFFFFFFF#32 0x00#8 = 0x2DFD1072#32 ∧ crcStep 0x12345678#32 0xFF#8 = 0x73CE22D5#32
    ∧ crcStep 0xFFFFFFFF#32 0x61#8 = 0x174841BC#32
    ∧ (List.range 9).map (fun n => crcShifts n (0xFFFFFFFF#32 ^^^ 0x61#32))
      = [0xFFFFFF9E#32, 0x7FFFFFCF#32, 0xD2477CC7#32, 0x849B3D43#32, 0xAFF51D81#32, 0xBA420DE0#32, 0x5D2106F0#32,
        0x2E908378#32, 0x174841BC#32]
    ∧ crcFinal 0xFFFFFFFF#32 = 0#32 ∧ crcFinal 0x174841BC#32 = 0xE8B7BE43#32

/-- R105: CRC_INIT, CRC_STEP for each byte in offset order, CRC_FINAL; its selector; and the sample values of the rule, with
the register after each byte of its example. -/
def Obligations.Crc32StepsEveryByteInOrder : Prop :=
  (∀ (s : State) (m : Bytes),
    exec (.crc32 m) s = .next (s.deliver (.ok (.u32 (crcFinal (m.foldl crcStep crcInit))))))
    ∧ (∀ m : Bytes, encode (.crc32 m) = ⟨.operation, [0x01#8], [.bytes m]⟩)
    ∧ crc32 [] = 0#32 ∧ crc32 [0x00#8] = 0xD202EF8D#32 ∧ crc32 [0xFF#8] = 0xFF000000#32
    ∧ crc32 [0#8, 0#8, 0#8, 0#8] = 0x2144DF1C#32 ∧ crc32 [0xFF#8, 0xFF#8, 0xFF#8, 0xFF#8] = 0xFFFFFFFF#32
    ∧ crc32 [0x31#8, 0x32#8, 0x33#8, 0x34#8, 0x35#8, 0x36#8, 0x37#8, 0x38#8, 0x39#8] = 0xCBF43926#32
    ∧ (List.range 9).map (fun n => absorb crcInit
        ([0x31#8, 0x32#8, 0x33#8, 0x34#8, 0x35#8, 0x36#8, 0x37#8, 0x38#8, 0x39#8].take (n + 1)))
      = [0x7C231048#32, 0xB0ACBB32#32, 0x77B79C2D#32, 0x641C1F5C#32, 0x340AC5E3#32, 0xF68D2C9E#32, 0xAFFC9660#32,
        0x651F2550#32, 0x340BC6D9#32]

/-- R106: the 256 entries of the table are the spec's, entry i is CRC_STEP(0, i), and the table form is CRC_STEP. -/
def Obligations.CrcTableFormIsCrcStep : Prop :=
  crcTable.length = 256 ∧ (∀ i : Byte, crcTable.getD i.toNat 0#32 = crcStep 0#32 i)
    ∧ ∀ (acc : U32) (byte : Byte), crcStepByTable acc byte = crcStep acc byte

/-- R107: the most-significant-bit-first form computes the same function. -/
def Obligations.CrcMsbFirstFormIsCrc32 : Prop := ∀ m : Bytes, crc32Msb m = crc32 m

/-- R108 clauses 2 and 3: the register is accumulated part by part, and CRC32 is affine. -/
def Obligations.CrcIsIncrementalAndAffine : Prop :=
  (∀ (acc : U32) (a b : Bytes), absorb acc (a ++ b) = absorb (absorb acc a) b)
    ∧ (∀ x y z : Bytes, x.length = y.length → y.length = z.length →
        crc32 x ^^^ crc32 y ^^^ crc32 z = crc32 (xorBytes (xorBytes x y) z))
    ∧ ∀ x y : Bytes, x.length = y.length →
        crc32 x ^^^ crc32 y = crc32 (xorBytes x y) ^^^ crc32 (List.replicate x.length 0#8)

/-- R108 clause 5: a message followed by its own CRC32 leaves the residue. -/
def Obligations.CrcResidueIsConstant : Prop :=
  ∀ m : Bytes, absorb crcInit (m ++ le4 (crc32 m)) = 0xDEBB20E3#32 ∧ crc32 (m ++ le4 (crc32 m)) = 0x2144DF1C#32

/-- R108 clause 4, first sentence: a change of exactly one bit changes the CRC32. -/
def Obligations.CrcDetectsSingleBitChanges : Prop :=
  ∀ (x : Bytes) (i k : Nat), i < x.length → k < 8 → crc32 (flipBit x i k) ≠ crc32 x

/-- R108 clause 4, second sentence: two sequences of one length that differ, and only within 32 bits in a row, have
different CRC32s. -/
def Obligations.CrcDetectsBurstsOfThirtyTwoBits : Prop :=
  ∀ (x y : Bytes) (o : Nat), x.length = y.length → x ≠ y → AgreeOutside x y o 32 → crc32 x ≠ crc32 y

/-! ### The integer field codec (`41_le_integer.md`) -/

/-- R121 to R124: the bytes of the value, least significant first; and the selectors. -/
def Obligations.LePutWritesLowByteFirst : Prop :=
  (∀ (s : State) (v : Byte), exec (.lePut1 v) s = .next (s.deliver (.ok (.bytes [v]))))
    ∧ (∀ (s : State) (v : U16), exec (.lePut2 v) s = .next (s.deliver (.ok (.bytes (le2 v)))))
    ∧ (∀ (s : State) (v : U32), exec (.lePut4 v) s = .next (s.deliver (.ok (.bytes (le4 v)))))
    ∧ (∀ (s : State) (v : U64), exec (.lePut8 v) s = .next (s.deliver (.ok (.bytes (le8 v)))))
    ∧ (∀ v : Byte, encode (.lePut1 v) = ⟨.operation, [0x10#8], [.u8 v]⟩)
    ∧ (∀ v : U16, encode (.lePut2 v) = ⟨.operation, [0x11#8], [.u16 v]⟩)
    ∧ (∀ v : U32, encode (.lePut4 v) = ⟨.operation, [0x12#8], [.u32 v]⟩)
    ∧ ∀ v : U64, encode (.lePut8 v) = ⟨.operation, [0x13#8], [.u64 v]⟩

/-- R125, R126, R127, R129: the bytes at the cursor, the first the least significant, and the cursor past them;
TruncatedInput when fewer bytes remain than the width. -/
def Obligations.LeGetAssemblesLowByteFirst : Prop :=
  (∀ (s : State) (pre post : Bytes) (x0 : Byte), exec (.leGet1 (pre ++ [x0] ++ post) pre.length) s
      = .next (s.deliver (.ok (.got1 x0 (pre.length + 1)))))
    ∧ (∀ (s : State) (pre post : Bytes) (x0 x1 : Byte), exec (.leGet2 (pre ++ [x0, x1] ++ post) pre.length) s
      = .next (s.deliver (.ok (.got2 (x1 ++ x0) (pre.length + 2)))))
    ∧ (∀ (s : State) (pre post : Bytes) (x0 x1 x2 x3 : Byte),
      exec (.leGet4 (pre ++ [x0, x1, x2, x3] ++ post) pre.length) s
        = .next (s.deliver (.ok (.got4 (x3 ++ x2 ++ x1 ++ x0) (pre.length + 4)))))
    ∧ (∀ (s : State) (pre post : Bytes) (x0 x1 x2 x3 x4 x5 x6 x7 : Byte),
      exec (.leGet8 (pre ++ [x0, x1, x2, x3, x4, x5, x6, x7] ++ post) pre.length) s
        = .next (s.deliver (.ok (.got8 (x7 ++ x6 ++ x5 ++ x4 ++ x3 ++ x2 ++ x1 ++ x0) (pre.length + 8)))))
    ∧ ∀ (s : State) (b : Bytes) (pos : Nat), pos ≤ b.length →
      (b.length - pos < 1 → exec (.leGet1 b pos) s = .next (s.deliver (.error .truncatedInput)))
        ∧ (b.length - pos < 2 → exec (.leGet2 b pos) s = .next (s.deliver (.error .truncatedInput)))
        ∧ (b.length - pos < 4 → exec (.leGet4 b pos) s = .next (s.deliver (.error .truncatedInput)))
        ∧ (b.length - pos < 8 → exec (.leGet8 b pos) s = .next (s.deliver (.error .truncatedInput)))

/-- R130, its five clauses at each width. -/
def Obligations.LeCodecLaws : Prop :=
  LeLaws 1 lePut1 leGet1 ∧ LeLaws 2 lePut2 leGet2 ∧ LeLaws 4 lePut4 leGet4 ∧ LeLaws 8 lePut8 leGet8

/-! ### The header marshaller (`42_header.md`) -/

/-- R141, R145 with the layouts R61, R64: each field's bytes at its place, 24 and 5 bytes. -/
def Obligations.HeaderAndTagAreLaidOut : Prop :=
  (∀ (s : State) (version msgType : Byte) (flags : U16) (streamId : U32) (frameSeq numSlices : U64),
    exec (.hdrEnc version msgType flags streamId frameSeq numSlices) s = .next (s.deliver (.ok (.bytes
      ([version, msgType] ++ le2 flags ++ le4 streamId ++ le8 frameSeq ++ le8 numSlices)))))
    ∧ ∀ (s : State) (spaceHash32 : U32) (modality : Byte),
      exec (.tagEnc spaceHash32 modality) s = .next (s.deliver (.ok (.bytes (le4 spaceHash32 ++ [modality]))))

/-- R142, R146: HDR_DEC reads the six fields and TAG_DEC the two, and each raises TruncatedInput when fewer than its 24
or 5 bytes remain. -/
def Obligations.HeaderAndTagAreRead : Prop :=
  (∀ (s : State) (pre post : Bytes) (h : Header), exec (.hdrDec (pre ++ wireHeader h ++ post) pre.length) s
      = .next (s.deliver (.ok (.header h (pre.length + 24)))))
    ∧ (∀ (s : State) (b : Bytes) (pos : Nat), pos ≤ b.length → b.length - pos < 24 →
      exec (.hdrDec b pos) s = .next (s.deliver (.error .truncatedInput)))
    ∧ (∀ (s : State) (pre post : Bytes) (spaceHash32 : U32) (modality : Byte),
      exec (.tagDec (pre ++ wireTag spaceHash32 modality ++ post) pre.length) s
        = .next (s.deliver (.ok (.tag spaceHash32 modality (pre.length + 5)))))
    ∧ ∀ (s : State) (b : Bytes) (pos : Nat), pos ≤ b.length → b.length - pos < 5 →
      exec (.tagDec b pos) s = .next (s.deliver (.error .truncatedInput))

/-- R144: the laws of the header. -/
def Obligations.HeaderLaws : Prop :=
  (∀ h : Header, (hdrEncode h).length = Config.headerBytes)
    ∧ (∀ (h : Header) (pre post : Bytes),
      hdrDecode (pre ++ hdrEncode h ++ post) pre.length = .ok (h, pre.length + Config.headerBytes))
    ∧ ∀ (b : Bytes) (pos : Nat) (h : Header) (q : Nat), hdrDecode b pos = .ok (h, q) →
      q = pos + 24 ∧ hdrEncode h = subBytes b pos 24

/-! ### The slice-length table codec (`43_slice_table.md`) -/

/-- R165, R166: TBL_DEC reads `n` entries; it raises TruncatedInput exactly when `4 * n` is more than what remains, in
exact arithmetic, for every 64-bit `n`. -/
def Obligations.TblDecReadsEveryEntryOrRaises : Prop :=
  (∀ (s : State) (pre post : Bytes) (n : U64) (tbl : List U32), tbl.length = n.toNat →
    exec (.tblDec (pre ++ tbl.flatMap le4 ++ post) pre.length n) s
      = .next (s.deliver (.ok (.table tbl (pre.length + 4 * n.toNat)))))
    ∧ ∀ (s : State) (b : Bytes) (pos : Nat) (n : U64), pos ≤ b.length → 4 * n.toNat > b.length - pos →
      exec (.tblDec b pos n) s = .next (s.deliver (.error .truncatedInput))

/-- R164, R167: TBL_ENC, selector 0x30, writes four bytes an entry, in order, and the laws of the table. -/
def Obligations.TableLaws : Prop :=
  (∀ (s : State) (lens : List U32), exec (.tblEnc lens) s = .next (s.deliver (.ok (.bytes (lens.flatMap le4)))))
    ∧ (∀ lens : List U32, encode (.tblEnc lens) = ⟨.operation, [0x30#8], [.u32s lens]⟩)
    ∧ (∀ lens : List U32, (tblEncode lens).length = 4 * lens.length)
    ∧ (∀ (lens : List U32) (pre post : Bytes), lens.length < 2 ^ 64 →
      tblDecode (pre ++ tblEncode lens ++ post) pre.length (BitVec.ofNat 64 lens.length)
        = .ok (lens, pre.length + 4 * lens.length))
    ∧ ∀ (b : Bytes) (pos : Nat) (n : U64) (tbl : List U32) (q : Nat), tblDecode b pos n = .ok (tbl, q) →
      tbl.length = n.toNat ∧ q = pos + 4 * n.toNat ∧ tblEncode tbl = subBytes b pos (q - pos)

/-! ### The payload length calculator (`44_payload_length.md`) -/

/-- R177: the element size of each dtype byte, Q4 by `Q4_POLICY`. -/
def Obligations.ElemSizeFollowsTheDtypeTable : Prop :=
  ∀ s : State,
    exec (.elemSize 0x01#8) s = .next (s.deliver (.ok (.elemSize 2 1)))
      ∧ exec (.elemSize 0x02#8) s = .next (s.deliver (.ok (.elemSize 1 1)))
      ∧ (s.cfg.q4Policy = .packedNibble → exec (.elemSize 0x03#8) s = .next (s.deliver (.ok (.elemSize 1 2))))
      ∧ (s.cfg.q4Policy = .reject → exec (.elemSize 0x03#8) s = .next (s.deliver (.error .unsupportedDtype)))
      ∧ ∀ d : Byte, d ≠ 0x01#8 → d ≠ 0x02#8 → d ≠ 0x03#8 →
        exec (.elemSize d) s = .next (s.deliver (.error .unsupportedDtype))

/-- R180, R182, R183: PLEN is the exact product, doubled for F16, as it is for I8, halved and rounded up for Q4 under
packed_nibble; every other dtype raises UnsupportedDtype. -/
def Obligations.PlenIsExact : Prop :=
  ∀ (s : State) (shape : List U32), shape.length ≤ 255 →
    exec (.plen 0x01#8 shape) s = .next (s.deliver (.ok (.length (2 * (shape.map BitVec.toNat).prod))))
      ∧ exec (.plen 0x02#8 shape) s = .next (s.deliver (.ok (.length (shape.map BitVec.toNat).prod)))
      ∧ (s.cfg.q4Policy = .packedNibble →
        exec (.plen 0x03#8 shape) s = .next (s.deliver (.ok (.length (((shape.map BitVec.toNat).prod + 1) / 2)))))
      ∧ (s.cfg.q4Policy = .reject → exec (.plen 0x03#8 shape) s = .next (s.deliver (.error .unsupportedDtype)))
      ∧ ∀ d : Byte, d ≠ 0x01#8 → d ≠ 0x02#8 → d ≠ 0x03#8 →
        exec (.plen d shape) s = .next (s.deliver (.error .unsupportedDtype))

/-- R179, R180 (corner cases): a zero dimension makes the payload empty, and the order of the dimensions does not
matter. -/
def Obligations.PlenIgnoresOrderAndVanishesAtZero : Prop :=
  ∀ (cfg : Config) (dtype : Byte) (shape : List U32), supported cfg dtype = true →
    (0#32 ∈ shape → payloadLength cfg dtype shape = .ok 0)
      ∧ ∀ shape' : List U32, shape.Perm shape' → payloadLength cfg dtype shape' = payloadLength cfg dtype shape

/-! ### The slice codec (`45_slice.md`) -/

/-- R196: dtype, the number of dimensions, the dimensions, the payload. A payload of 4 GiB or more is refused (U1):
`Obligations.EncodersRefuseIllFormedOperands`. -/
def Obligations.SliceEncIsLaidOut : Prop :=
  ∀ (s : State) (d : SliceDescriptor), SliceReady s.cfg d →
    exec (.sliceEnc d) s = .next (s.deliver (.ok (.bytes (wireSlice d))))
      ∧ (wireSlice d).length = 2 + 4 * d.shape.length + d.payload.length

/-- R197, R216 (the model's refusal, `93_implementation_defined.md` U1): outside its precondition an encoder gives no
meaning. For SLICE_ENC that covers every slice whose payload has 4 GiB or more. -/
def Obligations.EncodersRefuseIllFormedOperands : Prop :=
  (∀ (s : State) (d : SliceDescriptor), ¬ SliceReady s.cfg d → exec (.sliceEnc d) s = .refused .illFormedSlice)
    ∧ (∀ (s : State) (f : Frame), ¬ WF s.cfg f → exec (.frameEnc f) s = .refused .illFormedFrame)
    ∧ ∀ (s : State) (f : Frame), s.job = none → ¬ WF s.cfg f →
      exec (.fmtHeader (.encode f)) s = .refused .illFormedFrame

/-- R204, its bound on the payload being part of `SliceReady`: SLICE_DEC inverts SLICE_ENC, SLICE_ENC inverts SLICE_DEC,
and a cut slice raises TruncatedInput. -/
def Obligations.SliceCodecLaws : Prop :=
  (∀ (s : State) (d : SliceDescriptor) (pre post : Bytes), SliceReady s.cfg d →
    exec (.sliceDec (pre ++ sliceEncode d ++ post) pre.length (BitVec.ofNat 32 d.payload.length)) s
      = .next (s.deliver (.ok (.slice d (pre.length + (sliceEncode d).length)))))
    ∧ (∀ (cfg : Config) (b : Bytes) (pos : Nat) (entry : U32) (d : SliceDescriptor) (q : Nat),
      sliceDecode cfg b pos entry = .ok (d, q) →
        SliceReady cfg d ∧ d.payload.length = entry.toNat ∧ sliceEncode d = subBytes b pos (q - pos))
    ∧ ∀ (cfg : Config) (d : SliceDescriptor) (pre : Bytes) (k : Nat), SliceReady cfg d →
      k < (sliceEncode d).length →
        sliceDecode cfg (pre ++ (sliceEncode d).take k) pre.length (BitVec.ofNat 32 d.payload.length)
          = .error .truncatedInput

/-- R201: cut metadata first, then the dtype, then the cross-check, then the payload's bounds. -/
def Obligations.SliceDecChecksInOrder : Prop :=
  (∀ (s : State) (b : Bytes) (pos : Nat) (entry : U32), pos ≤ b.length → b.length - pos < 2 →
    exec (.sliceDec b pos entry) s = .next (s.deliver (.error .truncatedInput)))
    ∧ (∀ (s : State) (pre rest : Bytes) (dtype k : Byte) (entry : U32), rest.length < 4 * k.toNat →
      exec (.sliceDec (pre ++ [dtype, k] ++ rest) pre.length entry) s
        = .next (s.deliver (.error .truncatedInput)))
    ∧ ∀ (s : State) (pre rest : Bytes) (dtype k : Byte) (shape : List U32) (entry : U32),
      shape.length = k.toNat →
        (∀ e, payloadLength s.cfg dtype shape = .error e →
          exec (.sliceDec (pre ++ [dtype, k] ++ shape.flatMap le4 ++ rest) pre.length entry) s
            = .next (s.deliver (.error .unsupportedDtype)))
          ∧ (∀ size, payloadLength s.cfg dtype shape = .ok size → size ≠ entry.toNat →
            exec (.sliceDec (pre ++ [dtype, k] ++ shape.flatMap le4 ++ rest) pre.length entry) s
              = .next (s.deliver (.error .sizeMismatch)))
          ∧ (∀ size, payloadLength s.cfg dtype shape = .ok size → size = entry.toNat → rest.length < size →
            exec (.sliceDec (pre ++ [dtype, k] ++ shape.flatMap le4 ++ rest) pre.length entry) s
              = .next (s.deliver (.error .truncatedInput)))

/-! ### The frame codec (`46_frame_integrity.md`) -/

/-- R217: the whole frame of a well-formed Frame, in the order of R60, with the CRC32 of all before it as trailer. -/
def Obligations.FrameEncIsLaidOut : Prop :=
  ∀ (s : State) (f : Frame), WF s.cfg f →
    exec (.frameEnc f) s = .next (s.deliver (.ok (.bytes (wireBody f ++ le4 (crc32 (wireBody f))))))

/-- R67: the length of a frame. -/
def Obligations.FrameLengthFormula : Prop :=
  ∀ (cfg : Config) (f : Frame),
    (frameEncode cfg f).length = 33 + 6 * f.slices.length + (f.slices.map sliceBytes).sum

/-- R220: the four outcomes of VERIFY. -/
def Obligations.VerifyOutcomes : Prop :=
  (∀ (s : State) (b : Bytes) (p : Nat), p ≤ b.length → b.length - p < 4 →
    exec (.verify b p) s = .next (s.deliver (.error .truncatedInput)))
    ∧ ∀ (s : State) (covered post : Bytes) (stored : U32),
      (post ≠ [] ∨ crc32 covered ≠ stored →
        exec (.verify (covered ++ le4 stored ++ post) covered.length) s
          = .next (s.deliver (.error .integrityError)))
        ∧ (post = [] ∧ crc32 covered = stored →
          exec (.verify (covered ++ le4 stored ++ post) covered.length) s
            = .next (s.deliver (.ok (.u32 stored))))

/-- R281: whatever the bytes, of any length, FRAME_DEC hands back a Frame or one of the errors of codes 1 to 4; and a
buffer longer than `MAX_BUFFER_LEN`, which the decoder does not accept (R10), gets an error, whichever of the four the free
value of log entry 10 is. -/
def Obligations.FrameDecIsTotal : Prop :=
  (∀ (s : State) (b : Bytes), ∃ r, exec (.frameDec b) s = .next (s.deliver r)
      ∧ ((∃ f crc, r = .ok (.frame f crc)) ∨ ∃ e, r = .error e ∧ 1 ≤ e.code ∧ e.code ≤ 4))
    ∧ ∀ (s : State) (b : Bytes) (m : Nat), s.cfg.maxBufferLen = some m → m < b.length →
      ∃ e, exec (.frameDec b) s = .next (s.deliver (.error e)) ∧ 1 ≤ e.code ∧ e.code ≤ 4

/-- R229 clause 1: decoding an encoded Frame gives it back, with the checksum of all but the trailer. -/
def Obligations.FrameDecInvertsFrameEnc : Prop :=
  ∀ (s : State) (f : Frame), WF s.cfg f → bufferAccepted s.cfg (frameEncode s.cfg f) = true →
    exec (.frameDec (frameEncode s.cfg f)) s
      = .next (s.deliver (.ok (.frame f
          (crc32 ((frameEncode s.cfg f).take ((frameEncode s.cfg f).length - 4))))))

/-- R229 clause 2 and R231: a decoded Frame is well-formed and encodes to the bytes it was decoded from. -/
def Obligations.FrameEncInvertsFrameDec : Prop :=
  ∀ (s : State) (b : Bytes) (f : Frame) (crc : U32),
    exec (.frameDec b) s = .next (s.deliver (.ok (.frame f crc))) →
      WF s.cfg f ∧ exec (.frameEnc f) s = .next (s.deliver (.ok (.bytes b)))

/-- R230, for prefixes within `MAX_BUFFER_LEN` (R10, log entry 10): every proper prefix of an encoded Frame raises
TruncatedInput. -/
def Obligations.TruncatedFramesRaiseTruncatedInput : Prop :=
  ∀ (s : State) (f : Frame) (j : Nat), WF s.cfg f → j < (frameEncode s.cfg f).length →
    bufferAccepted s.cfg ((frameEncode s.cfg f).take j) = true →
      exec (.frameDec ((frameEncode s.cfg f).take j)) s = .next (s.deliver (.error .truncatedInput))

/-- R233 clause 1: changing any one bit of an encoded Frame makes FRAME_DEC fail. -/
def Obligations.SingleBitChangesAreDetected : Prop :=
  ∀ (s : State) (f : Frame) (i k : Nat), WF s.cfg f → i < (frameEncode s.cfg f).length → k < 8 →
    ∃ e, exec (.frameDec (flipBit (frameEncode s.cfg f) i k)) s = .next (s.deliver (.error e))

/-- R233 clause 2: the error is IntegrityError when the bit is in `version` to `frame_seq`, in the tag group, in a
payload byte or in the trailer. -/
def Obligations.SingleBitChangesOfCarriedBytesRaiseIntegrityError : Prop :=
  ∀ (s : State) (f : Frame) (i k : Nat), WF s.cfg f → i < (frameEncode s.cfg f).length → k < 8 →
    bufferAccepted s.cfg (flipBit (frameEncode s.cfg f) i k) = true →
      (i < 16
        ∨ (24 + 4 * f.slices.length ≤ i ∧ i < 29 + 4 * f.slices.length)
        ∨ (∃ before d after, f.slices = before ++ [d] ++ after
            ∧ 29 + 4 * f.slices.length + (before.flatMap wireSlice).length + 2 + 4 * d.shape.length ≤ i
            ∧ i < 29 + 4 * f.slices.length + (before.flatMap wireSlice).length + (wireSlice d).length)
        ∨ (frameEncode s.cfg f).length - 4 ≤ i) →
      exec (.frameDec (flipBit (frameEncode s.cfg f) i k)) s = .next (s.deliver (.error .integrityError))

/-- R72, R71, R73: a value of `flags`, `msg_type` or `modality` changes its own bytes of what FRAME_ENC writes before
the trailer, and nothing else. -/
def Obligations.CarriedFieldsChangeOnlyTheirBytes : Prop :=
  ∀ (cfg : Config) (f : Frame),
    (∀ v : U16, frameBody cfg { f with flags := v }
        = (frameBody cfg f).take 2 ++ le2 v ++ (frameBody cfg f).drop 4)
      ∧ (∀ v : Byte, frameBody cfg { f with msgType := v }
        = (frameBody cfg f).take 1 ++ [v] ++ (frameBody cfg f).drop 2)
      ∧ ∀ v : Byte, frameBody cfg { f with modality := v }
        = (frameBody cfg f).take (28 + 4 * f.slices.length) ++ [v]
          ++ (frameBody cfg f).drop (29 + 4 * f.slices.length)

/-- R233's ground in R226: a buffer that walks as a frame and whose trailer is wrong, or is not at its end, raises
IntegrityError and no other error. -/
def Obligations.WrongTrailersRaiseIntegrityError : Prop :=
  ∀ (s : State) (f : Frame) (stored : U32) (post : Bytes), WF s.cfg f →
    bufferAccepted s.cfg (wireBody f ++ le4 stored ++ post) = true →
      post ≠ [] ∨ crc32 (wireBody f) ≠ stored →
        exec (.frameDec (wireBody f ++ le4 stored ++ post)) s = .next (s.deliver (.error .integrityError))

/-! ### The dispatcher (`47_dispatch_consumer.md`) -/

/-- R246, R248, R250: the outcomes of DISPATCH, by message type, with the slice counts of R248. No shape is checked (R251):
`f` is any Frame, with shapes of any length. -/
def Obligations.DispatchFollowsTheMessageType : Prop :=
  ∀ (s : State) (f : Frame),
    (5 ≤ f.msgType.toNat → exec (.dispatch f) s = .next (s.deliver (.ok (.message (.unknown f)))))
      ∧ (f.msgType.toNat < 5 → (∃ d ∈ f.slices, supported s.cfg d.dtype = false) →
        exec (.dispatch f) s = .next (s.deliver (.error .unsupportedDtype)))
      ∧ ((∀ d ∈ f.slices, supported s.cfg d.dtype = true) →
        (f.msgType = 3#8 → f.slices.length ≠ 1 →
            exec (.dispatch f) s = .next (s.deliver (.error .decodeIncomplete)))
          ∧ (f.msgType = 0#8 → f.slices = [] → exec (.dispatch f) s = .next (s.deliver (.error .decodeIncomplete)))
          ∧ (f.msgType = 0#8 → f.slices ≠ [] → exec (.dispatch f) s = .next (s.deliver (.ok (.message
            (.tensors (f.slices.map fun d => (d.dtype, d.shape, d.payload)))))))
          ∧ (f.msgType = 4#8 → f.slices.length < 2 →
            exec (.dispatch f) s = .next (s.deliver (.error .decodeIncomplete)))
          ∧ (f.msgType = 1#8 → exec (.dispatch f) s = .next (s.deliver (.ok (.message (.cachePassThrough f.slices)))))
          ∧ (f.msgType = 2#8 → exec (.dispatch f) s = .next (s.deliver (.ok (.message (.askPassThrough f.slices))))))

/-- R246, R249: a Sync frame's one slice, and a Critique frame's second, must be a JSON object: the handshake or the
pair is handed back with it, and MalformedPayload where there is none; there is none where the bytes are not UTF-8. The
statement holds whatever the external parser is. -/
def Obligations.DispatchNeedsJsonObjects : Prop :=
  (∀ (s : State) (f : Frame) (d : SliceDescriptor), f.msgType = 3#8 → f.slices = [d] →
    supported s.cfg d.dtype = true →
      exec (.dispatch f) s = .next (s.deliver (match jsonObject d.payload with
        | some o => .ok (.message (.handshake o))
        | none => .error .malformedPayload)))
    ∧ (∀ (s : State) (f : Frame) (d e : SliceDescriptor) (rest : List SliceDescriptor), f.msgType = 4#8 →
      f.slices = d :: e :: rest → (∀ x ∈ f.slices, supported s.cfg x.dtype = true) →
        exec (.dispatch f) s = .next (s.deliver (match jsonObject e.payload with
          | some o => .ok (.message (.critiquePair d o))
          | none => .error .malformedPayload)))
    ∧ ∀ b : Bytes, utf8Valid b = false → jsonObject b = none

/-! ### The selector fields (`30_encoding.md` R71 to R74) -/

/-- R74, R177: the five dtype rows. -/
def Obligations.DtypeRowsGiveElementSizes : Prop :=
  ∀ s : State,
    exec .dtypeF16 s = .next (s.deliver (.ok (.elemSize 2 1)))
      ∧ exec .dtypeI8 s = .next (s.deliver (.ok (.elemSize 1 1)))
      ∧ (s.cfg.q4Policy = .packedNibble → exec .dtypeQ4 s = .next (s.deliver (.ok (.elemSize 1 2))))
      ∧ (s.cfg.q4Policy = .reject → exec .dtypeQ4 s = .next (s.deliver (.error .unsupportedDtype)))
      ∧ exec .dtypeSparseCoo s = .next (s.deliver (.error .unsupportedDtype))
      ∧ ∀ d : Byte, dtypeUnnamed d = true →
        exec (.dtypeUnrecognised d) s = .next (s.deliver (.error .unsupportedDtype))

/-- R71, R73: the six `msg_type` rows and the six `modality` rows: the byte as it is, and the name it has; never an
error. -/
def Obligations.EnumerationRowsAreCarried : Prop :=
  ∀ s : State,
    exec .msgThink s = .next (s.deliver (.ok (.msgType [0#8] .think)))
      ∧ exec .msgCache s = .next (s.deliver (.ok (.msgType [1#8] .cache)))
      ∧ exec .msgAsk s = .next (s.deliver (.ok (.msgType [2#8] .ask)))
      ∧ exec .msgSync s = .next (s.deliver (.ok (.msgType [3#8] .sync)))
      ∧ exec .msgCritique s = .next (s.deliver (.ok (.msgType [4#8] .critique)))
      ∧ (∀ v : Byte, 5 ≤ v.toNat → exec (.msgUnknown v) s = .next (s.deliver (.ok (.msgType [v] .unnamed))))
      ∧ exec .modText s = .next (s.deliver (.ok (.modality [0#8] .text)))
      ∧ exec .modImage s = .next (s.deliver (.ok (.modality [1#8] .image)))
      ∧ exec .modAudio s = .next (s.deliver (.ok (.modality [2#8] .audio)))
      ∧ exec .modGraph s = .next (s.deliver (.ok (.modality [3#8] .graph)))
      ∧ exec .modMixed s = .next (s.deliver (.ok (.modality [4#8] .mixed)))
      ∧ ∀ v : Byte, 5 ≤ v.toNat → exec (.modUnknown v) s = .next (s.deliver (.ok (.modality [v] .unnamed)))

/-- R72: the four `flags` rows: the two bytes as they are, every bit where R72 puts it. -/
def Obligations.FlagRowsAreCarried : Prop :=
  (∀ (s : State) (hi : BitVec 15), exec (.flagCompressed hi) s = .next (s.deliver (.ok (.flags
      (le2 (hi ++ 1#1)) ⟨true, hi.getLsbD 0, hi.getLsbD 1, hi.extractLsb' 2 13⟩))))
    ∧ (∀ (s : State) (hi : BitVec 14) (lo : BitVec 1), exec (.flagEncrypted hi lo) s = .next (s.deliver (.ok (.flags
      (le2 (hi ++ 1#1 ++ lo)) ⟨lo.getLsbD 0, true, hi.getLsbD 0, hi.extractLsb' 1 13⟩))))
    ∧ (∀ (s : State) (hi : BitVec 13) (lo : BitVec 2), exec (.flagStrongTail hi lo) s = .next (s.deliver (.ok (.flags
      (le2 (hi ++ 1#1 ++ lo)) ⟨lo.getLsbD 0, lo.getLsbD 1, true, hi⟩))))
    ∧ ∀ (s : State) (r : BitVec 13) (lo : BitVec 3), exec (.flagReserved r lo) s = .next (s.deliver (.ok (.flags
      (le2 (r ++ lo)) ⟨lo.getLsbD 0, lo.getLsbD 1, lo.getLsbD 2, r⟩)))

/-! ### The parts of a frame (`30_encoding.md` R60, R61, R63 to R66) -/

/-- R225, R235 (log entry 4: the parts of a frame as stages is the model's choice): what each part of a decoding leaves
in the working variables when its stage reads its field. -/
def Obligations.DecodingPartsReadTheirStage : Prop :=
  (∀ (s : State) (b : Bytes) (h : Header) (q : Nat), s.job = none → bufferAccepted s.cfg b = true →
    hdrDecode b 0 = .ok (h, q) →
      exec (.fmtHeader (.decode b)) s = .next (s.withJob (.decode
        ⟨b, q, absorb crcInit (b.take q), h, [], 0, 0, [], .table⟩)))
    ∧ (∀ (s : State) (j : DecodeJob) (tbl : List U32) (q : Nat), s.job = some (.decode j) → j.next = .table →
      tblDecode j.b j.pos j.header.numSlices = .ok (tbl, q) →
        exec .fmtTable s = .next (s.withJob (.decode
          ⟨j.b, q, absorb j.acc (subBytes j.b j.pos (q - j.pos)), j.header, tbl, j.spaceHash32, j.modality, j.slices,
            .tag⟩)))
    ∧ (∀ (s : State) (j : DecodeJob) (spaceHash32 : U32) (modality : Byte) (q : Nat), s.job = some (.decode j) →
      j.next = .tag → tagDecode j.b j.pos = .ok ((spaceHash32, modality), q) →
        exec .fmtTag s = .next (s.withJob (.decode
          ⟨j.b, q, absorb j.acc (subBytes j.b j.pos (q - j.pos)), j.header, j.tbl, spaceHash32, modality, j.slices,
            if j.tbl = [] then .trailer else .slice⟩)))
    ∧ (∀ (s : State) (j : DecodeJob) (entry : U32) (d : SliceDescriptor) (q : Nat), s.job = some (.decode j) →
      j.next = .slice → j.tbl[j.slices.length]? = some entry → sliceDecode s.cfg j.b j.pos entry = .ok (d, q) →
        exec .fmtSlice s = .next (s.withJob (.decode
          ⟨j.b, q, absorb j.acc (subBytes j.b j.pos (q - j.pos)), j.header, j.tbl, j.spaceHash32, j.modality,
            j.slices ++ [d], if j.slices.length + 1 < j.tbl.length then .slice else .trailer⟩)))
    ∧ ∀ (s : State) (j : DecodeJob) (q : Nat), s.job = some (.decode j) → j.next = .trailer →
      leGet4 j.b j.pos = .ok (crcFinal j.acc, q) → q = j.b.length →
        exec .fmtTrailer s = .next (s.endJob.deliver (.ok (.frame
          (frameOf j.header j.spaceHash32 j.modality j.slices) (crcFinal j.acc))))

/-- R280, R225 (log entry 4): when the stage of a part raises an error, the operation is over and the error is all that is
handed back; the trailer's stage raises TruncatedInput, then IntegrityError (R220). A buffer longer than `MAX_BUFFER_LEN`
gets one of the errors of codes 1 to 4 at its header (R281; which one is the free value of log entry 10). -/
def Obligations.PartErrorsEndTheOperation : Prop :=
  (∀ (s : State) (b : Bytes), s.job = none → bufferAccepted s.cfg b = true → b.length < 24 →
    exec (.fmtHeader (.decode b)) s = .next (s.deliver (.error .truncatedInput)))
    ∧ (∀ (s : State) (b : Bytes) (m : Nat), s.job = none → s.cfg.maxBufferLen = some m → m < b.length →
      ∃ e, exec (.fmtHeader (.decode b)) s = .next (s.deliver (.error e)) ∧ 1 ≤ e.code ∧ e.code ≤ 4)
    ∧ ∀ (s : State) (j : DecodeJob) (e : Error), s.job = some (.decode j) →
      (j.next = .table → tblDecode j.b j.pos j.header.numSlices = .error e →
        exec .fmtTable s = .next (s.endJob.deliver (.error e)))
        ∧ (j.next = .tag → tagDecode j.b j.pos = .error e → exec .fmtTag s = .next (s.endJob.deliver (.error e)))
        ∧ (∀ entry, j.next = .slice → j.tbl[j.slices.length]? = some entry →
          sliceDecode s.cfg j.b j.pos entry = .error e → exec .fmtSlice s = .next (s.endJob.deliver (.error e)))
        ∧ (j.next = .trailer → leGet4 j.b j.pos = .error e →
          exec .fmtTrailer s = .next (s.endJob.deliver (.error .truncatedInput)))
        ∧ ∀ stored q, j.next = .trailer → leGet4 j.b j.pos = .ok (stored, q) →
          q ≠ j.b.length ∨ stored ≠ crcFinal j.acc →
            exec .fmtTrailer s = .next (s.endJob.deliver (.error .integrityError))

/-- R217, R235 (log entry 4: the parts of a frame as stages is the model's choice): what each part of an encoding
appends, and the frame that the trailer hands back. -/
def Obligations.EncodingPartsAppendTheirBytes : Prop :=
  (∀ (s : State) (f : Frame), s.job = none → WF s.cfg f →
    exec (.fmtHeader (.encode f)) s = .next (s.withJob (.encode
      ⟨f, hdrEncode (frameHeader f), absorb crcInit (hdrEncode (frameHeader f)), f.slices, .table⟩)))
    ∧ (∀ (s : State) (j : EncodeJob), s.job = some (.encode j) → j.next = .table →
      exec .fmtTable s = .next (s.withJob (.encode
        ⟨j.frame, j.out ++ tblEncode (j.frame.slices.map (tableEntry s.cfg)),
          absorb j.acc (tblEncode (j.frame.slices.map (tableEntry s.cfg))), j.todo, .tag⟩)))
    ∧ (∀ (s : State) (j : EncodeJob), s.job = some (.encode j) → j.next = .tag →
      exec .fmtTag s = .next (s.withJob (.encode
        ⟨j.frame, j.out ++ tagEncode j.frame.spaceHash32 j.frame.modality,
          absorb j.acc (tagEncode j.frame.spaceHash32 j.frame.modality), j.todo,
          if j.todo = [] then .trailer else .slice⟩)))
    ∧ (∀ (s : State) (j : EncodeJob) (d : SliceDescriptor) (rest : List SliceDescriptor),
      s.job = some (.encode j) → j.next = .slice → j.todo = d :: rest →
        exec .fmtSlice s = .next (s.withJob (.encode
          ⟨j.frame, j.out ++ sliceEncode d, absorb j.acc (sliceEncode d), rest,
            if rest = [] then .trailer else .slice⟩)))
    ∧ ∀ (s : State) (j : EncodeJob), s.job = some (.encode j) → j.next = .trailer →
      exec .fmtTrailer s = .next (s.endJob.deliver (.ok (.bytes (j.out ++ le4 (crcFinal j.acc)))))

/-- R60 (log entry 4): a part that does not come next is refused, and a frame operation begins only when none is in
flight. -/
def Obligations.PartsOutOfOrderAreRefused : Prop :=
  (∀ (s : State) (job : WireJob), s.job ≠ none → exec (.fmtHeader job) s = .refused .jobInFlight)
    ∧ ∀ (s : State) (p : Part), (∀ j, s.job = some j → nextPart j ≠ p) →
      exec (partInstr p) s = .refused .partOutOfOrder

/-- R225, R235, R232: a decoding done part by part hands back exactly what FRAME_DEC hands back, within `L + 4` steps,
and leaves nothing in flight. -/
def Obligations.DecodingByPartsIsFrameDec : Prop :=
  ∀ (s : State) (b : Bytes) (k : Nat), s.requests = [] → s.job = none → b.length + 4 ≤ k →
      Host.Core.run Sys2Proof.core k (s.withRequests [encode (.fmtHeader (.decode b))]) = exec (.frameDec b) s

/-- R217, R235: an encoding done part by part hands back exactly what FRAME_ENC hands back, within four steps and one
for each slice, and leaves nothing in flight. -/
def Obligations.EncodingByPartsIsFrameEnc : Prop :=
  ∀ (s : State) (f : Frame) (k : Nat), s.requests = [] → s.job = none → WF s.cfg f →
    f.slices.length + 4 ≤ k →
      Host.Core.run Sys2Proof.core k (s.withRequests [encode (.fmtHeader (.encode f))]) = exec (.frameEnc f) s

/-- R53: a frame operation in flight always ends, with one result. -/
def Obligations.FrameOperationsInFlightEnd : Prop :=
  ∀ s : State, s.Inv → s.job ≠ none → s.requests = [] →
    ∃ k r, Host.Core.run Sys2Proof.core k s = .next (s.endJob.deliver r)

/-! ### The whole machine -/

/-- R20, R280: an atomic operation adds its one result and changes nothing else: not the configuration, not the
requests, not a frame operation in flight, no earlier result. -/
def Obligations.AtomicOperationsOnlyDeliver : Prop :=
  ∀ (i : Instr) (s t : State), atomic i = true → exec i s = .next t →
    ∃ r, t = s.deliver r

/-- R227, R280, R40, R41: the frame of a part of a frame operation. The configuration, the requests and every earlier
result are unchanged. Either nothing is handed back and the operation goes on, with its buffer or Frame unchanged, the
cursor no further back and `out` only longer; or it is over and one result is handed back. -/
def Obligations.PartsLeaveTheRestUnchanged : Prop :=
  ∀ (i : Instr) (s t : State), atomic i = false → exec i s = .next t →
    t.cfg = s.cfg ∧ t.requests = s.requests
      ∧ ((t.results = s.results ∧ t.job ≠ none) ∨ (∃ r, t.results = s.results ++ [r]) ∧ t.job = none)
      ∧ (∀ j, s.job = some (.decode j) → t.job ≠ none →
        ∃ j', t.job = some (.decode j') ∧ j'.b = j.b ∧ j'.header = j.header ∧ j.pos ≤ j'.pos
          ∧ j.slices <+: j'.slices)
      ∧ ∀ j, s.job = some (.encode j) → t.job ≠ none →
        ∃ j', t.job = some (.encode j') ∧ j'.frame = j.frame ∧ j.out <+: j'.out

/-- R10: no step changes the configuration. -/
def Obligations.ConfigurationNeverChanges : Prop :=
  ∀ s t : State, step s = .next t → t.cfg = s.cfg

/-- R270: an instruction raises only the errors of its row, and encoders and CRC operations raise none. -/
def Obligations.ErrorsAreThoseOfTheRow : Prop :=
  ∀ (i : Instr) (s t : State) (e : Error), exec i s = .next t → t.results = s.results ++ [.error e] →
    e ∈ mayRaise i

/-- R20, R282, R290: an atomic operation's result is a function of its operands and the configuration: in any two
states of one configuration it gives the same result, or is refused for the same reason. -/
def Obligations.ResultsDependOnOperandsAndConfigurationOnly : Prop :=
  ∀ (i : Instr) (s s' : State), atomic i = true → s.cfg = s'.cfg →
    (∃ r, exec i s = .next (s.deliver r) ∧ exec i s' = .next (s'.deliver r))
      ∨ ∃ why, exec i s = .refused why ∧ exec i s' = .refused why

/-- R50: operations issued one after the other give the results each gives alone, in the order issued. -/
def Obligations.QueuedOperationsGiveTheirOwnResults : Prop :=
  ∀ (s : State) (is : List Instr) (rs : List Result),
    List.Forall₂ (fun i r => atomic i = true ∧ i.wellFormed = true
      ∧ ∀ u : State, u.cfg = s.cfg → exec i u = .next (u.deliver r)) is rs →
      Host.Core.run Sys2Proof.core is.length (s.withRequests (is.map encode))
        = .next { s with requests := [], results := s.results ++ rs }

/-- R227, R228, R231: no instruction hands back a Frame but one that is well-formed and whose checksum has matched. -/
def Obligations.OnlyVerifiedFramesAreDelivered : Prop :=
  ∀ (i : Instr) (s t : State) (f : Frame) (crc : U32), s.Inv → exec i s = .next t →
    t.results = s.results ++ [.ok (.frame f crc)] → WF s.cfg f ∧ crc = crc32 (wireBody f)

/-- R25, R45, R235: every step keeps a frame operation in flight where the stages of FRAME_DEC or FRAME_ENC put it: the
cursor within the buffer, the accumulator that of the bytes passed, the fields those read. -/
def Obligations.StepsKeepTheInvariant : Prop :=
  ∀ s t : State, s.Inv → step s = .next t → t.Inv

/-- R300, R10: after reset nothing is in flight, so the invariant holds, and the configuration has the values R10 takes;
that nothing is handed over or back is the model's choice (log entry 2). -/
def Obligations.ResetMeetsTheInvariant : Prop :=
  State.reset.Inv ∧ State.reset.job = none ∧ State.reset.requests = [] ∧ State.reset.results = []
    ∧ State.reset.cfg.q4Policy = .reject ∧ State.reset.cfg.sparsePolicy = .reject
    ∧ State.reset.cfg.trailingBytes = .reject ∧ State.reset.cfg.maxBufferLen = none

/-! ### Steps, decoding and encoding -/

/-- R84, R305 (log entries 2, 4, 6: the request queue and the sequencing of parts are the model's choices): a step takes
the oldest request and runs the instruction it encodes; a request that encodes none is refused; with no request the next
part of a frame operation in flight runs; with neither nothing happens. -/
def Obligations.StepRunsTheDecodedInstruction : Prop :=
  (∀ (s : State) (r : Request) (rest : List Request) (i : Instr), s.requests = r :: rest → decode r = .ok i →
    step s = exec i (s.withRequests rest))
    ∧ (∀ (s : State) (r : Request) (rest : List Request) (e : DecodeError), s.requests = r :: rest →
      decode r = .error e → step s = .refused (.undecodable e))
    ∧ (∀ (s : State) (j : Job), s.requests = [] → s.job = some j → step s = exec (partInstr (nextPart j)) s)
    ∧ ∀ s : State, s.requests = [] → s.job = none → step s = .next s

/-- R80, R71 to R74: words of the spec's tables decode to their instructions. -/
def Obligations.TableWordsDecode : Prop :=
  decode ⟨.operation, [0x03#8], [.u32 0x12345678#32, .u8 0xFF#8]⟩ = .ok (.crcStep 0x12345678#32 0xFF#8)
    ∧ decode ⟨.operation, [0x1A#8], [.bytes [0x44#8, 0x33#8, 0x22#8, 0x11#8], .nat 0]⟩
      = .ok (.leGet4 [0x44#8, 0x33#8, 0x22#8, 0x11#8] 0)
    ∧ decode ⟨.operation, [0x22#8], [.u32 0xA1B2C3D4#32, .u8 0#8]⟩ = .ok (.tagEnc 0xA1B2C3D4#32 0#8)
    ∧ decode ⟨.operation, [0x05#8], []⟩ = .error .unknownSelector
    ∧ decode ⟨.dtype, [0x10#8], []⟩ = .ok .dtypeSparseCoo
    ∧ decode ⟨.msgType, [0x03#8], []⟩ = .ok .msgSync
    ∧ decode ⟨.modality, [0x03#8], []⟩ = .ok .modGraph
    ∧ decode ⟨.flagEncrypted, [0xFD#8, 0xFF#8], []⟩ = .error .patternMismatch
    ∧ decode ⟨.flagStrongTail, [0x05#8, 0x80#8], []⟩ = .ok (.flagStrongTail 0x1000#13 0b01#2)

/-- R80 and the opcode table: for every instruction that is a row of the table, decoding its encoding gives it back, at
every value of every operand. -/
def Obligations.DecodeInvertsEncode : Prop :=
  ∀ i : Instr, i.wellFormed = true → decode (encode i) = .ok i

/-- The other direction: what decodes is well-formed, and is encoded by that request and no other. -/
def Obligations.EncodeInvertsDecode : Prop :=
  ∀ (r : Request) (i : Instr), decode r = .ok i → i.wellFormed = true ∧ encode i = r

/-- R17, R125, R180 (the model's refusals, log entry 7): a cursor outside its buffer and a shape of more than 255 dimensions
given to PLEN have no meaning. -/
def Obligations.OperandsOutsideTheirDomainAreRefused : Prop :=
  (∀ (s : State) (b : Bytes) (pos : Nat) (n : U64) (entry : U32), b.length < pos →
    exec (.leGet1 b pos) s = .refused .cursorOutsideBuffer ∧ exec (.leGet2 b pos) s = .refused .cursorOutsideBuffer
      ∧ exec (.leGet4 b pos) s = .refused .cursorOutsideBuffer ∧ exec (.leGet8 b pos) s = .refused .cursorOutsideBuffer
      ∧ exec (.hdrDec b pos) s = .refused .cursorOutsideBuffer ∧ exec (.tagDec b pos) s = .refused .cursorOutsideBuffer
      ∧ exec (.tblDec b pos n) s = .refused .cursorOutsideBuffer
      ∧ exec (.sliceDec b pos entry) s = .refused .cursorOutsideBuffer
      ∧ exec (.verify b pos) s = .refused .cursorOutsideBuffer)
    ∧ ∀ (s : State) (dtype : Byte) (shape : List U32), 255 < shape.length →
      exec (.plen dtype shape) s = .refused .shapeTooLong
end

