-- ==== Sys2Proof/Laws/State.lean ====
section
/-!
SUPPORT. What each update of the state leaves in each field.
-/

namespace Sys2Proof.Machine

@[simp] theorem deliver_cfg (s : State) (r : Result) : (s.deliver r).cfg = s.cfg := rfl
@[simp] theorem deliver_requests (s : State) (r : Result) : (s.deliver r).requests = s.requests := rfl
@[simp] theorem deliver_results (s : State) (r : Result) : (s.deliver r).results = s.results ++ [r] := rfl
@[simp] theorem deliver_job (s : State) (r : Result) : (s.deliver r).job = s.job := rfl

@[simp] theorem endJob_cfg (s : State) : s.endJob.cfg = s.cfg := rfl
@[simp] theorem endJob_requests (s : State) : s.endJob.requests = s.requests := rfl
@[simp] theorem endJob_results (s : State) : s.endJob.results = s.results := rfl
@[simp] theorem endJob_job (s : State) : s.endJob.job = none := rfl

@[simp] theorem withJob_cfg (s : State) (j : Job) : (s.withJob j).cfg = s.cfg := rfl
@[simp] theorem withJob_requests (s : State) (j : Job) : (s.withJob j).requests = s.requests := rfl
@[simp] theorem withJob_results (s : State) (j : Job) : (s.withJob j).results = s.results := rfl
@[simp] theorem withJob_job (s : State) (j : Job) : (s.withJob j).job = some j := rfl

@[simp] theorem withRequests_cfg (s : State) (rs : List Request) : (s.withRequests rs).cfg = s.cfg := rfl
@[simp] theorem withRequests_requests (s : State) (rs : List Request) : (s.withRequests rs).requests = rs := rfl
@[simp] theorem withRequests_results (s : State) (rs : List Request) : (s.withRequests rs).results = s.results := rfl
@[simp] theorem withRequests_job (s : State) (rs : List Request) : (s.withRequests rs).job = s.job := rfl

@[simp] theorem advanceTo_b (j : DecodeJob) (q : Nat) : (advanceTo j q).b = j.b := rfl
@[simp] theorem advanceTo_pos (j : DecodeJob) (q : Nat) : (advanceTo j q).pos = q := rfl
@[simp] theorem advanceTo_acc (j : DecodeJob) (q : Nat) :
    (advanceTo j q).acc = absorb j.acc (subBytes j.b j.pos (q - j.pos)) := rfl
@[simp] theorem advanceTo_header (j : DecodeJob) (q : Nat) : (advanceTo j q).header = j.header := rfl
@[simp] theorem advanceTo_tbl (j : DecodeJob) (q : Nat) : (advanceTo j q).tbl = j.tbl := rfl
@[simp] theorem advanceTo_spaceHash32 (j : DecodeJob) (q : Nat) : (advanceTo j q).spaceHash32 = j.spaceHash32 := rfl
@[simp] theorem advanceTo_modality (j : DecodeJob) (q : Nat) : (advanceTo j q).modality = j.modality := rfl
@[simp] theorem advanceTo_slices (j : DecodeJob) (q : Nat) : (advanceTo j q).slices = j.slices := rfl
@[simp] theorem advanceTo_next (j : DecodeJob) (q : Nat) : (advanceTo j q).next = j.next := rfl

@[simp] theorem appendOut_frame (j : EncodeJob) (x : Bytes) : (appendOut j x).frame = j.frame := rfl
@[simp] theorem appendOut_out (j : EncodeJob) (x : Bytes) : (appendOut j x).out = j.out ++ x := rfl
@[simp] theorem appendOut_acc (j : EncodeJob) (x : Bytes) : (appendOut j x).acc = absorb j.acc x := rfl
@[simp] theorem appendOut_todo (j : EncodeJob) (x : Bytes) : (appendOut j x).todo = j.todo := rfl
@[simp] theorem appendOut_next (j : EncodeJob) (x : Bytes) : (appendOut j x).next = j.next := rfl

end Sys2Proof.Machine
end

