-- ==== Sys2Proof/Laws/Ops.lean ====
section
/-!
SUPPORT. One lemma for each shared operation, saying once what it can do.
-/

namespace Sys2Proof.Machine

/-- Ending an operation hands its result back and does nothing else. -/
theorem finish_eq (r : Result) (s : State) : finish r s = .next (s.deliver r) := by
  cases r <;> rfl

/-- An operation on a cursor runs when the cursor lies in the buffer. -/
theorem atCursor_of_le {b : Bytes} {pos : Nat} (h : pos ≤ b.length) (r : Result) (s : State) :
    atCursor b pos r s = .next (s.deliver r) := by
  rw [atCursor, if_pos h, finish_eq]

/-- An operation on a cursor that answers a next state had its cursor in the buffer. -/
theorem atCursor_next {b : Bytes} {pos : Nat} {r : Result} {s t : State}
    (h : atCursor b pos r s = .next t) : pos ≤ b.length ∧ t = s.deliver r := by
  rw [atCursor, finish_eq] at h
  split at h
  · next hp => exact ⟨hp, by cases h; rfl⟩
  · cases h

/-- An operation on a shape that answers a next state had at most 255 dimensions. -/
theorem onShape_next {shape : List U32} {r : Result} {s t : State}
    (h : onShape shape r s = .next t) : shape.length ≤ Config.maxShapeLen ∧ t = s.deliver r := by
  rw [onShape, finish_eq] at h
  split at h
  · next hp => exact ⟨hp, by cases h; rfl⟩
  · cases h

/-- A part of a frame operation goes on with its working variables or ends it with an error. -/
theorem goOn_next {r : Except Error Job} {s t : State} (h : goOn r s = .next t) :
    (∃ j, r = .ok j ∧ t = s.withJob j) ∨ (∃ e, r = .error e ∧ t = s.endJob.deliver (.error e)) := by
  cases r with
  | ok j => exact .inl ⟨j, rfl, by cases h; rfl⟩
  | error e => exact .inr ⟨e, rfl, by cases h; rfl⟩

/-- A part of a frame operation always answers a next state. -/
theorem goOn_eq (r : Except Error Job) (s : State) :
    goOn r s = .next (match r with | .ok j => s.withJob j | .error e => s.endJob.deliver (.error e)) := by
  cases r <;> rfl

/-- The error of a buffer the decoder does not accept is one of codes 1 to 4 (R281). -/
theorem ofDecoderError_mem (e : DecoderError) :
    ofDecoderError e ∈ [Error.truncatedInput, .unsupportedDtype, .sizeMismatch, .integrityError] := by
  cases e <;> decide

/-- The decoder accepts the buffer, or raises that error. -/
theorem acceptBuffer_of_accepted {cfg : Config} {b : Bytes} (h : bufferAccepted cfg b = true) :
    acceptBuffer cfg b = .ok () := by
  rw [acceptBuffer, if_pos h]

theorem acceptBuffer_of_overlong {cfg : Config} {b : Bytes} (h : bufferAccepted cfg b = false) :
    acceptBuffer cfg b = .error (overlongError cfg b) := by
  rw [acceptBuffer, if_neg (by simp [h])]

/-- A buffer that gets past the test is accepted. -/
theorem acceptBuffer_ok {cfg : Config} {b : Bytes} {u : Unit} (h : acceptBuffer cfg b = .ok u) :
    bufferAccepted cfg b = true := by
  rw [acceptBuffer] at h
  split at h
  · assumption
  · cases h

/-- FRAME_DEC under `MAX_BUFFER_LEN` is its stages on an accepted buffer and an error on any other. -/
theorem decodeBuffer_eq (cfg : Config) (b : Bytes) :
    decodeBuffer cfg b = if bufferAccepted cfg b then frameDecode cfg b else .error (overlongError cfg b) := by
  rw [decodeBuffer, acceptBuffer]
  split <;> rfl

/-- A step of the pseudocode gave its value. -/
theorem bind_ok_iff {α β : Type} {x : Except Error α} {f : α → Except Error β} {v : β} :
    (x >>= f) = .ok v ↔ ∃ a, x = .ok a ∧ f a = .ok v := by
  cases x with
  | ok a => exact ⟨fun h => ⟨a, rfl, h⟩, fun ⟨_, h, hf⟩ => by cases h; exact hf⟩
  | error e => exact ⟨fun h => (by cases h), fun ⟨_, h, _⟩ => (by cases h)⟩

/-- The pseudocode raised an error: the first step did, or what follows it did. -/
theorem bind_error_iff {α β : Type} {x : Except Error α} {f : α → Except Error β} {e : Error} :
    (x >>= f) = .error e ↔ x = .error e ∨ ∃ a, x = .ok a ∧ f a = .error e := by
  cases x with
  | ok a =>
    refine ⟨fun h => .inr ⟨a, rfl, h⟩, ?_⟩
    rintro (h | ⟨_, h, hf⟩)
    · cases h
    · cases h; exact hf
  | error e' =>
    refine ⟨fun h => .inl ?_, ?_⟩
    · have h' : (Except.error e' : Except Error β) = .error e := h
      cases h'; rfl
    · rintro (h | ⟨_, h, _⟩)
      · cases h; rfl
      · cases h

/-! ### Bytes -/

@[simp] theorem leBytes_length (n v : Nat) : (leBytes n v).length = n := by
  induction n generalizing v with
  | zero => rfl
  | succ n ih => simp [leBytes, ih]

theorem leNat_lt (b : Bytes) : leNat b < 2 ^ (8 * b.length) := by
  induction b with
  | nil => simp [leNat]
  | cons x xs ih =>
    have hx : x.toNat < 2 ^ 8 := x.isLt
    have he : 2 ^ (8 * (x :: xs).length) = 2 ^ 8 * 2 ^ (8 * xs.length) := by
      rw [← pow_add]; congr 1; simp [Nat.mul_add, Nat.add_comm]
    rw [he, leNat]
    nlinarith

/-- Reading the low `n` bytes of a number gives it back modulo its width. -/
theorem leNat_leBytes (n v : Nat) : leNat (leBytes n v) = v % 2 ^ (8 * n) := by
  induction n generalizing v with
  | zero => simp [leBytes, leNat, Nat.mod_one]
  | succ n ih =>
    have he : 2 ^ (8 * (n + 1)) = 2 ^ 8 * 2 ^ (8 * n) := by rw [← pow_add]; congr 1; ring
    rw [leBytes, leNat, ih, he, Nat.mod_mul, Nat.shiftRight_eq_div_pow, BitVec.toNat_ofNat]

/-- Writing the number of a byte sequence gives the sequence back. -/
theorem leBytes_leNat (b : Bytes) : leBytes b.length (leNat b) = b := by
  induction b with
  | nil => rfl
  | cons x xs ih =>
    have hx : x.toNat < 2 ^ 8 := x.isLt
    have hd : (x.toNat + 2 ^ 8 * leNat xs) >>> 8 = leNat xs := by
      rw [Nat.shiftRight_eq_div_pow, Nat.add_mul_div_left _ _ (by norm_num), Nat.div_eq_of_lt hx, Nat.zero_add]
    have hm : BitVec.ofNat 8 (x.toNat + 2 ^ 8 * leNat xs) = x := by
      apply BitVec.eq_of_toNat_eq
      rw [BitVec.toNat_ofNat, Nat.add_mul_mod_self_left, Nat.mod_eq_of_lt hx]
    simp only [List.length_cons, leBytes, leNat, hd, hm, ih]

/-- A field read that succeeds stayed in the buffer. -/
theorem readField_ok {b : Bytes} {pos n v q : Nat} (h : readField b pos n = .ok (v, q)) :
    pos + n ≤ b.length ∧ v = memRead b pos n ∧ q = pos + n := by
  rw [readField] at h
  split at h
  · next hr => cases h; exact ⟨of_decide_eq_true hr, rfl, rfl⟩
  · cases h

/-- A field read of bytes that are there succeeds. -/
theorem readField_of_room {b : Bytes} {pos n : Nat} (h : pos + n ≤ b.length) :
    readField b pos n = .ok (memRead b pos n, pos + n) := by
  rw [readField, if_pos (by simpa [roomFor] using h)]

/-- A field read of bytes that are not all there raises TruncatedInput. -/
theorem readField_truncated {b : Bytes} {pos n : Nat} (h : b.length < pos + n) :
    readField b pos n = .error .truncatedInput := by
  rw [readField, if_neg (by simpa [roomFor] using h)]

theorem subBytes_length {b : Bytes} {pos n : Nat} (h : pos + n ≤ b.length) : (subBytes b pos n).length = n := by
  simp [subBytes]; omega

theorem memRead_lt {b : Bytes} {pos n : Nat} (h : pos + n ≤ b.length) : memRead b pos n < 2 ^ (8 * n) := by
  have := leNat_lt (subBytes b pos n)
  rwa [subBytes_length h] at this

/-! ### The accumulator -/

/-- A checksum is accumulated part by part (R108 clause 2). -/
theorem absorb_append (acc : U32) (a b : Bytes) : absorb acc (a ++ b) = absorb (absorb acc a) b := by
  simp [absorb]

end Sys2Proof.Machine
end

