-- ==== Sys2Proof/Laws/Buffer.lean ====
section
/-!
SUPPORT. Where bytes stand in a buffer: `At b pos e`, the bytes `e` stand whole at `pos`; `Cut b pos e`, the buffer ends
inside them. Decoding is then a matter of what stands where, and encodings, which are concatenations, take apart by
`at_append` and `cut_append`.
-/

namespace Sys2Proof.Machine

/-- The bytes `e` stand at offset `pos` of `b`. -/
def At (b : Bytes) (pos : Nat) (e : Bytes) : Prop := pos ≤ b.length ∧ e <+: b.drop pos

/-- The buffer ends inside the bytes `e` that begin at `pos`. -/
def Cut (b : Bytes) (pos : Nat) (e : Bytes) : Prop :=
  pos ≤ b.length ∧ b.drop pos <+: e ∧ b.length < pos + e.length

theorem at_iff {b : Bytes} {pos : Nat} {e : Bytes} :
    At b pos e ↔ pos + e.length ≤ b.length ∧ subBytes b pos e.length = e := by
  constructor
  · rintro ⟨hp, t, ht⟩
    have hl := congrArg List.length ht
    simp at hl
    refine ⟨by omega, ?_⟩
    simp [subBytes, ← ht]
  · rintro ⟨hl, hs⟩
    have h := List.take_append_drop e.length (b.drop pos)
    rw [show (b.drop pos).take e.length = e from hs, List.drop_drop] at h
    exact ⟨by omega, b.drop (pos + e.length), h⟩

theorem At.room {b : Bytes} {pos : Nat} {e : Bytes} (h : At b pos e) : pos + e.length ≤ b.length := (at_iff.mp h).1

theorem At.subBytes {b : Bytes} {pos : Nat} {e : Bytes} (h : At b pos e) : subBytes b pos e.length = e :=
  (at_iff.mp h).2

theorem at_subBytes {b : Bytes} {pos n : Nat} (h : pos + n ≤ b.length) : At b pos (Machine.subBytes b pos n) := by
  rw [at_iff, subBytes_length h]
  exact ⟨h, rfl⟩

theorem at_nil {b : Bytes} {pos : Nat} : At b pos [] ↔ pos ≤ b.length := by simp [At]

/-- Two byte sequences stand one after the other. -/
theorem at_append {b : Bytes} {pos : Nat} {e e' : Bytes} :
    At b pos (e ++ e') ↔ At b pos e ∧ At b (pos + e.length) e' := by
  constructor
  · rintro ⟨hp, t, ht⟩
    have hl := congrArg List.length ht
    simp at hl
    refine ⟨⟨hp, e' ++ t, by simpa using ht⟩, by omega, t, ?_⟩
    rw [← List.drop_drop, ← ht]
    simp
  · rintro ⟨h, h'⟩
    refine ⟨h.1, ?_⟩
    obtain ⟨t, ht⟩ := h.2
    obtain ⟨t', ht'⟩ := h'.2
    rw [← List.drop_drop, ← ht, List.drop_left] at ht'
    exact ⟨t', by rw [← ht, ← ht', List.append_assoc]⟩

theorem at_mid (pre e post : Bytes) : At (pre ++ e ++ post) pre.length e := by
  simp [At]

/-- A buffer that ends inside two byte sequences ends inside the first, or holds it and ends inside the second. -/
theorem cut_append {b : Bytes} {pos : Nat} {e e' : Bytes} :
    Cut b pos (e ++ e') ↔ Cut b pos e ∨ At b pos e ∧ Cut b (pos + e.length) e' := by
  constructor
  · rintro ⟨hp, hpre, hl⟩
    simp at hl
    by_cases h : b.length < pos + e.length
    · left
      refine ⟨hp, ?_, h⟩
      exact List.prefix_of_prefix_length_le hpre (List.prefix_append e e') (by simp; omega)
    · right
      have he : e <+: b.drop pos :=
        List.prefix_of_prefix_length_le (List.prefix_append e e') hpre (by simp; omega)
      refine ⟨⟨hp, he⟩, by omega, ?_, by omega⟩
      obtain ⟨t, ht⟩ := he
      rw [← List.drop_drop, ← ht, List.drop_left]
      rw [← ht] at hpre
      exact (List.prefix_append_right_inj e).mp hpre
  · rintro (⟨hp, hpre, hl⟩ | ⟨⟨hp, t, ht⟩, hp', hpre, hl⟩)
    · exact ⟨hp, hpre.trans (List.prefix_append e e'), by simp; omega⟩
    · refine ⟨hp, ?_, by simp; omega⟩
      rw [← List.drop_drop, ← ht, List.drop_left] at hpre
      rw [← ht]
      exact (List.prefix_append_right_inj e).mpr hpre

/-- A field of `n` bytes is read exactly when `n` bytes stand at the cursor. -/
theorem readField_ok_iff {b : Bytes} {pos n v q : Nat} :
    readField b pos n = .ok (v, q) ↔ ∃ e, At b pos e ∧ e.length = n ∧ v = leNat e ∧ q = pos + n := by
  constructor
  · intro h
    obtain ⟨hl, hv, hq⟩ := readField_ok h
    exact ⟨Machine.subBytes b pos n, at_subBytes hl, subBytes_length hl, hv, hq⟩
  · rintro ⟨e, he, rfl, rfl, rfl⟩
    rw [readField_of_room he.room, memRead, he.subBytes]

end Sys2Proof.Machine
end

