-- ==== Sys2Proof/Laws/Codec.lean ====
section
/-!
SUPPORT. What each decoder answers, said once: it gives a value exactly when that value's encoding stands at the cursor,
and raises TruncatedInput when the buffer ends inside it.
-/

namespace Sys2Proof.Machine

theorem ok_bind {α β} (a : α) (f : α → Except Error β) : ((Except.ok a : Except Error α) >>= f) = f a := rfl
theorem error_bind {α β} (e) (f : α → Except Error β) : ((Except.error e : Except Error α) >>= f) = .error e := rfl

/-- The number read from bytes that stand at the cursor. -/
theorem memRead_of_at {b : Bytes} {pos : Nat} {e : Bytes} (h : At b pos e) : memRead b pos e.length = leNat e := by
  rw [memRead, h.subBytes]

/-- A field is read exactly when its little-endian bytes stand at the cursor. -/
theorem readField_value_iff {w n : Nat} (hw : w = 8 * n) {b : Bytes} {pos : Nat} {v : BitVec w} {q : Nat} :
    ((do let (x, p) ← readField b pos n; return (BitVec.ofNat w x, p)) : Except Error (BitVec w × Nat)) = .ok (v, q)
      ↔ At b pos (leBytes n v.toNat) ∧ q = pos + n := by
  rw [bind_ok_iff]
  constructor
  · rintro ⟨⟨x, p⟩, h, h2⟩
    obtain ⟨e, he, hn, rfl, rfl⟩ := readField_ok_iff.mp h
    cases h2
    refine ⟨?_, rfl⟩
    have hlt := leNat_lt e
    have : (BitVec.ofNat w (leNat e)).toNat = leNat e := by
      rw [BitVec.toNat_ofNat, Nat.mod_eq_of_lt]; subst hn; rw [hw]; exact hlt
    rw [this, ← hn, leBytes_leNat]; exact he
  · rintro ⟨h, rfl⟩
    refine ⟨(v.toNat, pos + n), readField_ok_iff.mpr ⟨_, h, by simp, ?_, rfl⟩, ?_⟩
    · rw [leNat_leBytes, Nat.mod_eq_of_lt]; subst hw; exact v.isLt
    · simp [pure, Except.pure]

theorem leGet1_ok_iff {b pos v q} : leGet1 b pos = .ok (v, q) ↔ At b pos (lePut1 v) ∧ q = pos + 1 :=
  readField_value_iff rfl
theorem leGet2_ok_iff {b pos v q} : leGet2 b pos = .ok (v, q) ↔ At b pos (lePut2 v) ∧ q = pos + 2 :=
  readField_value_iff rfl
theorem leGet4_ok_iff {b pos v q} : leGet4 b pos = .ok (v, q) ↔ At b pos (lePut4 v) ∧ q = pos + 4 :=
  readField_value_iff rfl
theorem leGet8_ok_iff {b pos v q} : leGet8 b pos = .ok (v, q) ↔ At b pos (lePut8 v) ∧ q = pos + 8 :=
  readField_value_iff rfl

/-- A field that is not all there raises TruncatedInput. -/
theorem readField_value_cut {w n : Nat} {b : Bytes} {pos : Nat} (h : b.length < pos + n) :
    ((do let (x, p) ← readField b pos n; return (BitVec.ofNat w x, p)) : Except Error (BitVec w × Nat))
      = .error .truncatedInput := by
  rw [readField_truncated h]; rfl
@[simp] theorem lePut1_length (v) : (lePut1 v).length = 1 := by simp [lePut1]
@[simp] theorem lePut2_length (v) : (lePut2 v).length = 2 := by simp [lePut2]
@[simp] theorem lePut4_length (v) : (lePut4 v).length = 4 := by simp [lePut4]
@[simp] theorem lePut8_length (v) : (lePut8 v).length = 8 := by simp [lePut8]

/-- HDR_DEC gives a header exactly when its 24 bytes stand at the cursor. -/
theorem hdrDecode_ok_iff {b pos h q} : hdrDecode b pos = .ok (h, q) ↔ At b pos (hdrEncode h) ∧ q = pos + 24 := by
  simp only [hdrDecode, bind_ok_iff, Prod.exists, leGet1_ok_iff, leGet2_ok_iff, leGet4_ok_iff, leGet8_ok_iff, hdrEncode,
    at_append]
  constructor
  · rintro ⟨v, _, ⟨h1, rfl⟩, m, _, ⟨h2, rfl⟩, f, _, ⟨h3, rfl⟩,
      si, _, ⟨h4, rfl⟩, fs, _, ⟨h5, rfl⟩, n, _, ⟨h6, rfl⟩, h7⟩
    cases h7
    simp [h1, h2, h3, h4, h5, h6]
  · rintro ⟨⟨⟨⟨⟨⟨h1,h2⟩,h3⟩,h4⟩,h5⟩,h6⟩, rfl⟩
    simp at h2 h3 h4 h5 h6
    exact ⟨_, _, ⟨h1, rfl⟩, _, _, ⟨h2, rfl⟩, _, _, ⟨h3, rfl⟩,
      _, _, ⟨h4, rfl⟩, _, _, ⟨h5, rfl⟩, _, _, ⟨h6, rfl⟩, rfl⟩

/-- TAG_DEC gives a tag group exactly when its 5 bytes stand at the cursor. -/
theorem tagDecode_ok_iff {b pos t q} : tagDecode b pos = .ok (t, q) ↔
    At b pos (tagEncode t.1 t.2) ∧ q = pos + 5 := by
  simp only [tagDecode, bind_ok_iff, Prod.exists, leGet1_ok_iff, leGet4_ok_iff, tagEncode, at_append]
  constructor
  · rintro ⟨v, _, ⟨h1, rfl⟩, m, _, ⟨h2, rfl⟩, h3⟩
    cases h3; simp [h1, h2]
  · rintro ⟨⟨h1,h2⟩, rfl⟩
    simp at h2
    exact ⟨_, _, ⟨h1, rfl⟩, _, _, ⟨h2, rfl⟩, rfl⟩

@[simp] theorem putU32s_length (vs) : (putU32s vs).length = 4 * vs.length := by
  induction vs with
  | nil => rfl
  | cons v vs ih => simp [putU32s] at ih ⊢; simp [ih]; ring

/-- Reading `k` 32-bit values: exactly when their bytes stand at the cursor. -/
theorem getU32s_ok_iff {b k pos vs q} (hp : pos ≤ b.length) : getU32s b pos k = .ok (vs, q) ↔
    At b pos (putU32s vs) ∧ vs.length = k ∧ q = pos + 4 * k := by
  induction k generalizing pos vs q with
  | zero =>
    constructor
    · intro h; cases h; simp [putU32s, at_nil, hp]
    · rintro ⟨h, hl, rfl⟩
      rw [List.length_eq_zero_iff] at hl; subst hl; rfl
  | succ k ih =>
    simp only [getU32s, bind_ok_iff, Prod.exists, leGet4_ok_iff]
    constructor
    · rintro ⟨v, _, ⟨h1, rfl⟩, ws, p, h2, h3⟩
      cases h3
      have hr := h1.room
      rw [ih (by simpa using hr)] at h2
      obtain ⟨h2, rfl, rfl⟩ := h2
      refine ⟨?_, rfl, by ring⟩
      rw [putU32s, List.flatMap_cons, at_append]
      exact ⟨h1, by simpa [putU32s] using h2⟩
    · rintro ⟨h, hl, rfl⟩
      cases vs with
      | nil => simp at hl
      | cons v ws =>
        rw [putU32s, List.flatMap_cons, at_append] at h
        have hr := h.1.room
        refine ⟨v, _, ⟨h.1, rfl⟩, ws, _,
          (ih (by simpa using hr)).mpr ⟨by simpa [putU32s] using h.2, by simpa using hl, rfl⟩, ?_⟩
        simp [pure, Except.pure]; ring

/-- TBL_DEC gives a table exactly when its bytes stand at the cursor. -/
theorem tblDecode_ok_iff {b pos n tbl q} (hp : pos ≤ b.length) : tblDecode b pos n = .ok (tbl, q) ↔
    At b pos (tblEncode tbl) ∧ tbl.length = n.toNat ∧ q = pos + 4 * n.toNat := by
  rw [tblDecode]
  split
  · exact getU32s_ok_iff hp
  · next h =>
    constructor
    · intro h; cases h
    · rintro ⟨h1, h2, rfl⟩
      have := h1.room
      simp [tblEncode, h2] at this
      simp [roomFor] at h; omega

/-- The test SLICE_ENC makes is its precondition. -/
theorem sliceReady_iff {cfg d} : sliceReady cfg d = true ↔ SliceReady cfg d := by
  unfold sliceReady SliceReady
  cases h : payloadLength cfg d.dtype d.shape with
  | ok n =>
    have : supported cfg d.dtype = true := by
      rw [payloadLength] at h
      unfold supported
      cases hh : elemSize cfg d.dtype with
      | ok _ => rfl
      | error e => rw [hh] at h; cases h
    simp only [this, true_and, Bool.and_eq_true, decide_eq_true_eq, Except.ok.injEq, eq_comm (a := n)]
    tauto
  | error e => simp

/-- The test FRAME_ENC makes is `WF`. -/
theorem frameWF_iff {cfg f} : frameWF cfg f = true ↔ WF cfg f := by
  simp only [frameWF, WF, Bool.and_eq_true, decide_eq_true_eq, List.all_eq_true, sliceReady_iff]

/-- SLICE_DEC gives a slice exactly when its bytes stand at the cursor, it is within the precondition of SLICE_ENC, and
the entry is its payload length. -/
theorem sliceDecode_ok_iff {cfg b pos entry d q} : sliceDecode cfg b pos entry = .ok (d, q) ↔
    At b pos (sliceEncode d) ∧ SliceReady cfg d ∧ d.payload.length = entry.toNat
      ∧ q = pos + (sliceEncode d).length := by
  simp only [sliceDecode, bind_ok_iff, Prod.exists, leGet1_ok_iff, sliceEncode, at_append]
  constructor
  · rintro ⟨dt, _, ⟨h1, rfl⟩, k, _, ⟨h2, rfl⟩, shape, p, h3, size, h4, h5⟩
    rw [getU32s_ok_iff (by simpa using h2.room)] at h3
    obtain ⟨h3, hl, rfl⟩ := h3
    split at h5
    · cases h5
    · next hs =>
      split at h5
      · next hr =>
        cases h5
        have hr := of_decide_eq_true hr
        have hk : BitVec.ofNat 8 shape.length = k := by rw [hl]; simp
        have hkl := k.isLt
        have hlen : (subBytes b (pos + 1 + 1 + 4 * k.toNat) size).length = size := subBytes_length hr
        refine ⟨⟨⟨⟨h1, ?_⟩, ?_⟩, ?_⟩, ?_, ?_, ?_⟩
        · simpa [hk] using h2
        · simpa [Nat.add_assoc] using h3
        · have := at_subBytes hr
          rw [show pos + 1 + 1 + 4 * k.toNat
            = pos + (lePut1 dt ++ lePut1 (BitVec.ofNat 8 shape.length) ++ putU32s shape).length by
              simp [hl]; omega] at this ⊢
          exact this
        · rw [← sliceReady_iff]
          have hs : size = entry.toNat := by simpa using hs
          have := entry.isLt
          simp only [sliceReady, h4, hlen, hl, Bool.and_eq_true, decide_eq_true_eq]
          exact ⟨⟨show k.toNat ≤ 255 by omega, by omega⟩, trivial⟩
        · show (subBytes _ _ _).length = _
          rw [hlen]; simpa using hs
        · show _ = pos + (lePut1 dt ++ lePut1 (BitVec.ofNat 8 shape.length) ++ putU32s shape ++ subBytes _ _ _).length
          simp only [List.length_append, lePut1_length, putU32s_length, hl, hlen]; omega
      · cases h5
  · rintro ⟨⟨⟨⟨h1, h2⟩, h3⟩, h4⟩, ⟨hr1, hr2, hr3, hr4⟩, he, rfl⟩
    have hk : (BitVec.ofNat 8 d.shape.length).toNat = d.shape.length := by
      simp; omega
    simp at h2 h3 h4
    refine ⟨_, _, ⟨h1, rfl⟩, BitVec.ofNat 8 d.shape.length, _, ⟨h2, rfl⟩, d.shape,
      pos + 2 + 4 * d.shape.length, ?_, d.payload.length, hr3, ?_⟩
    · rw [getU32s_ok_iff (by simpa using h2.room), hk]
      exact ⟨by simpa [Nat.add_assoc] using h3, rfl, by omega⟩
    · rw [if_neg (by simpa using he), if_pos]
      · have := h4.subBytes
        rw [show pos + 2 + 4 * d.shape.length = pos + (2 + 4 * d.shape.length) by omega,
          show (2 + 4 * d.shape.length) = (1 + (1 + 4 * d.shape.length)) by omega, this]
        simp [pure, Except.pure]; omega
      · have := h4.room
        simp [roomFor]; omega

/-- Stage 4 of FRAME_DEC gives slices exactly when their bytes stand at the cursor, they are well-formed, and the table
is theirs. -/
theorem decodeSlices_ok_iff {cfg b tbl pos ds q} (hp : pos ≤ b.length) : decodeSlices cfg b pos tbl = .ok (ds, q) ↔
    At b pos (ds.flatMap sliceEncode) ∧ (∀ d ∈ ds, SliceReady cfg d) ∧
     tbl = ds.map (tableEntry cfg) ∧ q = pos + (ds.flatMap sliceEncode).length := by
  induction tbl generalizing pos ds q with
  | nil =>
    constructor
    · intro h; cases h; simp [at_nil, hp]
    · rintro ⟨h, h1, h2, rfl⟩
      have : ds = [] := by simpa using h2.symm
      subst this; rfl
  | cons e es ih =>
    simp only [decodeSlices, bind_ok_iff, Prod.exists, sliceDecode_ok_iff]
    constructor
    · rintro ⟨d, _, ⟨h1, h2, h3, rfl⟩, ds', p, h4, h5⟩
      cases h5
      rw [ih h1.room] at h4
      obtain ⟨h4, h5, h6, rfl⟩ := h4
      rw [List.flatMap_cons, at_append]
      refine ⟨⟨h1, h4⟩, ?_, ?_, ?_⟩
      · intro x hx
        rcases List.mem_cons.mp hx with rfl | hx
        · exact h2
        · exact h5 _ hx
      · simp [tableEntry, h2.2.2.1, h3, h6]
      · simp; omega
    · rintro ⟨h, h1, h2, rfl⟩
      cases ds with
      | nil => simp at h2
      | cons d ds =>
        rw [List.flatMap_cons, at_append] at h
        simp at h2
        have hd := h1 d (by simp)
        have := hd.2.2.2
        refine ⟨d, _, ⟨h.1, hd, ?_, rfl⟩, ds, _,
          (ih h.1.room).mpr ⟨h.2, fun x hx => h1 x (by simp [hx]), h2.2, rfl⟩, ?_⟩
        · rw [h2.1]; simp [tableEntry, hd.2.2.1]; omega
        · simp [pure, Except.pure]; omega

theorem hdrEncode_length (h) : (hdrEncode h).length = 24 := by simp [hdrEncode]
theorem tagEncode_length (a b) : (tagEncode a b).length = 5 := by simp [tagEncode]

theorem leGet1_cut {b pos v} (h : Cut b pos (lePut1 v)) : leGet1 b pos = .error .truncatedInput :=
  readField_value_cut (by simpa using h.2.2)
theorem leGet2_cut {b pos v} (h : Cut b pos (lePut2 v)) : leGet2 b pos = .error .truncatedInput :=
  readField_value_cut (by simpa using h.2.2)
theorem leGet4_cut {b pos v} (h : Cut b pos (lePut4 v)) : leGet4 b pos = .error .truncatedInput :=
  readField_value_cut (by simpa using h.2.2)
theorem leGet8_cut {b pos v} (h : Cut b pos (lePut8 v)) : leGet8 b pos = .error .truncatedInput :=
  readField_value_cut (by simpa using h.2.2)
theorem leGet1_at {b pos v} (h : At b pos (lePut1 v)) : leGet1 b pos = .ok (v, pos+1) := leGet1_ok_iff.mpr ⟨h, rfl⟩
theorem leGet2_at {b pos v} (h : At b pos (lePut2 v)) : leGet2 b pos = .ok (v, pos+2) := leGet2_ok_iff.mpr ⟨h, rfl⟩
theorem leGet4_at {b pos v} (h : At b pos (lePut4 v)) : leGet4 b pos = .ok (v, pos+4) := leGet4_ok_iff.mpr ⟨h, rfl⟩
theorem leGet8_at {b pos v} (h : At b pos (lePut8 v)) : leGet8 b pos = .ok (v, pos+8) := leGet8_ok_iff.mpr ⟨h, rfl⟩

/-- A cut header raises TruncatedInput. -/
theorem hdrDecode_cut {b pos h} (hc : Cut b pos (hdrEncode h)) : hdrDecode b pos = .error .truncatedInput := by
  simp only [hdrEncode, cut_append, at_append, List.length_append, lePut1_length, lePut2_length, lePut4_length,
    lePut8_length, ← Nat.add_assoc] at hc
  unfold hdrDecode
  rcases hc with ((((h1 | ⟨h1, h2⟩) | ⟨⟨h1, h2⟩, h3⟩) | ⟨⟨⟨h1, h2⟩, h3⟩, h4⟩) | ⟨⟨⟨⟨h1, h2⟩, h3⟩, h4⟩, h5⟩) | ⟨⟨⟨⟨⟨h1, h2⟩, h3⟩, h4⟩, h5⟩, h6⟩
  · rw [leGet1_cut h1, error_bind]
  · simp only [leGet1_at h1, leGet1_cut h2, ok_bind, error_bind]
  · simp only [leGet1_at h1, leGet1_at h2, leGet2_cut h3, ok_bind, error_bind]
  · simp only [leGet1_at h1, leGet1_at h2, leGet2_at h3, leGet4_cut h4, ok_bind, error_bind]
  · simp only [leGet1_at h1, leGet1_at h2, leGet2_at h3, leGet4_at h4, leGet8_cut h5, ok_bind, error_bind]
  · simp only [leGet1_at h1, leGet1_at h2, leGet2_at h3, leGet4_at h4, leGet8_at h5, leGet8_cut h6, ok_bind, error_bind]

/-- A cut tag group raises TruncatedInput. -/
theorem tagDecode_cut {b pos x y} (hc : Cut b pos (tagEncode x y)) : tagDecode b pos = .error .truncatedInput := by
  simp only [tagEncode, cut_append, lePut4_length] at hc
  unfold tagDecode
  rcases hc with h1 | ⟨h1, h2⟩
  · rw [leGet4_cut h1, error_bind]
  · simp only [leGet4_at h1, leGet1_cut h2, ok_bind, error_bind]

/-- Cut 32-bit values raise TruncatedInput. -/
theorem getU32s_cut {b pos vs} (hc : Cut b pos (putU32s vs)) : getU32s b pos vs.length = .error .truncatedInput := by
  induction vs generalizing pos with
  | nil => have := hc.2.2; simp [putU32s] at this; have := hc.1; omega
  | cons v vs ih =>
    rw [putU32s, List.flatMap_cons, cut_append] at hc
    rw [List.length_cons, getU32s]
    rcases hc with h1 | ⟨h1, h2⟩
    · rw [leGet4_cut h1, error_bind]
    · rw [leGet4_at h1, ok_bind]; dsimp only; rw [ih (by simpa [putU32s] using h2), error_bind]

/-- A cut table raises TruncatedInput. -/
theorem tblDecode_cut {b pos tbl n} (hn : tbl.length = n.toNat) (hc : Cut b pos (tblEncode tbl)) :
    tblDecode b pos n = .error .truncatedInput := by
  rw [tblDecode, if_neg]
  have := hc.2.2
  simp [tblEncode] at this
  simp [roomFor]; omega

/-- A cut slice raises TruncatedInput. -/
theorem sliceDecode_cut {cfg b pos entry d} (hr : SliceReady cfg d) (he : d.payload.length = entry.toNat)
    (hc : Cut b pos (sliceEncode d)) : sliceDecode cfg b pos entry = .error .truncatedInput := by
  simp only [sliceEncode, cut_append, at_append, List.length_append, lePut1_length, ← Nat.add_assoc] at hc
  have hk : (BitVec.ofNat 8 d.shape.length).toNat = d.shape.length := by
    have := hr.1; simp; omega
  unfold sliceDecode
  rcases hc with ((h1 | ⟨h1, h2⟩) | ⟨⟨h1, h2⟩, h3⟩) | ⟨⟨⟨h1, h2⟩, h3⟩, h4⟩
  · rw [leGet1_cut h1, error_bind]
  · simp only [leGet1_at h1, leGet1_cut h2, ok_bind, error_bind]
  · rw [leGet1_at h1, ok_bind]; dsimp only; rw [leGet1_at h2, ok_bind]; dsimp only; rw [hk, getU32s_cut (by simpa [Nat.add_assoc] using h3), error_bind]
  · have h3' := (getU32s_ok_iff (k := d.shape.length) (vs := d.shape) (q := pos + 1 + 1 + 4 * d.shape.length)
      (by simpa [Nat.add_assoc] using h2.room)).mpr ⟨by simpa [Nat.add_assoc] using h3, rfl, rfl⟩
    rw [leGet1_at h1, ok_bind]; dsimp only; rw [leGet1_at h2, ok_bind]; dsimp only; rw [hk, h3', ok_bind]; dsimp only
    rw [hr.2.2.1, ok_bind]
    rw [if_neg (by simpa using he), if_neg]
    have := h4.2.2
    simp at this
    simp [roomFor]; omega

/-- Cut slices raise TruncatedInput. -/
theorem decodeSlices_cut {cfg b pos} {ds : List SliceDescriptor}
    (hw : ∀ d ∈ ds, SliceReady cfg d) (hc : Cut b pos (ds.flatMap sliceEncode)) :
    decodeSlices cfg b pos (ds.map (tableEntry cfg)) = .error .truncatedInput := by
  induction ds generalizing pos with
  | nil => have := hc.2.2; simp at this; have := hc.1; omega
  | cons d ds ih =>
    have hd := hw d (by simp)
    have hlt := hd.2.2.2
    have he : d.payload.length = (tableEntry cfg d).toNat := by simp [tableEntry, hd.2.2.1]; omega
    rw [List.flatMap_cons, cut_append] at hc
    rw [List.map_cons, decodeSlices]
    rcases hc with h1 | ⟨h1, h2⟩
    · rw [sliceDecode_cut hd he h1, error_bind]
    · rw [sliceDecode_ok_iff.mpr ⟨h1, hd, he, rfl⟩, ok_bind]; dsimp only
      rw [ih (fun x hx => hw x (by simp [hx])) h2, error_bind]

end Sys2Proof.Machine
end

