-- ==== Sys2Proof/Laws/PerInstr.lean ====
section
/-!
SUPPORT. The family TableWord: for every instruction, the word of the request that encodes it is a word of its row of
`spec/opcode_table.json`: the row's place, width, mask and match, copied from the table here and compared with the
encoder.
A row that names several values has mask 0: which values it names is `Instr.wellFormed`. A wire-format row has no word.
-/

namespace Sys2Proof.Laws.TableWord

open Sys2Proof Sys2Proof.Machine

/-- A row of the table: where its word stands, its width in bits, the mask and the match. -/
structure Row where
  place : Space
  bits : Nat
  mask : Nat
  value : Nat
deriving DecidableEq, Repr

/-- The table's row of each instruction. -/
def row : Instr → Row
  | .crc32 _ => ⟨.operation, 8, 0xFF, 0x01⟩
  | .crcInit => ⟨.operation, 8, 0xFF, 0x02⟩
  | .crcStep _ _ => ⟨.operation, 8, 0xFF, 0x03⟩
  | .crcFinal _ => ⟨.operation, 8, 0xFF, 0x04⟩
  | .lePut1 _ => ⟨.operation, 8, 0xFF, 0x10⟩
  | .lePut2 _ => ⟨.operation, 8, 0xFF, 0x11⟩
  | .lePut4 _ => ⟨.operation, 8, 0xFF, 0x12⟩
  | .lePut8 _ => ⟨.operation, 8, 0xFF, 0x13⟩
  | .leGet1 _ _ => ⟨.operation, 8, 0xFF, 0x18⟩
  | .leGet2 _ _ => ⟨.operation, 8, 0xFF, 0x19⟩
  | .leGet4 _ _ => ⟨.operation, 8, 0xFF, 0x1A⟩
  | .leGet8 _ _ => ⟨.operation, 8, 0xFF, 0x1B⟩
  | .hdrEnc _ _ _ _ _ _ => ⟨.operation, 8, 0xFF, 0x20⟩
  | .hdrDec _ _ => ⟨.operation, 8, 0xFF, 0x21⟩
  | .tagEnc _ _ => ⟨.operation, 8, 0xFF, 0x22⟩
  | .tagDec _ _ => ⟨.operation, 8, 0xFF, 0x23⟩
  | .tblEnc _ => ⟨.operation, 8, 0xFF, 0x30⟩
  | .tblDec _ _ _ => ⟨.operation, 8, 0xFF, 0x31⟩
  | .elemSize _ => ⟨.operation, 8, 0xFF, 0x40⟩
  | .plen _ _ => ⟨.operation, 8, 0xFF, 0x41⟩
  | .sliceEnc _ => ⟨.operation, 8, 0xFF, 0x50⟩
  | .sliceDec _ _ _ => ⟨.operation, 8, 0xFF, 0x51⟩
  | .frameEnc _ => ⟨.operation, 8, 0xFF, 0x60⟩
  | .frameDec _ => ⟨.operation, 8, 0xFF, 0x61⟩
  | .verify _ _ => ⟨.operation, 8, 0xFF, 0x62⟩
  | .dispatch _ => ⟨.operation, 8, 0xFF, 0x70⟩
  | .dtypeF16 => ⟨.dtype, 8, 0xFF, 0x01⟩
  | .dtypeI8 => ⟨.dtype, 8, 0xFF, 0x02⟩
  | .dtypeQ4 => ⟨.dtype, 8, 0xFF, 0x03⟩
  | .dtypeSparseCoo => ⟨.dtype, 8, 0xFF, 0x10⟩
  | .dtypeUnrecognised _ => ⟨.dtype, 8, 0x0, 0x0⟩
  | .msgThink => ⟨.msgType, 8, 0xFF, 0x00⟩
  | .msgCache => ⟨.msgType, 8, 0xFF, 0x01⟩
  | .msgAsk => ⟨.msgType, 8, 0xFF, 0x02⟩
  | .msgSync => ⟨.msgType, 8, 0xFF, 0x03⟩
  | .msgCritique => ⟨.msgType, 8, 0xFF, 0x04⟩
  | .msgUnknown _ => ⟨.msgType, 8, 0x0, 0x0⟩
  | .modText => ⟨.modality, 8, 0xFF, 0x00⟩
  | .modImage => ⟨.modality, 8, 0xFF, 0x01⟩
  | .modAudio => ⟨.modality, 8, 0xFF, 0x02⟩
  | .modGraph => ⟨.modality, 8, 0xFF, 0x03⟩
  | .modMixed => ⟨.modality, 8, 0xFF, 0x04⟩
  | .modUnknown _ => ⟨.modality, 8, 0x0, 0x0⟩
  | .flagCompressed _ => ⟨.flagCompressed, 16, 0x0001, 0x0001⟩
  | .flagEncrypted _ _ => ⟨.flagEncrypted, 16, 0x0002, 0x0002⟩
  | .flagStrongTail _ _ => ⟨.flagStrongTail, 16, 0x0004, 0x0004⟩
  | .flagReserved _ _ => ⟨.flagReserved, 16, 0x0, 0x0⟩
  | .fmtHeader _ => ⟨.header, 0, 0x0, 0x0⟩
  | .fmtTable => ⟨.table, 0, 0x0, 0x0⟩
  | .fmtTag => ⟨.tag, 0, 0x0, 0x0⟩
  | .fmtSlice => ⟨.slice, 0, 0x0, 0x0⟩
  | .fmtTrailer => ⟨.trailer, 0, 0x0, 0x0⟩

/-- The encoding of a well-formed instruction stands in its row's place, has its row's width and matches its row. -/
def Statement (i : Instr) : Prop :=
  i.wellFormed = true → (encode i).space = (row i).place ∧ 8 * (encode i).word.length = (row i).bits
    ∧ leNat (encode i).word &&& (row i).mask = (row i).value

/-- A one-byte word under the mask of all its bits. -/
theorem byte_and (v : Byte) : leNat [v] &&& 0xFF = v.toNat := by
  have h : leNat [v] = v.toNat := by simp [leNat]
  rw [h, show (0xFF : Nat) = 2 ^ 8 - 1 from rfl, Nat.and_two_pow_sub_one_eq_mod, Nat.mod_eq_of_lt v.isLt]

/-- The word of a `flags` request is the 16 bits. -/
theorem leNat_bytesOfFlags (v : U16) : leNat (bytesOfFlags v) = v.toNat := by
  have h : leNat (bytesOfFlags v) = v.toNat % 2 ^ 8 + 2 ^ 8 * (v.toNat / 2 ^ 8 % 2 ^ 8) := by
    simp [bytesOfFlags, leNat, Nat.shiftRight_eq_div_pow]
  have hv := v.isLt
  omega

/-- A `flags` word under a mask, as 16 bits. -/
theorem bytesOfFlags_and {v m : U16} (h : v &&& m = m) : leNat (bytesOfFlags v) &&& m.toNat = m.toNat := by
  rw [leNat_bytesOfFlags, ← BitVec.toNat_and, h]

theorem flagsCompressed_and (hi : BitVec 15) : flagsCompressed hi &&& 0x0001#16 = 0x0001#16 := by
  apply BitVec.eq_of_getLsbD_eq
  intro i h
  simp only [flagsCompressed, BitVec.getLsbD_and, BitVec.getLsbD_append]
  interval_cases i <;> simp

theorem flagsEncrypted_and (hi : BitVec 14) (lo : BitVec 1) : flagsEncrypted hi lo &&& 0x0002#16 = 0x0002#16 := by
  apply BitVec.eq_of_getLsbD_eq
  intro i h
  simp only [flagsEncrypted, BitVec.getLsbD_and, BitVec.getLsbD_append]
  interval_cases i <;> simp

theorem flagsStrongTail_and (hi : BitVec 13) (lo : BitVec 2) :
    flagsStrongTail hi lo &&& 0x0004#16 = 0x0004#16 := by
  apply BitVec.eq_of_getLsbD_eq
  intro i h
  simp only [flagsStrongTail, BitVec.getLsbD_and, BitVec.getLsbD_append]
  interval_cases i <;> simp

theorem crc32 (m : Bytes) : Statement (.crc32 m) :=
  fun _ => ⟨rfl, rfl, byte_and 0x01#8⟩

theorem crcInit : Statement .crcInit :=
  fun _ => ⟨rfl, rfl, byte_and 0x02#8⟩

theorem crcStep (acc : U32) (byte : Byte) : Statement (.crcStep acc byte) :=
  fun _ => ⟨rfl, rfl, byte_and 0x03#8⟩

theorem crcFinal (acc : U32) : Statement (.crcFinal acc) :=
  fun _ => ⟨rfl, rfl, byte_and 0x04#8⟩

theorem lePut1 (v : Byte) : Statement (.lePut1 v) :=
  fun _ => ⟨rfl, rfl, byte_and 0x10#8⟩

theorem lePut2 (v : U16) : Statement (.lePut2 v) :=
  fun _ => ⟨rfl, rfl, byte_and 0x11#8⟩

theorem lePut4 (v : U32) : Statement (.lePut4 v) :=
  fun _ => ⟨rfl, rfl, byte_and 0x12#8⟩

theorem lePut8 (v : U64) : Statement (.lePut8 v) :=
  fun _ => ⟨rfl, rfl, byte_and 0x13#8⟩

theorem leGet1 (b : Bytes) (pos : Nat) : Statement (.leGet1 b pos) :=
  fun _ => ⟨rfl, rfl, byte_and 0x18#8⟩

theorem leGet2 (b : Bytes) (pos : Nat) : Statement (.leGet2 b pos) :=
  fun _ => ⟨rfl, rfl, byte_and 0x19#8⟩

theorem leGet4 (b : Bytes) (pos : Nat) : Statement (.leGet4 b pos) :=
  fun _ => ⟨rfl, rfl, byte_and 0x1A#8⟩

theorem leGet8 (b : Bytes) (pos : Nat) : Statement (.leGet8 b pos) :=
  fun _ => ⟨rfl, rfl, byte_and 0x1B#8⟩

theorem hdrEnc (version msgType : Byte) (flags : U16) (streamId : U32) (frameSeq numSlices : U64) :
    Statement (.hdrEnc version msgType flags streamId frameSeq numSlices) :=
  fun _ => ⟨rfl, rfl, byte_and 0x20#8⟩

theorem hdrDec (b : Bytes) (pos : Nat) : Statement (.hdrDec b pos) :=
  fun _ => ⟨rfl, rfl, byte_and 0x21#8⟩

theorem tagEnc (spaceHash32 : U32) (modality : Byte) : Statement (.tagEnc spaceHash32 modality) :=
  fun _ => ⟨rfl, rfl, byte_and 0x22#8⟩

theorem tagDec (b : Bytes) (pos : Nat) : Statement (.tagDec b pos) :=
  fun _ => ⟨rfl, rfl, byte_and 0x23#8⟩

theorem tblEnc (lens : List U32) : Statement (.tblEnc lens) :=
  fun _ => ⟨rfl, rfl, byte_and 0x30#8⟩

theorem tblDec (b : Bytes) (pos : Nat) (n : U64) : Statement (.tblDec b pos n) :=
  fun _ => ⟨rfl, rfl, byte_and 0x31#8⟩

theorem elemSize (dtype : Byte) : Statement (.elemSize dtype) :=
  fun _ => ⟨rfl, rfl, byte_and 0x40#8⟩

theorem plen (dtype : Byte) (shape : List U32) : Statement (.plen dtype shape) :=
  fun _ => ⟨rfl, rfl, byte_and 0x41#8⟩

theorem sliceEnc (d : SliceDescriptor) : Statement (.sliceEnc d) :=
  fun _ => ⟨rfl, rfl, byte_and 0x50#8⟩

theorem sliceDec (b : Bytes) (pos : Nat) (entry : U32) : Statement (.sliceDec b pos entry) :=
  fun _ => ⟨rfl, rfl, byte_and 0x51#8⟩

theorem frameEnc (f : Frame) : Statement (.frameEnc f) :=
  fun _ => ⟨rfl, rfl, byte_and 0x60#8⟩

theorem frameDec (b : Bytes) : Statement (.frameDec b) :=
  fun _ => ⟨rfl, rfl, byte_and 0x61#8⟩

theorem verify (b : Bytes) (p : Nat) : Statement (.verify b p) :=
  fun _ => ⟨rfl, rfl, byte_and 0x62#8⟩

theorem dispatch (f : Frame) : Statement (.dispatch f) :=
  fun _ => ⟨rfl, rfl, byte_and 0x70#8⟩

theorem dtypeF16 : Statement .dtypeF16 :=
  fun _ => ⟨rfl, rfl, byte_and 0x01#8⟩

theorem dtypeI8 : Statement .dtypeI8 :=
  fun _ => ⟨rfl, rfl, byte_and 0x02#8⟩

theorem dtypeQ4 : Statement .dtypeQ4 :=
  fun _ => ⟨rfl, rfl, byte_and 0x03#8⟩

theorem dtypeSparseCoo : Statement .dtypeSparseCoo :=
  fun _ => ⟨rfl, rfl, byte_and 0x10#8⟩

theorem dtypeUnrecognised (d : Byte) : Statement (.dtypeUnrecognised d) :=
  fun _ => ⟨rfl, rfl, Nat.and_zero _⟩

theorem msgThink : Statement .msgThink :=
  fun _ => ⟨rfl, rfl, byte_and 0x00#8⟩

theorem msgCache : Statement .msgCache :=
  fun _ => ⟨rfl, rfl, byte_and 0x01#8⟩

theorem msgAsk : Statement .msgAsk :=
  fun _ => ⟨rfl, rfl, byte_and 0x02#8⟩

theorem msgSync : Statement .msgSync :=
  fun _ => ⟨rfl, rfl, byte_and 0x03#8⟩

theorem msgCritique : Statement .msgCritique :=
  fun _ => ⟨rfl, rfl, byte_and 0x04#8⟩

theorem msgUnknown (v : Byte) : Statement (.msgUnknown v) :=
  fun _ => ⟨rfl, rfl, Nat.and_zero _⟩

theorem modText : Statement .modText :=
  fun _ => ⟨rfl, rfl, byte_and 0x00#8⟩

theorem modImage : Statement .modImage :=
  fun _ => ⟨rfl, rfl, byte_and 0x01#8⟩

theorem modAudio : Statement .modAudio :=
  fun _ => ⟨rfl, rfl, byte_and 0x02#8⟩

theorem modGraph : Statement .modGraph :=
  fun _ => ⟨rfl, rfl, byte_and 0x03#8⟩

theorem modMixed : Statement .modMixed :=
  fun _ => ⟨rfl, rfl, byte_and 0x04#8⟩

theorem modUnknown (v : Byte) : Statement (.modUnknown v) :=
  fun _ => ⟨rfl, rfl, Nat.and_zero _⟩

theorem flagCompressed (hi : BitVec 15) : Statement (.flagCompressed hi) :=
  fun _ => ⟨rfl, rfl, bytesOfFlags_and (flagsCompressed_and hi)⟩

theorem flagEncrypted (hi : BitVec 14) (lo : BitVec 1) : Statement (.flagEncrypted hi lo) :=
  fun _ => ⟨rfl, rfl, bytesOfFlags_and (flagsEncrypted_and hi lo)⟩

theorem flagStrongTail (hi : BitVec 13) (lo : BitVec 2) : Statement (.flagStrongTail hi lo) :=
  fun _ => ⟨rfl, rfl, bytesOfFlags_and (flagsStrongTail_and hi lo)⟩

theorem flagReserved (r : BitVec 13) (lo : BitVec 3) : Statement (.flagReserved r lo) :=
  fun _ => ⟨rfl, rfl, Nat.and_zero _⟩

theorem fmtHeader (job : WireJob) : Statement (.fmtHeader job) :=
  fun _ => ⟨rfl, rfl, Nat.and_zero _⟩

theorem fmtTable : Statement .fmtTable :=
  fun _ => ⟨rfl, rfl, Nat.and_zero _⟩

theorem fmtTag : Statement .fmtTag :=
  fun _ => ⟨rfl, rfl, Nat.and_zero _⟩

theorem fmtSlice : Statement .fmtSlice :=
  fun _ => ⟨rfl, rfl, Nat.and_zero _⟩

theorem fmtTrailer : Statement .fmtTrailer :=
  fun _ => ⟨rfl, rfl, Nat.and_zero _⟩

end Sys2Proof.Laws.TableWord
end

