-- ==== Sys2Proof/Tests/Slice0.lean ====
section
/-!
SUPPORT. Tests. Expected results come from `spec/95_test_vectors.md` (S1 to S10, P1 to P4, sections 2 to 8) and from the
examples and tables of the rules, named beside each theorem. Words are written out from `30_encoding.md` R71 to R74, R80.
The theorems named `witness_<obligation>` show states and operands that meet the hypotheses of that statement.
-/

namespace Sys2Proof.Tests

open Sys2Proof Sys2Proof.Machine

-- one theorem at a time: each kernel evaluation waits for those before it, and each wait holds a thread
set_option Elab.async false

/-! ### Helpers -/

/-- The next state, if there is one. -/
def nextOf : StepOutcome → Option State
  | .next t => some t
  | _ => none

theorem next_of {o : StepOutcome} {t : State} (h : nextOf o = some t) : o = .next t := by
  cases o <;> simp [nextOf] at h
  rw [h]

/-- The reason of a refusal, if it is one. -/
def stopOf : StepOutcome → Option Refusal
  | .refused r => some r
  | _ => none

/-- The machine with these requests handed over. -/
def withAll (s : State) (is : List Instr) : State := s.withRequests (is.map encode)

/-- The result a step hands back when the instruction is the oldest request. -/
def ask (s : State) (i : Instr) : Option Result := (nextOf (step (withAll s [i]))).bind fun t => t.results.getLast?

/-- Reset, with `Q4_POLICY = packed_nibble`. -/
def packed : State := { State.reset with cfg := { Config.default with q4Policy := .packedNibble } }

/-- Reset, with `MAX_BUFFER_LEN = m`. -/
def bounded (m : Nat) : State := { State.reset with cfg := { Config.default with maxBufferLen := some m } }

/-- Bytes from numbers. -/
def bs (l : List Nat) : Bytes := l.map (BitVec.ofNat 8)

/-! ### Frames and buffers of the spec's vectors -/

/-- The slice `(0x01, [2, 3], 01 02 .. 0C)` of section 7 and S6. -/
def slice23 : SliceDescriptor := ⟨0x01, [2, 3], bs [1, 2, 3, 4, 5, 6, 7, 8, 9, 10, 11, 12]⟩

/-- The slice `(0x02, [3], 61 62 63)` of section 7 and S10. -/
def sliceAbc : SliceDescriptor := ⟨0x02, [3], bs [0x61, 0x62, 0x63]⟩

/-- S2: all fields zero, no slices. -/
def frameS2 : Frame := ⟨0, 0, 0, 0, 0, 0, 0, []⟩

/-- S3: every opaque field at an extreme. -/
def frameS3 : Frame := ⟨255, 9, 0xFFFD, 0xFFFFFFFF, 0xFFFFFFFFFFFFFFFF, 0xFFFFFFFF, 200, []⟩

def bytesS3 : Bytes := bs [0xFF, 0x09, 0xFD, 0xFF, 0xFF, 0xFF, 0xFF, 0xFF, 0xFF, 0xFF, 0xFF, 0xFF, 0xFF, 0xFF, 0xFF, 0xFF,
  0, 0, 0, 0, 0, 0, 0, 0, 0xFF, 0xFF, 0xFF, 0xFF, 0xC8, 0xA5, 0xFB, 0x83, 0x8F]

/-- S6: the small frame. -/
def frameS6 : Frame := ⟨1, 0, 0x0004, 7, 0x0102030405060708, 0xDEADBEEF, 4, [slice23]⟩

/-- The 59 bytes of S6. -/
def bytesS6 : Bytes := bs [1, 0, 4, 0, 7, 0, 0, 0, 8, 7, 6, 5, 4, 3, 2, 1, 1, 0, 0, 0, 0, 0, 0, 0, 0x0C, 0, 0, 0,
  0xEF, 0xBE, 0xAD, 0xDE, 4, 1, 2, 2, 0, 0, 0, 3, 0, 0, 0, 1, 2, 3, 4, 5, 6, 7, 8, 9, 10, 11, 12, 0x53, 0x1C, 0xAA, 0x98]

/-- S6 with one byte changed. -/
def variantS6 (i v : Nat) : Bytes := bytesS6.set i (BitVec.ofNat 8 v)

/-- The divergence slice of S7. -/
def slice16 : SliceDescriptor := ⟨0x01, [16], bs (List.range 32)⟩

/-- The explanation slice of S7: the 15 bytes of a JSON object. -/
def sliceWhy : SliceDescriptor :=
  ⟨0x02, [15], bs [0x7B, 0x22, 0x77, 0x68, 0x79, 0x22, 0x3A, 0x22, 0x64, 0x72, 0x69, 0x66, 0x74, 0x22, 0x7D]⟩

/-- S7: the Critique frame. -/
def frameS7 : Frame := ⟨1, 4, 0, 0x11223344, 2, 0xA1B2C3D4, 0, [slice16, sliceWhy]⟩

/-- S8: the Critique frame with one slice. -/
def frameS8 : Frame := ⟨1, 4, 0, 0x11223344, 3, 0xA1B2C3D4, 0, [slice16]⟩

/-- S9: a Q4 slice. -/
def frameS9 : Frame := ⟨1, 0, 0, 0, 0, 0, 0, [⟨0x03, [5], bs [0x21, 0x43, 0x05]⟩]⟩

def bytesS9 : Bytes := bs [1, 0, 0, 0, 0, 0, 0, 0, 0, 0, 0, 0, 0, 0, 0, 0, 1, 0, 0, 0, 0, 0, 0, 0, 3, 0, 0, 0, 0, 0, 0, 0, 0,
  3, 1, 5, 0, 0, 0, 0x21, 0x43, 5, 0x82, 0, 0x63, 0x7D]

/-- S9b: an empty shape and a zero dimension. -/
def frameS9b : Frame := ⟨1, 0, 0, 0, 0, 0, 0, [⟨0x02, [], [0x7F]⟩, ⟨0x01, [0, 5], []⟩]⟩

def bytesS9b : Bytes := bs [1, 0, 0, 0, 0, 0, 0, 0, 0, 0, 0, 0, 0, 0, 0, 0, 2, 0, 0, 0, 0, 0, 0, 0, 1, 0, 0, 0, 0, 0, 0, 0,
  0, 0, 0, 0, 0, 2, 0, 0x7F, 1, 2, 0, 0, 0, 0, 5, 0, 0, 0, 0xE0, 0xC1, 0xC3, 0xCE]

/-- A Sync frame with this one payload, of I8. -/
def frameSync (payload : Bytes) : Frame :=
  ⟨1, 3, 0, 0x11223344, 4, 0xA1B2C3D4, 0, [⟨0x02, [BitVec.ofNat 32 payload.length], payload⟩]⟩

/-! ### WellFormed: an ill-formed term for each check, refused -/

theorem smoke_dtype_named : (Instr.dtypeUnrecognised 0x10).wellFormed = false := by decide
theorem smoke_msg_type_named : (Instr.msgUnknown 4).wellFormed = false := by decide
theorem smoke_modality_named : (Instr.modUnknown 0).wellFormed = false := by decide
theorem smoke_unnamed :
    (Instr.dtypeUnrecognised 0x0F).wellFormed = true ∧ (Instr.msgUnknown 5).wellFormed = true
      ∧ (Instr.modUnknown 255).wellFormed = true := by decide

/-! ### Decoding: every constructor, by a word written out from R80, R71 to R74 -/

theorem test_decode_crc :
    decode ⟨.operation, [0b00000001#8], [.bytes [0x61]]⟩ = .ok (.crc32 [0x61])
      ∧ decode ⟨.operation, [0b00000010#8], []⟩ = .ok .crcInit
      ∧ decode ⟨.operation, [0b00000011#8], [.u32 0x12345678, .u8 0xFF]⟩ = .ok (.crcStep 0x12345678 0xFF)
      ∧ decode ⟨.operation, [0b00000100#8], [.u32 0x174841BC]⟩ = .ok (.crcFinal 0x174841BC) := by decide

theorem test_decode_le_put :
    decode ⟨.operation, [0b00010000#8], [.u8 0xFF]⟩ = .ok (.lePut1 0xFF)
      ∧ decode ⟨.operation, [0b00010001#8], [.u16 0x1234]⟩ = .ok (.lePut2 0x1234)
      ∧ decode ⟨.operation, [0b00010010#8], [.u32 0x11223344]⟩ = .ok (.lePut4 0x11223344)
      ∧ decode ⟨.operation, [0b00010011#8], [.u64 0x0102030405060708]⟩ = .ok (.lePut8 0x0102030405060708) := by decide

theorem test_decode_le_get :
    decode ⟨.operation, [0b00011000#8], [.bytes [0xAA, 0x44], .nat 1]⟩ = .ok (.leGet1 [0xAA, 0x44] 1)
      ∧ decode ⟨.operation, [0b00011001#8], [.bytes [0xAA, 0x44], .nat 1]⟩ = .ok (.leGet2 [0xAA, 0x44] 1)
      ∧ decode ⟨.operation, [0b00011010#8], [.bytes [0xAA, 0x44], .nat 1]⟩ = .ok (.leGet4 [0xAA, 0x44] 1)
      ∧ decode ⟨.operation, [0b00011011#8], [.bytes [0xAA, 0x44], .nat 1]⟩ = .ok (.leGet8 [0xAA, 0x44] 1) := by decide

theorem test_decode_header_and_tag :
    decode ⟨.operation, [0b00100000#8], [.u8 1, .u8 3, .u16 0xFFFD, .u32 0x11223344, .u64 5, .u64 6]⟩
        = .ok (.hdrEnc 1 3 0xFFFD 0x11223344 5 6)
      ∧ decode ⟨.operation, [0b00100001#8], [.bytes [1], .nat 1]⟩ = .ok (.hdrDec [1] 1)
      ∧ decode ⟨.operation, [0b00100010#8], [.u32 0xA1B2C3D4, .u8 4]⟩ = .ok (.tagEnc 0xA1B2C3D4 4)
      ∧ decode ⟨.operation, [0b00100011#8], [.bytes [1], .nat 1]⟩ = .ok (.tagDec [1] 1) := by decide

theorem test_decode_table_and_length :
    decode ⟨.operation, [0b00110000#8], [.u32s [32, 15]]⟩ = .ok (.tblEnc [32, 15])
      ∧ decode ⟨.operation, [0b00110001#8], [.bytes [1], .nat 1, .u64 2]⟩ = .ok (.tblDec [1] 1 2)
      ∧ decode ⟨.operation, [0b01000000#8], [.u8 0x10]⟩ = .ok (.elemSize 0x10)
      ∧ decode ⟨.operation, [0b01000001#8], [.u8 1, .u32s [2, 3]]⟩ = .ok (.plen 1 [2, 3]) := by decide

theorem test_decode_slice_and_frame :
    decode ⟨.operation, [0b01010000#8], [.slice sliceAbc]⟩ = .ok (.sliceEnc sliceAbc)
      ∧ decode ⟨.operation, [0b01010001#8], [.bytes [1], .nat 1, .u32 3]⟩ = .ok (.sliceDec [1] 1 3)
      ∧ decode ⟨.operation, [0b01100000#8], [.frame frameS2]⟩ = .ok (.frameEnc frameS2)
      ∧ decode ⟨.operation, [0b01100001#8], [.bytes [1]]⟩ = .ok (.frameDec [1])
      ∧ decode ⟨.operation, [0b01100010#8], [.bytes [1], .nat 1]⟩ = .ok (.verify [1] 1)
      ∧ decode ⟨.operation, [0b01110000#8], [.frame frameS2]⟩ = .ok (.dispatch frameS2) := by decide

theorem test_decode_dtype :
    decode ⟨.dtype, [0x01#8], []⟩ = .ok .dtypeF16 ∧ decode ⟨.dtype, [0x02#8], []⟩ = .ok .dtypeI8
      ∧ decode ⟨.dtype, [0x03#8], []⟩ = .ok .dtypeQ4 ∧ decode ⟨.dtype, [0x10#8], []⟩ = .ok .dtypeSparseCoo
      ∧ [0x00#8, 0x04#8, 0x0F#8, 0x11#8, 0xFF#8].all
        (fun d => decode ⟨.dtype, [d], []⟩ == .ok (.dtypeUnrecognised d)) = true := by decide

theorem test_decode_msg_type :
    decode ⟨.msgType, [0#8], []⟩ = .ok .msgThink ∧ decode ⟨.msgType, [1#8], []⟩ = .ok .msgCache
      ∧ decode ⟨.msgType, [2#8], []⟩ = .ok .msgAsk ∧ decode ⟨.msgType, [3#8], []⟩ = .ok .msgSync
      ∧ decode ⟨.msgType, [4#8], []⟩ = .ok .msgCritique ∧ decode ⟨.msgType, [5#8], []⟩ = .ok (.msgUnknown 5)
      ∧ decode ⟨.msgType, [255#8], []⟩ = .ok (.msgUnknown 255) := by decide

theorem test_decode_modality :
    decode ⟨.modality, [0#8], []⟩ = .ok .modText ∧ decode ⟨.modality, [1#8], []⟩ = .ok .modImage
      ∧ decode ⟨.modality, [2#8], []⟩ = .ok .modAudio ∧ decode ⟨.modality, [3#8], []⟩ = .ok .modGraph
      ∧ decode ⟨.modality, [4#8], []⟩ = .ok .modMixed ∧ decode ⟨.modality, [5#8], []⟩ = .ok (.modUnknown 5)
      ∧ decode ⟨.modality, [255#8], []⟩ = .ok (.modUnknown 255) := by decide

/-- R72: bit 0 is the least significant bit of the byte at offset 2, bit 8 that of the byte at offset 3. -/
theorem test_decode_flags :
    decode ⟨.flagCompressed, [0b00000101#8, 0b10000000#8], []⟩ = .ok (.flagCompressed 0b100000000000010)
      ∧ decode ⟨.flagEncrypted, [0b00000011#8, 0b10000000#8], []⟩ = .ok (.flagEncrypted 0b10000000000000 0b1)
      ∧ decode ⟨.flagStrongTail, [0b00000110#8, 0b00000001#8], []⟩ = .ok (.flagStrongTail 0b0000000100000 0b10)
      ∧ decode ⟨.flagReserved, [0b00001101#8, 0b10000000#8], []⟩ = .ok (.flagReserved 0b1000000000001 0b101)
      ∧ decode ⟨.flagCompressed, [0xFE#8, 0xFF#8], []⟩ = .error .patternMismatch := by decide

theorem test_decode_wire :
    decode ⟨.header, [], [.job (.decode [1])]⟩ = .ok (.fmtHeader (.decode [1]))
      ∧ decode ⟨.table, [], []⟩ = .ok .fmtTable ∧ decode ⟨.tag, [], []⟩ = .ok .fmtTag
      ∧ decode ⟨.slice, [], []⟩ = .ok .fmtSlice ∧ decode ⟨.trailer, [], []⟩ = .ok .fmtTrailer := by decide

theorem test_decode_rejects :
    decode ⟨.operation, [0x05#8], []⟩ = .error .unknownSelector
      ∧ decode ⟨.operation, [0x71#8], []⟩ = .error .unknownSelector
      ∧ decode ⟨.operation, [], []⟩ = .error .wordWidth
      ∧ decode ⟨.operation, [0x02#8], [.u8 0]⟩ = .error .operandMismatch
      ∧ decode ⟨.operation, [0x11#8], [.u32 0]⟩ = .error .operandMismatch := by decide

theorem test_table_words :
    decodeTableWord 8 0x62 = some (.verify [] 0) ∧ decodeTableWord 8 0xFF = some (.msgUnknown 0xFF)
      ∧ decodeTableWord 16 0x0002 = some (.flagEncrypted 0 0) ∧ decodeTableWord 8 0x00 = some .msgThink := by decide

theorem test_fetch_word :
    (nextOf (step (State.reset.withFetchWord 8 0x02))).map (fun t => t.results)
      = some [.ok (.u32 0xFFFFFFFF)] := by decide

/-! ### The checksum unit (section 2, P4) -/

theorem test_crc32_check_value :
    ask State.reset (.crc32 (bs [0x31, 0x32, 0x33, 0x34, 0x35, 0x36, 0x37, 0x38, 0x39]))
      = some (.ok (.u32 0xCBF43926)) := by decide +kernel
theorem test_crc32_of_32_ff_bytes :
    ask State.reset (.crc32 (List.replicate 32 0xFF)) = some (.ok (.u32 0xFF6CAB0B)) := by decide +kernel
theorem test_crc_init : ask State.reset .crcInit = some (.ok (.u32 0xFFFFFFFF)) := by decide
theorem test_crc_step : ask State.reset (.crcStep 0x12345678 0xFF) = some (.ok (.u32 0x73CE22D5)) := by decide +kernel
theorem test_crc_final : ask State.reset (.crcFinal 0x641C1F5C) = some (.ok (.u32 0x9BE3E0A3)) := by decide
theorem test_crc_forms :
    crc32Msb (bs [0x61, 0x62, 0x63]) = 0x352441C2
      ∧ crcFinal ((bs [0x61, 0x62, 0x63]).foldl crcStepByTable crcInit) = 0x352441C2 := by decide +kernel

/-! ### The integer field codec (section 3) -/

theorem test_le_put1 : ask State.reset (.lePut1 255) = some (.ok (.bytes [0xFF])) := by decide
theorem test_le_put2 : ask State.reset (.lePut2 0xFFFD) = some (.ok (.bytes [0xFD, 0xFF])) := by decide
theorem test_le_put4 : ask State.reset (.lePut4 0x11223344) = some (.ok (.bytes [0x44, 0x33, 0x22, 0x11])) := by decide
theorem test_le_put8 :
    ask State.reset (.lePut8 0x0102030405060708) = some (.ok (.bytes [8, 7, 6, 5, 4, 3, 2, 1])) := by decide
theorem test_le_get1 : ask State.reset (.leGet1 [3, 0] 0) = some (.ok (.got1 3 1)) := by decide
theorem test_le_get1_at_the_end : ask State.reset (.leGet1 [0x7F] 1) = some (.error .truncatedInput) := by decide
theorem test_le_get2 : ask State.reset (.leGet2 [0x34, 0x12] 0) = some (.ok (.got2 0x1234 2)) := by decide
theorem test_le_get2_cut : ask State.reset (.leGet2 [0x34] 0) = some (.error .truncatedInput) := by decide
theorem test_le_get4 :
    ask State.reset (.leGet4 [0xAA, 0x44, 0x33, 0x22, 0x11] 1) = some (.ok (.got4 0x11223344 5)) := by decide
theorem test_le_get4_cut : ask State.reset (.leGet4 [0x44, 0x33, 0x22] 0) = some (.error .truncatedInput) := by decide
theorem test_le_get8 :
    ask State.reset (.leGet8 [8, 7, 6, 5, 4, 3, 2, 1] 0) = some (.ok (.got8 0x0102030405060708 8)) := by decide
theorem test_le_get8_cut :
    ask State.reset (.leGet8 [8, 7, 6, 5, 4, 3, 2] 0) = some (.error .truncatedInput) := by decide

/-! ### Header, tag group and table (sections 4, 5) -/

theorem test_hdr_enc :
    ask State.reset (.hdrEnc 1 0 0x0004 7 0x0102030405060708 1) = some (.ok (.bytes (bs
      [1, 0, 4, 0, 7, 0, 0, 0, 8, 7, 6, 5, 4, 3, 2, 1, 1, 0, 0, 0, 0, 0, 0, 0]))) := by decide
theorem test_hdr_dec :
    ask State.reset (.hdrDec bytesS6 0) = some (.ok (.header ⟨1, 0, 4, 7, 0x0102030405060708, 1⟩ 24)) := by
  decide +kernel
theorem test_hdr_dec_cut : ask State.reset (.hdrDec (bytesS6.take 23) 0) = some (.error .truncatedInput) := by
  decide +kernel
theorem test_tag_enc :
    ask State.reset (.tagEnc 0xA1B2C3D4 0) = some (.ok (.bytes [0xD4, 0xC3, 0xB2, 0xA1, 0])) := by decide
theorem test_tag_dec :
    ask State.reset (.tagDec [0xEF, 0xBE, 0xAD, 0xDE, 4] 0) = some (.ok (.tag 0xDEADBEEF 4 5)) := by decide
theorem test_tag_dec_cut :
    ask State.reset (.tagDec [0xEF, 0xBE, 0xAD, 0xDE] 0) = some (.error .truncatedInput) := by decide
theorem test_tbl_enc :
    ask State.reset (.tblEnc [32, 15]) = some (.ok (.bytes [0x20, 0, 0, 0, 0x0F, 0, 0, 0])) := by decide
theorem test_tbl_dec :
    ask State.reset (.tblDec [0x20, 0, 0, 0, 0x0F, 0, 0, 0] 0 2) = some (.ok (.table [32, 15] 8)) := by decide +kernel
theorem test_tbl_dec_does_not_wrap :
    ask State.reset (.tblDec [0x20, 0, 0, 0] 0 0x4000000000000001) = some (.error .truncatedInput) := by
  decide +kernel

/-! ### Payload length (`44_payload_length.md` R177, R184) and slices (section 7) -/

theorem test_elem_size_q4 :
    ask packed (.elemSize 0x03) = some (.ok (.elemSize 1 2))
      ∧ ask State.reset (.elemSize 0x03) = some (.error .unsupportedDtype) := by decide
theorem test_elem_size_sparse : ask packed (.elemSize 0x10) = some (.error .unsupportedDtype) := by decide
theorem test_plen_does_not_wrap :
    ask State.reset (.plen 0x02 [65536, 65536]) = some (.ok (.length 4294967296))
      ∧ ask State.reset (.plen 0x01 [2147483648]) = some (.ok (.length 4294967296)) := by decide +kernel
theorem test_plen_q4_rounds_up :
    ask packed (.plen 0x03 [5]) = some (.ok (.length 3)) ∧ ask State.reset (.plen 0x02 []) = some (.ok (.length 1)) := by
  decide +kernel
theorem test_slice_enc :
    ask State.reset (.sliceEnc slice23) = some (.ok (.bytes (bs
      [1, 2, 2, 0, 0, 0, 3, 0, 0, 0, 1, 2, 3, 4, 5, 6, 7, 8, 9, 10, 11, 12]))) := by decide +kernel
theorem test_slice_enc_refuses :
    stopOf (exec (.sliceEnc { slice23 with payload := [] }) State.reset) = some .illFormedSlice := by decide +kernel
theorem test_slice_dec :
    ask State.reset (.sliceDec (bs [2, 1, 3, 0, 0, 0, 0x61, 0x62, 0x63]) 0 3) = some (.ok (.slice sliceAbc 9)) := by
  decide +kernel
theorem test_slice_dec_cross_check_before_bounds :
    ask State.reset (.sliceDec (bs [2, 1, 3, 0, 0, 0, 0x61, 0x62]) 0 4) = some (.error .sizeMismatch)
      ∧ ask State.reset (.sliceDec (bs [3, 2, 1, 0]) 0 0) = some (.error .truncatedInput) := by decide +kernel

/-! ### Frames (section 8, P2) -/

theorem test_frame_enc_s6 : ask State.reset (.frameEnc frameS6) = some (.ok (.bytes bytesS6)) := by decide +kernel
theorem test_frame_enc_s9_refused :
    stopOf (exec (.frameEnc frameS9) State.reset) = some .illFormedFrame
      ∧ ask packed (.frameEnc frameS9) = some (.ok (.bytes bytesS9)) := by decide +kernel
theorem test_frame_dec_s6 :
    ask State.reset (.frameDec bytesS6) = some (.ok (.frame frameS6 0x98AA1C53)) := by decide +kernel
/-- S6 variants (b), (f), (k), (l), (m), (o), (q). -/
theorem test_frame_dec_s6_variants :
    ask State.reset (.frameDec (variantS6 24 0x0D)) = some (.error .sizeMismatch)
      ∧ ask State.reset (.frameDec (variantS6 33 0x03)) = some (.error .unsupportedDtype)
      ∧ ask State.reset (.frameDec (variantS6 34 0xFF)) = some (.error .truncatedInput)
      ∧ ask State.reset (.frameDec (variantS6 16 0x02)) = some (.error .unsupportedDtype)
      ∧ ask State.reset (.frameDec (variantS6 16 0x00)) = some (.error .integrityError)
      ∧ ask State.reset (.frameDec (variantS6 0 0x00)) = some (.error .integrityError)
      ∧ ask State.reset (.frameDec (bytesS6 ++ [0])) = some (.error .integrityError) := by decide +kernel
/-- R10, R281: a buffer one byte longer than the bound gets an error, whichever it is. -/
theorem test_frame_dec_overlong :
    exec (.frameDec bytesS6) (bounded 58)
      = .next ((bounded 58).deliver (.error (overlongError (bounded 58).cfg bytesS6))) := by
  simp only [exec, execFrameDec, decodeBuffer_eq, finish_eq,
    show bufferAccepted (bounded 58).cfg bytesS6 = false by decide]
  rfl
theorem test_verify :
    ask State.reset (.verify bytesS6 55) = some (.ok (.u32 0x98AA1C53)) := by decide +kernel
/-- P4, lines 16 to 18. -/
theorem test_verify_errors :
    ask State.reset (.verify (bs [0x31, 0x32, 0x33, 0x34, 0x35, 0x36, 0x37, 0x38, 0x39, 0x26, 0x39, 0xF4, 0xCA]) 9)
        = some (.error .integrityError)
      ∧ ask State.reset (.verify (bs [0x31, 0x32, 0x33, 0x34, 0x35, 0x36, 0x37, 0x38, 0x39, 0x26, 0x39, 0xF4]) 9)
        = some (.error .truncatedInput)
      ∧ ask State.reset (.verify (bs
        [0x31, 0x32, 0x33, 0x34, 0x35, 0x36, 0x37, 0x38, 0x39, 0x26, 0x39, 0xF4, 0xCB, 0]) 9)
        = some (.error .integrityError) := by decide +kernel

/-! ### The dispatcher (S3, S8, E7) -/

theorem test_dispatch_unknown_and_counts :
    ask State.reset (.dispatch frameS3) = some (.ok (.message (.unknown frameS3)))
      ∧ ask State.reset (.dispatch frameS8) = some (.error .decodeIncomplete)
      ∧ ask State.reset (.dispatch frameS6)
        = some (.ok (.message (.tensors [(slice23.dtype, slice23.shape, slice23.payload)]))) := by decide +kernel
/-- R251: DISPATCH checks no shape; a shape of 256 dimensions is dispatched like any other, and only the encoder refuses
the Frame (U1). -/
theorem test_long_shapes :
    ask State.reset (.dispatch { frameS3 with slices := [⟨0x02, List.replicate 256 1, [0]⟩] })
        = some (.ok (.message (.unknown { frameS3 with slices := [⟨0x02, List.replicate 256 1, [0]⟩] })))
      ∧ ask State.reset (.dispatch { frameS2 with slices := [⟨0x02, List.replicate 256 1, [0]⟩] })
        = some (.ok (.message (.tensors [(0x02, List.replicate 256 1, [0])])))
      ∧ stopOf (step (withAll State.reset [.frameEnc { frameS2 with slices := [⟨0x02, List.replicate 256 1, [0]⟩] }]))
        = some .illFormedFrame := by decide +kernel
/-- R249: a payload that is not UTF-8 (a lone continuation byte) is no JSON object. -/
theorem test_dispatch_not_utf8 :
    ask State.reset (.dispatch (frameSync [0x80])) = some (.error .malformedPayload) := by decide +kernel

/-! ### The selector fields (R71 to R74) -/

theorem test_dtype_f16 : ask State.reset .dtypeF16 = some (.ok (.elemSize 2 1)) := by decide
theorem test_dtype_i8 : ask State.reset .dtypeI8 = some (.ok (.elemSize 1 1)) := by decide
theorem test_dtype_q4 :
    ask State.reset .dtypeQ4 = some (.error .unsupportedDtype)
      ∧ ask packed .dtypeQ4 = some (.ok (.elemSize 1 2)) := by decide
theorem test_dtype_sparse : ask packed .dtypeSparseCoo = some (.error .unsupportedDtype) := by decide
theorem test_dtype_unrecognised : ask packed (.dtypeUnrecognised 0x04) = some (.error .unsupportedDtype) := by decide
theorem test_msg_types :
    [Instr.msgThink, .msgCache, .msgAsk, .msgSync, .msgCritique, .msgUnknown 9].map (ask State.reset)
      = [some (.ok (.msgType [0] .think)), some (.ok (.msgType [1] .cache)), some (.ok (.msgType [2] .ask)),
        some (.ok (.msgType [3] .sync)), some (.ok (.msgType [4] .critique)),
        some (.ok (.msgType [9] .unnamed))] := by decide
theorem test_modalities :
    [Instr.modText, .modImage, .modAudio, .modGraph, .modMixed, .modUnknown 200].map (ask State.reset)
      = [some (.ok (.modality [0] .text)), some (.ok (.modality [1] .image)), some (.ok (.modality [2] .audio)),
        some (.ok (.modality [3] .graph)), some (.ok (.modality [4] .mixed)),
        some (.ok (.modality [200] .unnamed))] := by decide
/-- S3: `flags = 0xFFFD` is `FD FF` on the wire, all bits but ENCRYPTED set. -/
theorem test_flags :
    ask State.reset (.flagCompressed 0x7FFE) = some (.ok (.flags [0xFD, 0xFF] ⟨true, false, true, 0x1FFF⟩))
      ∧ ask State.reset (.flagStrongTail 0x1FFF 0b01) = some (.ok (.flags [0xFD, 0xFF] ⟨true, false, true, 0x1FFF⟩))
      ∧ ask State.reset (.flagEncrypted 0 0) = some (.ok (.flags [0x02, 0x00] ⟨false, true, false, 0⟩))
      ∧ ask State.reset (.flagReserved 0x1000 0) = some (.ok (.flags [0x00, 0x80] ⟨false, false, false, 0x1000⟩)) := by
  decide +kernel

/-! ### The parts of a frame (P2, and the CRC registers of S6) -/

/-- The state after `k` steps of a frame operation done part by part. -/
def partsAt (j : WireJob) (k : Nat) : Option State :=
  nextOf (Host.Core.run Sys2Proof.core k (withAll State.reset [.fmtHeader j]))

/-- The cursor, the accumulator and the next part of a decoding in flight. -/
def decodeAt (k : Nat) : Option (Nat × U32 × Part) :=
  (partsAt (.decode bytesS6) k).bind fun t =>
    match t.job with
    | some (.decode j) => some (j.pos, j.acc, j.next)
    | _ => none

theorem test_fmt_header : decodeAt 1 = some (24, 0x28C19405, .table) := by decide +kernel
theorem test_fmt_table : decodeAt 2 = some (28, 0x60461153, .tag) := by decide +kernel
theorem test_fmt_tag : decodeAt 3 = some (33, 0x18A39428, .slice) := by decide +kernel
theorem test_fmt_slice : decodeAt 4 = some (55, 0x6755E3AC, .trailer) := by decide +kernel
theorem test_fmt_trailer :
    partsAt (.decode bytesS6) 5 = some (State.reset.deliver (.ok (.frame frameS6 0x98AA1C53)))
      ∧ partsAt (.encode frameS6) 5 = some (State.reset.deliver (.ok (.bytes bytesS6))) := by decide +kernel

/-! ### Witnesses: states and operands that meet the hypotheses of the statements

A statement with several clauses has a witness for each clause, at a boundary of its range. A statement that is not here has
no hypothesis beside its bound variables. -/

theorem wf_s2 : WF Config.default frameS2 := frameWF_iff.mp (by decide +kernel)
theorem wf_s6 : WF Config.default frameS6 := frameWF_iff.mp (by decide +kernel)
theorem wf_s7 : WF Config.default frameS7 := frameWF_iff.mp (by decide +kernel)
theorem wf_s9b : WF Config.default frameS9b := frameWF_iff.mp (by decide +kernel)
theorem wf_s9_packed : WF packed.cfg frameS9 := frameWF_iff.mp (by decide +kernel)
theorem not_wf_s9 : ¬ WF Config.default frameS9 := fun h => absurd (frameWF_iff.mpr h) (by decide +kernel)
theorem ready_23 : SliceReady Config.default slice23 := sliceReady_iff.mp (by decide +kernel)

theorem witness_CrcIsIncrementalAndAffine :
    (bs [0x61, 0x62, 0x63]).length = (bs [0x78, 0x79, 0x7A]).length
      ∧ (bs [0x78, 0x79, 0x7A]).length = (bs [0, 0, 0]).length := by decide

theorem witness_CrcDetectsSingleBitChanges : 0 < (bs [0x61]).length ∧ 7 < 8 := by decide

/-- A burst of exactly 32 bits, from bit 1 of the first byte to bit 0 of the fifth. -/
theorem witness_CrcDetectsBurstsOfThirtyTwoBits :
    (bs [0, 0, 0, 0, 0]).length = (bs [2, 0, 0, 0, 1]).length ∧ bs [0, 0, 0, 0, 0] ≠ bs [2, 0, 0, 0, 1]
      ∧ AgreeOutside (bs [0, 0, 0, 0, 0]) (bs [2, 0, 0, 0, 1]) 1 32 := by
  refine ⟨by decide, by decide, fun i h => ?_⟩
  have hi : i < 40 := by
    by_contra hc
    have h5 : 5 ≤ i / 8 := by omega
    exact h (by simp [bitAt, bs, List.getD_eq_getElem?_getD, h5])
  have hall : ∀ i < 40, bitAt (bs [0, 0, 0, 0, 0]) i ≠ bitAt (bs [2, 0, 0, 0, 1]) i → 1 ≤ i ∧ i < 1 + 32 := by decide
  exact hall i hi h

/-- The cursor at the end of the buffer; one byte short at each width. -/
theorem witness_LeGetAssemblesLowByteFirst :
    (1 ≤ (bs [0x7F]).length ∧ (bs [0x7F]).length - 1 < 1) ∧ (0 ≤ (bs [1]).length ∧ (bs [1]).length - 0 < 2)
      ∧ (1 ≤ (bs [9, 1, 2, 3]).length ∧ (bs [9, 1, 2, 3]).length - 1 < 4)
      ∧ (0 ≤ (bs [1, 2, 3, 4, 5, 6, 7]).length ∧ (bs [1, 2, 3, 4, 5, 6, 7]).length - 0 < 8) := by decide

theorem witness_LeCodecLaws :
    leGet1 [0xFF] 0 = .ok (0xFF, 1) ∧ leGet2 [0x34, 0x12] 0 = .ok (0x1234, 2)
      ∧ leGet4 [0xAA, 0x44, 0x33, 0x22, 0x11] 1 = .ok (0x11223344, 5)
      ∧ leGet8 [8, 7, 6, 5, 4, 3, 2, 1] 0 = .ok (0x0102030405060708, 8)
      ∧ leGet8 [8, 7, 6, 5, 4, 3, 2] 0 = .error .truncatedInput ∧ lePut2 7 = lePut2 7 := by decide

theorem witness_HeaderAndTagAreRead :
    (0 ≤ (bytesS6.take 23).length ∧ (bytesS6.take 23).length - 0 < 24)
      ∧ (bytesS6.length ≤ bytesS6.length ∧ bytesS6.length - bytesS6.length < 24)
      ∧ (0 ≤ (bs [1, 2, 3, 4]).length ∧ (bs [1, 2, 3, 4]).length - 0 < 5) := by decide

theorem witness_HeaderLaws : hdrDecode bytesS6 0 = .ok (⟨1, 0, 4, 7, 0x0102030405060708, 1⟩, 24) := by decide +kernel

/-- No entry, two entries; one entry short, and the count at which `4 * n` wraps in 64 bits. -/
theorem witness_TblDecReadsEveryEntryOrRaises :
    ([] : List U32).length = (0 : U64).toNat ∧ ([32, 15] : List U32).length = (2 : U64).toNat
      ∧ (0 ≤ (bs [1, 2, 3, 4, 5, 6, 7]).length ∧ 4 * (2 : U64).toNat > (bs [1, 2, 3, 4, 5, 6, 7]).length - 0)
      ∧ (0 ≤ (bs [0x20, 0, 0, 0]).length
        ∧ 4 * (0x4000000000000001 : U64).toNat > (bs [0x20, 0, 0, 0]).length - 0) := by decide

theorem witness_TableLaws :
    ([32, 15] : List U32).length < 2 ^ 64 ∧ tblDecode (bs [0x20, 0, 0, 0, 0x0F, 0, 0, 0]) 0 2 = .ok ([32, 15], 8) := by
  decide +kernel

/-- Both policies, and the bytes 0x00, 0x04, 0x10, 0xFF of the last clause. -/
theorem witness_ElemSizeFollowsTheDtypeTable :
    packed.cfg.q4Policy = .packedNibble ∧ State.reset.cfg.q4Policy = .reject
      ∧ ∀ d ∈ ([0x00, 0x04, 0x10, 0xFF] : List Byte), d ≠ 0x01#8 ∧ d ≠ 0x02#8 ∧ d ≠ 0x03#8 := by decide

/-- The empty shape and 255 dimensions, under both policies. -/
theorem witness_PlenIsExact :
    ([] : List U32).length ≤ 255 ∧ (List.replicate 255 (2 : U32)).length ≤ 255
      ∧ packed.cfg.q4Policy = .packedNibble ∧ State.reset.cfg.q4Policy = .reject
      ∧ (0x04#8 ≠ 0x01#8 ∧ 0x04#8 ≠ 0x02#8 ∧ 0x04#8 ≠ 0x03#8) := by decide +kernel

theorem witness_PlenIgnoresOrderAndVanishesAtZero :
    supported Config.default 0x01 = true ∧ (0#32 ∈ ([0, 5] : List U32)) ∧ ([2, 3] : List U32).Perm [3, 2]
      ∧ supported packed.cfg 0x03 = true := by
  refine ⟨by decide, by decide, List.Perm.swap _ _ _, by decide⟩

/-- The longest payload SLICE_ENC takes: one byte below 4 GiB (U1). -/
theorem ready_longest : SliceReady Config.default ⟨0x02, [65535, 65537], List.replicate (2 ^ 32 - 1) 0⟩ := by
  simp only [SliceReady, List.length_replicate]; decide

/-- 4 GiB of I8 elements: dtype, shape and payload agree, and the length alone keeps SLICE_ENC from taking them (U1). -/
theorem not_ready_4GiB : ¬ SliceReady Config.default ⟨0x02, [65536, 65536], List.replicate (2 ^ 32) 0⟩
    ∧ payloadLength Config.default 0x02 [65536, 65536] = .ok (2 ^ 32) := by
  simp only [SliceReady, List.length_replicate]; decide

/-- An F16 slice, an empty shape, an empty payload, the longest payload. -/
theorem witness_SliceEncIsLaidOut :
    SliceReady State.reset.cfg slice23 ∧ SliceReady State.reset.cfg ⟨0x02, [], [0x7F]⟩
      ∧ SliceReady State.reset.cfg ⟨0x01, [0, 5], []⟩
      ∧ SliceReady State.reset.cfg ⟨0x02, [65535, 65537], List.replicate (2 ^ 32 - 1) 0⟩ :=
  ⟨ready_23, sliceReady_iff.mp (by decide), sliceReady_iff.mp (by decide), ready_longest⟩

/-- A payload one byte short, a dtype that is not supported, a payload of 4 GiB, a Frame that holds an ill-formed slice. -/
theorem witness_EncodersRefuseIllFormedOperands :
    ¬ SliceReady State.reset.cfg ⟨0x02, [3], [1, 2]⟩ ∧ ¬ SliceReady State.reset.cfg ⟨0x10, [], []⟩
      ∧ ¬ SliceReady State.reset.cfg ⟨0x02, [65536, 65536], List.replicate (2 ^ 32) 0⟩
      ∧ ¬ WF State.reset.cfg frameS9 ∧ State.reset.job = none :=
  ⟨fun h => absurd (sliceReady_iff.mpr h) (by decide), fun h => absurd (sliceReady_iff.mpr h) (by decide), not_ready_4GiB.1,
    not_wf_s9, rfl⟩

theorem witness_SliceCodecLaws :
    SliceReady State.reset.cfg slice23
      ∧ sliceDecode Config.default (bs [2, 1, 3, 0, 0, 0, 0x61, 0x62, 0x63]) 0 3 = .ok (sliceAbc, 9)
      ∧ 0 < (sliceEncode slice23).length ∧ 21 < (sliceEncode slice23).length :=
  ⟨ready_23, by decide +kernel, by decide, by decide⟩

/-- One byte left; one byte short of a dimension; SparseCoo; an entry one off; a payload one byte short. -/
theorem witness_SliceDecChecksInOrder :
    (0 ≤ (bs [3]).length ∧ (bs [3]).length - 0 < 2) ∧ (bs [1, 0, 0]).length < 4 * (1 : Byte).toNat
      ∧ (([] : List U32).length = (0 : Byte).toNat
        ∧ payloadLength Config.default 0x10 [] = .error .unsupportedDtype)
      ∧ (([3] : List U32).length = (1 : Byte).toNat ∧ payloadLength Config.default 0x02 [3] = .ok 3
        ∧ 3 ≠ (4 : U32).toNat)
      ∧ (3 = (3 : U32).toNat ∧ (bs [0x61, 0x62]).length < 3) := by decide

theorem witness_FrameEncIsLaidOut :
    WF State.reset.cfg frameS2 ∧ WF State.reset.cfg frameS6 ∧ WF State.reset.cfg frameS9b ∧ WF packed.cfg frameS9 :=
  ⟨wf_s2, wf_s6, wf_s9b, wf_s9_packed⟩

/-- Three bytes left and none; a byte after the trailer; a wrong trailer; both right. -/
theorem witness_VerifyOutcomes :
    (1 ≤ (bs [9, 1, 2, 3]).length ∧ (bs [9, 1, 2, 3]).length - 1 < 4) ∧ (0 ≤ (bs []).length ∧ (bs []).length - 0 < 4)
      ∧ ((bs [0] ≠ [] ∨ crc32 (bs [0x61]) ≠ 0xE8B7BE43)
        ∧ (bs [] ≠ [] ∨ crc32 (bs [0x61]) ≠ 0xE8B7BE42))
      ∧ (bs [] = [] ∧ crc32 (bs [0x61]) = 0xE8B7BE43) := by decide +kernel

/-- A buffer one byte longer than the bound. -/
theorem witness_FrameDecIsTotal : (bounded 58).cfg.maxBufferLen = some 58 ∧ 58 < bytesS6.length := by decide +kernel

theorem witness_FrameDecInvertsFrameEnc :
    WF State.reset.cfg frameS6 ∧ bufferAccepted State.reset.cfg (frameEncode State.reset.cfg frameS6) = true :=
  ⟨wf_s6, rfl⟩

theorem witness_FrameEncInvertsFrameDec :
    exec (.frameDec bytesS6) State.reset = .next (State.reset.deliver (.ok (.frame frameS6 0x98AA1C53))) :=
  next_of (by decide +kernel)

/-- The empty prefix and the longest proper one. -/
theorem witness_TruncatedFramesRaiseTruncatedInput :
    WF State.reset.cfg frameS6 ∧ 0 < (frameEncode State.reset.cfg frameS6).length
      ∧ 58 < (frameEncode State.reset.cfg frameS6).length
      ∧ bufferAccepted State.reset.cfg ((frameEncode State.reset.cfg frameS6).take 58) = true :=
  ⟨wf_s6, by decide +kernel, by decide +kernel, rfl⟩

theorem witness_SingleBitChangesAreDetected :
    WF State.reset.cfg frameS6 ∧ 0 < (frameEncode State.reset.cfg frameS6).length
      ∧ 58 < (frameEncode State.reset.cfg frameS6).length ∧ 7 < 8 :=
  ⟨wf_s6, by decide +kernel, by decide +kernel, by decide⟩

/-- S6: the first and last offset of each of the four regions: 0 and 15, 28 and 32, 43 and 54, 55 and 58. -/
theorem witness_SingleBitChangesOfCarriedBytesRaiseIntegrityError :
    WF State.reset.cfg frameS6 ∧ (frameEncode State.reset.cfg frameS6).length = 59
      ∧ (∀ i k, bufferAccepted State.reset.cfg (flipBit (frameEncode State.reset.cfg frameS6) i k) = true)
      ∧ (0 < 16 ∧ 15 < 16)
      ∧ (24 + 4 * frameS6.slices.length ≤ 28 ∧ 32 < 29 + 4 * frameS6.slices.length)
      ∧ (frameS6.slices = [] ++ [slice23] ++ []
        ∧ 29 + 4 * frameS6.slices.length + (([] : List SliceDescriptor).flatMap wireSlice).length + 2
          + 4 * slice23.shape.length ≤ 43
        ∧ 54 < 29 + 4 * frameS6.slices.length + (([] : List SliceDescriptor).flatMap wireSlice).length
          + (wireSlice slice23).length)
      ∧ 59 - 4 ≤ 55 :=
  ⟨wf_s6, by decide +kernel, fun _ _ => rfl, by decide, by decide, by decide, by decide⟩

/-- A wrong trailer, and a byte after the right one. -/
theorem witness_WrongTrailersRaiseIntegrityError :
    WF State.reset.cfg frameS6
      ∧ bufferAccepted State.reset.cfg (wireBody frameS6 ++ le4 0x18AA1C53 ++ []) = true
      ∧ (([] : Bytes) ≠ [] ∨ crc32 (wireBody frameS6) ≠ 0x18AA1C53)
      ∧ (([0] : Bytes) ≠ [] ∨ crc32 (wireBody frameS6) ≠ 0x98AA1C53) :=
  ⟨wf_s6, rfl, by decide +kernel, .inl (by decide)⟩

/-- A Frame of this message type with these slices, all else zero. -/
def frameWith (msgType : Byte) (slices : List SliceDescriptor) : Frame := ⟨0, msgType, 0, 0, 0, 0, 0, slices⟩

/-- Message type 5; 4 with a SparseCoo slice; Sync with 0 and 2 slices; Think with 0 and 1; Critique with 1; Cache and
Ask with none. -/
theorem witness_DispatchFollowsTheMessageType :
    5 ≤ (frameWith 5 []).msgType.toNat
      ∧ ((frameWith 4 [⟨0x10, [], []⟩]).msgType.toNat < 5
        ∧ ∃ d ∈ (frameWith 4 [⟨0x10, [], []⟩]).slices, supported State.reset.cfg d.dtype = false)
      ∧ (∀ d ∈ [sliceAbc, slice23], supported State.reset.cfg d.dtype = true)
      ∧ ((frameWith 3 []).msgType = 3#8 ∧ (frameWith 3 []).slices.length ≠ 1)
      ∧ ((frameWith 3 [sliceAbc, slice23]).msgType = 3#8 ∧ (frameWith 3 [sliceAbc, slice23]).slices.length ≠ 1)
      ∧ ((frameWith 0 []).msgType = 0#8 ∧ (frameWith 0 []).slices = [])
      ∧ ((frameWith 0 [sliceAbc]).msgType = 0#8 ∧ (frameWith 0 [sliceAbc]).slices ≠ [])
      ∧ ((frameWith 4 [slice23]).msgType = 4#8 ∧ (frameWith 4 [slice23]).slices.length < 2)
      ∧ (frameWith 1 []).msgType = 1#8 ∧ (frameWith 2 []).msgType = 2#8 := by decide +kernel

theorem witness_DispatchNeedsJsonObjects :
    ((frameWith 3 [sliceWhy]).msgType = 3#8 ∧ (frameWith 3 [sliceWhy]).slices = [sliceWhy]
        ∧ supported State.reset.cfg sliceWhy.dtype = true)
      ∧ (frameS7.msgType = 4#8 ∧ frameS7.slices = slice16 :: sliceWhy :: []
        ∧ ∀ x ∈ frameS7.slices, supported State.reset.cfg x.dtype = true)
      ∧ utf8Valid (bs [0x80]) = false := by decide +kernel

theorem witness_DtypeRowsGiveElementSizes :
    packed.cfg.q4Policy = .packedNibble ∧ State.reset.cfg.q4Policy = .reject ∧ dtypeUnnamed 0x00 = true
      ∧ dtypeUnnamed 0x0F = true ∧ dtypeUnnamed 0x11 = true ∧ dtypeUnnamed 0xFF = true := by decide

theorem witness_EnumerationRowsAreCarried : 5 ≤ (5 : Byte).toNat ∧ 5 ≤ (255 : Byte).toNat := by decide

/-! ### Witnesses for a frame operation in flight -/

/-- The header of S6. -/
def headerS6 : Header := ⟨1, 0, 4, 7, 0x0102030405060708, 1⟩

/-- The working variables of the decoding of S6 before each part, the accumulators from S6. -/
def jobTable : DecodeJob := ⟨bytesS6, 24, 0x28C19405, headerS6, [], 0, 0, [], .table⟩
def jobTag : DecodeJob := ⟨bytesS6, 28, 0x60461153, headerS6, [12], 0, 0, [], .tag⟩
def jobSlice : DecodeJob := ⟨bytesS6, 33, 0x18A39428, headerS6, [12], 0xDEADBEEF, 4, [], .slice⟩
def jobTrailer : DecodeJob := ⟨bytesS6, 55, 0x6755E3AC, headerS6, [12], 0xDEADBEEF, 4, [slice23], .trailer⟩

/-- Reset with this decoding in flight. -/
def decoding (j : DecodeJob) : State := State.reset.withJob (.decode j)

/-- Reset with this encoding in flight. -/
def encoding (j : EncodeJob) : State := State.reset.withJob (.encode j)

/-- An encoding of S6 that has written these bytes and has these slices left. -/
def encodeJob (out : Bytes) (todo : List SliceDescriptor) (next : Part) : EncodeJob :=
  ⟨frameS6, out, absorb crcInit out, todo, next⟩

theorem witness_DecodingPartsReadTheirStage :
    (State.reset.job = none ∧ bufferAccepted State.reset.cfg bytesS6 = true
        ∧ hdrDecode bytesS6 0 = .ok (headerS6, 24))
      ∧ ((decoding jobTable).job = some (.decode jobTable) ∧ jobTable.next = .table
        ∧ tblDecode jobTable.b jobTable.pos jobTable.header.numSlices = .ok ([12], 28))
      ∧ ((decoding jobTag).job = some (.decode jobTag) ∧ jobTag.next = .tag
        ∧ tagDecode jobTag.b jobTag.pos = .ok ((0xDEADBEEF, 4), 33))
      ∧ ((decoding jobSlice).job = some (.decode jobSlice) ∧ jobSlice.next = .slice
        ∧ jobSlice.tbl[jobSlice.slices.length]? = some 12
        ∧ sliceDecode (decoding jobSlice).cfg jobSlice.b jobSlice.pos 12 = .ok (slice23, 55))
      ∧ ((decoding jobTrailer).job = some (.decode jobTrailer) ∧ jobTrailer.next = .trailer
        ∧ leGet4 jobTrailer.b jobTrailer.pos = .ok (crcFinal jobTrailer.acc, 59) ∧ 59 = jobTrailer.b.length) := by
  decide +kernel

/-- S6 cut in the table, the tag group, the slice and the trailer; SparseCoo; the trailer of variant (p); one byte after
the trailer. -/
def cutTable : DecodeJob := { jobTable with b := bytesS6.take 27 }
def cutTag : DecodeJob := { jobTag with b := bytesS6.take 32 }
def cutSlice : DecodeJob := { jobSlice with b := bytesS6.take 54 }
def sparseSlice : DecodeJob := { jobSlice with b := variantS6 33 0x10 }
def cutTrailer : DecodeJob := { jobTrailer with b := bytesS6.take 58 }
def wrongTrailer : DecodeJob := { jobTrailer with b := variantS6 58 0x18 }
def longTrailer : DecodeJob := { jobTrailer with b := bytesS6 ++ [0] }

theorem witness_PartErrorsEndTheOperation :
    (State.reset.job = none ∧ bufferAccepted State.reset.cfg (bytesS6.take 23) = true ∧ (bytesS6.take 23).length < 24)
      ∧ ((bounded 58).job = none ∧ (bounded 58).cfg.maxBufferLen = some 58 ∧ 58 < bytesS6.length)
      ∧ (∀ j, (decoding j).job = some (.decode j))
      ∧ (cutTable.next = .table
        ∧ tblDecode cutTable.b cutTable.pos cutTable.header.numSlices = .error .truncatedInput)
      ∧ (cutTag.next = .tag ∧ tagDecode cutTag.b cutTag.pos = .error .truncatedInput)
      ∧ (cutSlice.next = .slice ∧ cutSlice.tbl[cutSlice.slices.length]? = some 12
        ∧ sliceDecode (decoding cutSlice).cfg cutSlice.b cutSlice.pos 12 = .error .truncatedInput)
      ∧ (sparseSlice.next = .slice ∧ sparseSlice.tbl[sparseSlice.slices.length]? = some 12
        ∧ sliceDecode (decoding sparseSlice).cfg sparseSlice.b sparseSlice.pos 12 = .error .unsupportedDtype)
      ∧ (cutTrailer.next = .trailer ∧ leGet4 cutTrailer.b cutTrailer.pos = .error .truncatedInput)
      ∧ (wrongTrailer.next = .trailer ∧ leGet4 wrongTrailer.b wrongTrailer.pos = .ok (0x18AA1C53, 59)
        ∧ (59 ≠ wrongTrailer.b.length ∨ 0x18AA1C53#32 ≠ crcFinal wrongTrailer.acc))
      ∧ (longTrailer.next = .trailer ∧ leGet4 longTrailer.b longTrailer.pos = .ok (0x98AA1C53, 59)
        ∧ (59 ≠ longTrailer.b.length ∨ 0x98AA1C53#32 ≠ crcFinal longTrailer.acc)) :=
  ⟨by decide +kernel, by decide +kernel, fun _ => rfl, by decide +kernel⟩

theorem witness_EncodingPartsAppendTheirBytes :
    (State.reset.job = none ∧ WF State.reset.cfg frameS6)
      ∧ (encodeJob (bytesS6.take 24) [slice23] .table).next = .table
      ∧ (encodeJob (bytesS6.take 28) [slice23] .tag).next = .tag
      ∧ ((encodeJob (bytesS6.take 33) [slice23] .slice).next = .slice
        ∧ (encodeJob (bytesS6.take 33) [slice23] .slice).todo = slice23 :: [])
      ∧ (encodeJob (bytesS6.take 55) [] .trailer).next = .trailer
      ∧ ∀ j, (encoding j).job = some (.encode j) :=
  ⟨⟨rfl, wf_s6⟩, rfl, rfl, ⟨rfl, rfl⟩, rfl, fun _ => rfl⟩

theorem witness_PartsOutOfOrderAreRefused :
    (decoding jobTable).job ≠ none ∧ (∀ j, State.reset.job = some j → nextPart j ≠ .trailer)
      ∧ ∀ j, (decoding jobTable).job = some j → nextPart j ≠ .slice := by
  refine ⟨by simp [decoding], by simp [State.reset], fun j h => ?_⟩
  simp only [decoding, withJob_job, Option.some.injEq] at h
  rw [← h]
  decide

theorem witness_DecodingByPartsIsFrameDec :
    State.reset.requests = [] ∧ State.reset.job = none
      ∧ ([] : Bytes).length + 4 ≤ 4 ∧ bytesS6.length + 4 ≤ 63 := by decide

theorem witness_EncodingByPartsIsFrameEnc :
    State.reset.requests = [] ∧ State.reset.job = none ∧ WF State.reset.cfg frameS6
      ∧ frameS6.slices.length + 4 ≤ 5 :=
  ⟨rfl, rfl, wf_s6, by decide⟩

theorem inv_jobTable : (decoding jobTable).Inv := by
  show DecodeInv Config.default jobTable
  exact ⟨by decide +kernel, by decide +kernel, by decide +kernel, by decide +kernel, rfl, rfl, rfl⟩

theorem inv_jobSlice : (decoding jobSlice).Inv := by
  show DecodeInv Config.default jobSlice
  exact ⟨by decide +kernel, by decide +kernel, by decide +kernel, by decide +kernel, by decide, 28, 33,
    by decide +kernel, by decide +kernel, by decide +kernel⟩

theorem inv_jobTrailer : (decoding jobTrailer).Inv := by
  show DecodeInv Config.default jobTrailer
  exact ⟨by decide +kernel, by decide +kernel, by decide +kernel, by decide +kernel, by decide, 28, 33,
    by decide +kernel, by decide +kernel, by decide +kernel⟩

theorem inv_encode : (encoding (encodeJob (bytesS6.take 24) [slice23] .table)).Inv := by
  show EncodeInv Config.default _
  exact ⟨by decide +kernel, by decide +kernel, List.suffix_refl _, by decide +kernel, by decide +kernel⟩

theorem witness_FrameOperationsInFlightEnd :
    ((decoding jobSlice).Inv ∧ (decoding jobSlice).job ≠ none ∧ (decoding jobSlice).requests = [])
      ∧ (encoding (encodeJob (bytesS6.take 24) [slice23] .table)).Inv
      ∧ (encoding (encodeJob (bytesS6.take 24) [slice23] .table)).job ≠ none :=
  ⟨⟨inv_jobSlice, by simp [decoding], rfl⟩, inv_encode, by simp [encoding]⟩

theorem witness_AtomicOperationsOnlyDeliver :
    atomic .crcInit = true ∧ exec .crcInit State.reset = .next (State.reset.deliver (.ok (.u32 0xFFFFFFFF))) :=
  ⟨rfl, rfl⟩

/-- A part of a decoding and one of an encoding that go on, and one that ends. -/
theorem witness_PartsLeaveTheRestUnchanged :
    (atomic .fmtTable = false ∧ exec .fmtTable (decoding jobTable) = .next (decoding jobTag))
      ∧ (∃ t, exec .fmtTable (encoding (encodeJob (bytesS6.take 24) [slice23] .table)) = .next t ∧ t.job ≠ none)
      ∧ (atomic .fmtTrailer = false ∧ exec .fmtTrailer (decoding jobTrailer)
        = .next (State.reset.deliver (.ok (.frame frameS6 0x98AA1C53)))) :=
  ⟨⟨rfl, next_of (by decide +kernel)⟩, ⟨_, rfl, by simp [encoding]⟩, rfl, next_of (by decide +kernel)⟩

theorem witness_ConfigurationNeverChanges : step State.reset = .next State.reset := rfl

theorem witness_ErrorsAreThoseOfTheRow :
    exec (.leGet1 [] 0) State.reset = .next (State.reset.deliver (.error .truncatedInput))
      ∧ (State.reset.deliver (.error .truncatedInput)).results = State.reset.results ++ [.error .truncatedInput] :=
  ⟨rfl, rfl⟩

theorem witness_ResultsDependOnOperandsAndConfigurationOnly :
    atomic (.elemSize 0x03) = true ∧ State.reset.cfg = (decoding jobTable).cfg := ⟨rfl, rfl⟩

theorem witness_QueuedOperationsGiveTheirOwnResults :
    List.Forall₂ (fun i r => atomic i = true ∧ i.wellFormed = true
      ∧ ∀ u : State, u.cfg = State.reset.cfg → exec i u = .next (u.deliver r))
      [.crcInit, .leGet1 [] 0] [.ok (.u32 0xFFFFFFFF), .error .truncatedInput] :=
  .cons ⟨rfl, rfl, fun _ _ => rfl⟩ (.cons ⟨rfl, rfl, fun _ _ => rfl⟩ .nil)

theorem witness_OnlyVerifiedFramesAreDelivered :
    (State.reset.Inv ∧ exec (.frameDec bytesS6) State.reset
        = .next (State.reset.deliver (.ok (.frame frameS6 0x98AA1C53)))
        ∧ (State.reset.deliver (.ok (.frame frameS6 0x98AA1C53))).results
          = State.reset.results ++ [.ok (.frame frameS6 0x98AA1C53)])
      ∧ ((decoding jobTrailer).Inv ∧ exec .fmtTrailer (decoding jobTrailer)
        = .next (State.reset.deliver (.ok (.frame frameS6 0x98AA1C53)))) :=
  ⟨⟨trivial, next_of (by decide +kernel), rfl⟩, inv_jobTrailer, next_of (by decide +kernel)⟩

theorem witness_StepsKeepTheInvariant :
    (decoding jobTable).Inv ∧ step (decoding jobTable) = .next (decoding jobTag) :=
  ⟨inv_jobTable, next_of (by decide +kernel)⟩

/-- A request that decodes, one that does not, a part that comes next, nothing to do. -/
theorem witness_StepRunsTheDecodedInstruction :
    ((withAll State.reset [.crcInit]).requests = [encode .crcInit] ∧ decode (encode .crcInit) = .ok .crcInit)
      ∧ decode ⟨.operation, [0x05#8], []⟩ = .error .unknownSelector
      ∧ ((decoding jobTable).requests = [] ∧ (decoding jobTable).job = some (.decode jobTable))
      ∧ (State.reset.requests = [] ∧ State.reset.job = none) := by decide +kernel

theorem witness_DecodeInvertsEncode :
    (Instr.leGet4 [0x7F] 1).wellFormed = true ∧ (Instr.dtypeUnrecognised 0x0F).wellFormed = true
      ∧ (Instr.flagEncrypted 0x3FFF 0).wellFormed = true := by decide

theorem witness_EncodeInvertsDecode :
    decode ⟨.flagStrongTail, [0x05#8, 0x80#8], []⟩ = .ok (.flagStrongTail 0x1000#13 0b01#2) := by decide

/-- A cursor one past the end; 256 dimensions. -/
theorem witness_OperandsOutsideTheirDomainAreRefused :
    (bs [0x7F]).length < 2 ∧ 255 < (List.replicate 256 (1 : U32)).length := by decide +kernel

end Sys2Proof.Tests
end

