-- ==== Sys2Proof/Proofs/Scope.lean ====
section
/-!
PROOFS of the family `00_scope.md`. What a step and each instruction can do, said once: an atomic operation only delivers
its result, a part of a frame operation goes on or ends. That no step changes the configuration (R10) follows. The
refusals outside an operand's domain (R17) are those of `atCursor` and `onShape`.
-/

namespace Sys2Proof.Machine

/-! ### Operands outside their domain -/

/-- An operation on a cursor past the end of its buffer is refused (R17, R125). -/
theorem atCursor_refused {b : Bytes} {pos : Nat} (h : b.length < pos) (r : Result) (s : State) :
    atCursor b pos r s = .refused .cursorOutsideBuffer := by
  rw [atCursor, if_neg (Nat.not_le_of_lt h)]

/-- An operation on a shape of more than 255 dimensions is refused (R17, R180). -/
theorem onShape_refused {shape : List U32} (h : 255 < shape.length) (r : Result) (s : State) :
    onShape shape r s = .refused .shapeTooLong := by
  rw [onShape, if_neg (Nat.not_le_of_lt h)]

/-- Settles O60: each of the nine decoding operations runs at its cursor, and PLEN on its shape. -/
theorem operandsOutsideTheirDomainAreRefused : Obligations.OperandsOutsideTheirDomainAreRefused := by
  unfold Obligations.OperandsOutsideTheirDomainAreRefused
  refine ⟨fun s b pos n entry h => ?_, fun s dtype shape h => onShape_refused h _ s⟩
  have refused (r : Result) : atCursor b pos r s = .refused .cursorOutsideBuffer := atCursor_refused h r s
  exact ⟨refused _, refused _, refused _, refused _, refused _, refused _, refused _, refused _, refused _⟩

/-! ### What an instruction can do -/

theorem finish_next {r : Result} {s t : State} (h : finish r s = .next t) : t = s.deliver r := by
  rw [finish_eq] at h
  cases h; rfl

/-- SLICE_ENC that answers had a slice it takes (R197). -/
theorem execSliceEnc_next {d : SliceDescriptor} {s t : State} (h : execSliceEnc d s = .next t) :
    sliceReady s.cfg d = true ∧ t = s.deliver (.ok (.bytes (sliceEncode d))) := by
  rw [execSliceEnc] at h
  split at h
  · next hd => exact ⟨hd, finish_next h⟩
  · cases h

/-- FRAME_ENC that answers had a well-formed Frame (R216). -/
theorem execFrameEnc_next {f : Frame} {s t : State} (h : execFrameEnc f s = .next t) :
    frameWF s.cfg f = true ∧ t = s.deliver (.ok (.bytes (frameEncode s.cfg f))) := by
  rw [execFrameEnc] at h
  split at h
  · next hf => exact ⟨hf, finish_next h⟩
  · cases h

/-- An atomic operation that answers a next state has delivered one result and done nothing else (R20, R280): it checks
its cursor, its shape, its slice or its Frame where it has one, and ends. -/
theorem exec_atomic_next {i : Instr} {s t : State} (hi : atomic i = true) (h : exec i s = .next t) :
    ∃ r, t = s.deliver r := by
  cases i with
  | leGet1 | leGet2 | leGet4 | leGet8 | hdrDec | tagDec | tblDec | sliceDec | verify => exact ⟨_, (atCursor_next h).2⟩
  | plen => exact ⟨_, (onShape_next h).2⟩
  | sliceEnc => exact ⟨_, (execSliceEnc_next h).2⟩
  | frameEnc => exact ⟨_, (execFrameEnc_next h).2⟩
  | fmtHeader | fmtTable | fmtTag | fmtSlice | fmtTrailer => cases hi
  | _ =>
    dsimp only [exec] at h
    exact ⟨_, finish_next h⟩

/-! ### What a part of a frame operation can do -/

/-- FMT_HEADER begins a decoding, or an encoding of a well-formed Frame, when no frame operation is in flight. -/
theorem execFmtHeader_next {job : WireJob} {s t : State} (h : execFmtHeader job s = .next t) :
    s.job = none ∧ ((∃ b, job = .decode b ∧ goOn (decodeHeader s.cfg b) s = .next t)
      ∨ ∃ f, job = .encode f ∧ frameWF s.cfg f = true ∧ t = s.withJob (.encode (encodeHeader f))) := by
  unfold execFmtHeader at h
  split at h
  · cases h
  · next hn =>
    refine ⟨hn, ?_⟩
    cases job with
    | decode b => exact .inl ⟨b, rfl, h⟩
    | encode f =>
      dsimp only at h
      split at h
      · next hf => exact .inr ⟨f, rfl, hf, by cases h; rfl⟩
      · cases h

/-- FMT_TABLE goes on with a frame operation whose next part it is. -/
theorem execFmtTable_next {s t : State} (h : execFmtTable s = .next t) :
    (∃ j, s.job = some (.decode j) ∧ j.next = .table ∧ goOn (decodeTable j) s = .next t)
      ∨ ∃ j, s.job = some (.encode j) ∧ j.next = .table ∧ t = s.withJob (.encode (encodeTable s.cfg j)) := by
  unfold execFmtTable at h
  split at h
  · next j hj =>
    split at h
    · next hp => exact .inl ⟨j, hj, hp, h⟩
    · cases h
  · next j hj =>
    split at h
    · next hp => exact .inr ⟨j, hj, hp, by cases h; rfl⟩
    · cases h
  · cases h

/-- FMT_TAG goes on with a frame operation whose next part it is. -/
theorem execFmtTag_next {s t : State} (h : execFmtTag s = .next t) :
    (∃ j, s.job = some (.decode j) ∧ j.next = .tag ∧ goOn (decodeTag j) s = .next t)
      ∨ ∃ j, s.job = some (.encode j) ∧ j.next = .tag ∧ t = s.withJob (.encode (encodeTag j)) := by
  unfold execFmtTag at h
  split at h
  · next j hj =>
    split at h
    · next hp => exact .inl ⟨j, hj, hp, h⟩
    · cases h
  · next j hj =>
    split at h
    · next hp => exact .inr ⟨j, hj, hp, by cases h; rfl⟩
    · cases h
  · cases h

/-- FMT_SLICE goes on with a frame operation whose next part it is, at the table's entry or the Frame's slice. -/
theorem execFmtSlice_next {s t : State} (h : execFmtSlice s = .next t) :
    (∃ j entry, s.job = some (.decode j) ∧ j.next = .slice ∧ j.tbl[j.slices.length]? = some entry
        ∧ goOn (decodeSlice s.cfg j entry) s = .next t)
      ∨ ∃ j d rest, s.job = some (.encode j) ∧ j.next = .slice ∧ j.todo = d :: rest
        ∧ t = s.withJob (.encode (encodeSlice j d rest)) := by
  unfold execFmtSlice at h
  split at h
  · next j hj =>
    split at h
    · next hp =>
      split at h
      · next entry he => exact .inl ⟨j, entry, hj, hp, he, h⟩
      · cases h
    · cases h
  · next j hj =>
    split at h
    · next hp =>
      split at h
      · next d rest hd => exact .inr ⟨j, d, rest, hj, hp, hd, by cases h; rfl⟩
      · cases h
    · cases h
  · cases h

/-- FMT_TRAILER ends a frame operation whose next part it is. -/
theorem execFmtTrailer_next {s t : State} (h : execFmtTrailer s = .next t) :
    (∃ j, s.job = some (.decode j) ∧ j.next = .trailer ∧ t = s.endJob.deliver (decodeTrailer s.cfg j))
      ∨ ∃ j, s.job = some (.encode j) ∧ j.next = .trailer ∧ t = s.endJob.deliver (encodeTrailer j) := by
  unfold execFmtTrailer at h
  split at h
  · next j hj =>
    split at h
    · next hp => exact .inl ⟨j, hj, hp, finish_next h⟩
    · cases h
  · next j hj =>
    split at h
    · next hp => exact .inr ⟨j, hj, hp, finish_next h⟩
    · cases h
  · cases h

/-- A part that answers a next state goes on with new working variables, or ends its frame operation with one result. -/
theorem exec_part_next {i : Instr} {s t : State} (hi : atomic i = false) (h : exec i s = .next t) :
    (∃ j, t = s.withJob j) ∨ ∃ r, t = s.endJob.deliver r := by
  have going {x : Except Error Job} (hx : goOn x s = .next t) :
      (∃ j, t = s.withJob j) ∨ ∃ r, t = s.endJob.deliver r := by
    obtain ⟨j, -, ht⟩ | ⟨e, -, ht⟩ := goOn_next hx
    · exact .inl ⟨j, ht⟩
    · exact .inr ⟨_, ht⟩
  cases i with
  | fmtHeader job =>
    obtain ⟨-, ⟨_, -, hg⟩ | ⟨_, -, -, ht⟩⟩ := execFmtHeader_next h
    · exact going hg
    · exact .inl ⟨_, ht⟩
  | fmtTable =>
    obtain ⟨_, -, -, hg⟩ | ⟨_, -, -, ht⟩ := execFmtTable_next h
    · exact going hg
    · exact .inl ⟨_, ht⟩
  | fmtTag =>
    obtain ⟨_, -, -, hg⟩ | ⟨_, -, -, ht⟩ := execFmtTag_next h
    · exact going hg
    · exact .inl ⟨_, ht⟩
  | fmtSlice =>
    obtain ⟨_, _, -, -, -, hg⟩ | ⟨_, _, _, -, -, -, ht⟩ := execFmtSlice_next h
    · exact going hg
    · exact .inl ⟨_, ht⟩
  | fmtTrailer =>
    obtain ⟨_, -, -, ht⟩ | ⟨_, -, -, ht⟩ := execFmtTrailer_next h <;> exact .inr ⟨_, ht⟩
  | _ => cases hi

/-! ### The configuration -/

/-- No instruction changes the configuration. -/
theorem exec_cfg {i : Instr} {s t : State} (h : exec i s = .next t) : t.cfg = s.cfg := by
  cases hi : atomic i with
  | true =>
    obtain ⟨r, rfl⟩ := exec_atomic_next hi h
    rfl
  | false =>
    obtain ⟨j, rfl⟩ | ⟨r, rfl⟩ := exec_part_next hi h <;> rfl

/-- A step runs the oldest request's instruction, or the next part in flight, or leaves the state as it is (log
entries 2 and 6). -/
theorem step_next {s t : State} (h : step s = .next t) :
    (∃ r rest i, s.requests = r :: rest ∧ decode r = .ok i ∧ exec i (s.withRequests rest) = .next t)
      ∨ (∃ j, s.requests = [] ∧ s.job = some j ∧ exec (partInstr (nextPart j)) s = .next t)
      ∨ (s.requests = [] ∧ s.job = none ∧ t = s) := by
  unfold step at h
  split at h
  · next r rest hr =>
    split at h
    · next i hd => exact .inl ⟨r, rest, i, hr, hd, h⟩
    · cases h
  · next hr =>
    split at h
    · next j hj => exact .inr (.inl ⟨j, hr, hj, h⟩)
    · next hj => exact .inr (.inr ⟨hr, hj, by cases h; rfl⟩)

/-- Settles O49: the one instruction a step runs, if any, leaves the configuration as it is. -/
theorem configurationNeverChanges : Obligations.ConfigurationNeverChanges := by
  unfold Obligations.ConfigurationNeverChanges
  intro s t h
  obtain ⟨_, rest, _, -, -, hx⟩ | ⟨_, -, -, hx⟩ | ⟨-, -, rfl⟩ := step_next h
  · exact (exec_cfg hx).trans (withRequests_cfg s rest)
  · exact exec_cfg hx
  · rfl

end Sys2Proof.Machine
end

