-- ==== Sys2Proof/Proofs/State.lean ====
section
/-!
PROOFS of the family `10_state.md`. Every step keeps the invariant: each stage of FRAME_DEC moves the cursor over the
bytes it reads and each line of FRAME_ENC appends the bytes it writes, so the clauses about the bytes passed are proved
once for all stages (`CursorInv.advanceTo`, `OutputInv.appendOut`), and each stage adds the fields of its own. That an
atomic operation only delivers its result (R20), and that the result depends on operands and configuration only, come
last.
-/

namespace Sys2Proof.Machine

/-! ### Where a read leaves the cursor -/

theorem hdrDecode_le {b : Bytes} {pos q : Nat} {h : Header} (hr : hdrDecode b pos = .ok (h, q)) :
    pos ≤ q ∧ q ≤ b.length := by
  obtain ⟨hat, rfl⟩ := hdrDecode_ok_iff.mp hr
  have := hat.room
  rw [hdrEncode_length] at this
  omega

theorem tblDecode_le {b : Bytes} {pos q : Nat} {n : U64} {tbl : List U32} (hp : pos ≤ b.length)
    (hr : tblDecode b pos n = .ok (tbl, q)) : pos ≤ q ∧ q ≤ b.length := by
  obtain ⟨hat, hn, rfl⟩ := (tblDecode_ok_iff hp).mp hr
  have := hat.room
  rw [tblEncode, putU32s_length] at this
  omega

theorem tagDecode_le {b : Bytes} {pos q : Nat} {tag : U32 × Byte} (hr : tagDecode b pos = .ok (tag, q)) :
    pos ≤ q ∧ q ≤ b.length := by
  obtain ⟨hat, rfl⟩ := tagDecode_ok_iff.mp hr
  have := hat.room
  rw [tagEncode_length] at this
  omega

theorem sliceDecode_le {cfg : Config} {b : Bytes} {pos q : Nat} {entry : U32} {d : SliceDescriptor}
    (hr : sliceDecode cfg b pos entry = .ok (d, q)) : pos ≤ q ∧ q ≤ b.length := by
  obtain ⟨hat, -, -, rfl⟩ := sliceDecode_ok_iff.mp hr
  exact ⟨Nat.le_add_right _ _, hat.room⟩

/-- Stage 4 of FRAME_DEC takes one more slice at its end. -/
theorem decodeSlices_append_singleton {cfg : Config} {b : Bytes} {es : List U32} {e : U32} {pos q q' : Nat}
    {ds : List SliceDescriptor} {d : SliceDescriptor} (hs : decodeSlices cfg b pos es = .ok (ds, q))
    (hd : sliceDecode cfg b q e = .ok (d, q')) : decodeSlices cfg b pos (es ++ [e]) = .ok (ds ++ [d], q') := by
  induction es generalizing pos ds with
  | nil =>
    cases hs
    rw [List.nil_append, decodeSlices, hd]
    rfl
  | cons e' es ih =>
    simp only [decodeSlices, bind_ok_iff, Prod.exists] at hs
    obtain ⟨d', p, hd', ds', p', hds, heq⟩ := hs
    cases heq
    simp only [List.cons_append, decodeSlices, bind_ok_iff, Prod.exists]
    exact ⟨d', p, hd', _, _, ih hds, rfl⟩

/-! ### What the invariant says of the working variables -/

/-- The invariant of a frame operation's working variables. -/
def JobInv (cfg : Config) : Job → Prop
  | .decode j => DecodeInv cfg j
  | .encode j => EncodeInv cfg j

theorem State.Inv.job {s : State} {j : Job} (hs : s.Inv) (hj : s.job = some j) : JobInv s.cfg j := by
  rw [State.Inv, hj] at hs
  cases j <;> exact hs

theorem inv_of_job_none {s : State} (hj : s.job = none) : s.Inv := by
  rw [State.Inv, hj]
  trivial

theorem withJob_inv {s : State} {j : Job} (h : JobInv s.cfg j) : (s.withJob j).Inv := by
  cases j <;> exact h

/-- The clauses of `DecodeInv` every stage keeps: the cursor in the buffer, the accumulator of the bytes before it, and
the header read (R25, R45, R235). -/
def CursorInv (cfg : Config) (j : DecodeJob) : Prop :=
  bufferAccepted cfg j.b = true ∧ j.pos ≤ j.b.length ∧ j.acc = absorb crcInit (j.b.take j.pos) ∧
    hdrDecode j.b 0 = .ok (j.header, Config.headerBytes)

/-- Table, tag group and the slices so far are what the stages of FRAME_DEC read up to the cursor. -/
def SlicesRead (cfg : Config) (j : DecodeJob) : Prop :=
  ∃ p q, tblDecode j.b Config.headerBytes j.header.numSlices = .ok (j.tbl, p)
    ∧ tagDecode j.b p = .ok ((j.spaceHash32, j.modality), q)
    ∧ decodeSlices cfg j.b q (j.tbl.take j.slices.length) = .ok (j.slices, j.pos)

theorem decodeInv_table {cfg : Config} {j : DecodeJob} (hn : j.next = .table) :
    DecodeInv cfg j ↔ CursorInv cfg j ∧ j.pos = Config.headerBytes ∧ j.tbl = [] ∧ j.slices = [] := by
  simp only [DecodeInv, CursorInv, hn, and_assoc]

theorem decodeInv_tag {cfg : Config} {j : DecodeJob} (hn : j.next = .tag) :
    DecodeInv cfg j ↔ CursorInv cfg j
      ∧ tblDecode j.b Config.headerBytes j.header.numSlices = .ok (j.tbl, j.pos) ∧ j.slices = [] := by
  simp only [DecodeInv, CursorInv, hn, and_assoc]

theorem decodeInv_slice {cfg : Config} {j : DecodeJob} (hn : j.next = .slice) :
    DecodeInv cfg j ↔ CursorInv cfg j ∧ j.slices.length < j.tbl.length ∧ SlicesRead cfg j := by
  simp only [DecodeInv, CursorInv, SlicesRead, hn, and_assoc]

theorem decodeInv_trailer {cfg : Config} {j : DecodeJob} (hn : j.next = .trailer) :
    DecodeInv cfg j ↔ CursorInv cfg j ∧ j.slices.length = j.tbl.length ∧ SlicesRead cfg j := by
  simp +contextual only [DecodeInv, CursorInv, SlicesRead, hn, and_assoc, and_congr_right_iff, List.take_length,
    implies_true]

/-- After the tag group or a slice: the invariant of the part that comes next, whether a slice or the trailer. -/
theorem decodeInv_sliceOrTrailer {cfg : Config} {j : DecodeJob}
    (hn : j.next = sliceOrTrailer (decide (j.slices.length < j.tbl.length))) (hc : CursorInv cfg j)
    (hl : j.slices.length ≤ j.tbl.length) (hr : SlicesRead cfg j) : DecodeInv cfg j := by
  by_cases hlt : j.slices.length < j.tbl.length
  · exact (decodeInv_slice (by rw [hn, decide_eq_true hlt]; rfl)).mpr ⟨hc, hlt, hr⟩
  · exact (decodeInv_trailer (by rw [hn, decide_eq_false hlt]; rfl)).mpr ⟨hc, by omega, hr⟩

theorem CursorInv.pos_le {cfg : Config} {j : DecodeJob} (h : CursorInv cfg j) : j.pos ≤ j.b.length := by
  obtain ⟨-, hp, -, -⟩ := h
  exact hp

/-- The cursor moves on within the buffer and the accumulator with it. -/
theorem CursorInv.advanceTo {cfg : Config} {j : DecodeJob} {q : Nat} (h : CursorInv cfg j)
    (hq : j.pos ≤ q ∧ q ≤ j.b.length) : CursorInv cfg (advanceTo j q) := by
  obtain ⟨hb, -, hacc, hh⟩ := h
  obtain ⟨k, rfl⟩ := Nat.exists_eq_add_of_le hq.1
  refine ⟨hb, hq.2, ?_, hh⟩
  rw [advanceTo_acc, hacc, ← absorb_append, Nat.add_sub_cancel_left, subBytes, ← List.take_add]
  rfl

/-- The clauses of `EncodeInv` every stage keeps: a well-formed Frame, the accumulator of the output, and the slices
left being the Frame's last (R217, R235). -/
def OutputInv (cfg : Config) (j : EncodeJob) : Prop :=
  frameWF cfg j.frame = true ∧ j.acc = absorb crcInit j.out ∧ j.todo <:+ j.frame.slices

/-- What FRAME_ENC writes before the slices. -/
def encodedTable (cfg : Config) (f : Frame) : Bytes :=
  hdrEncode (frameHeader f) ++ tblEncode (f.slices.map (tableEntry cfg))

/-- The output up to the slices so far. -/
def SlicesWritten (cfg : Config) (j : EncodeJob) : Prop :=
  j.out = encodedTable cfg j.frame ++ tagEncode j.frame.spaceHash32 j.frame.modality
    ++ (writtenSlices j).flatMap sliceEncode

theorem encodeInv_table {cfg : Config} {j : EncodeJob} (hn : j.next = .table) :
    EncodeInv cfg j ↔ OutputInv cfg j ∧ j.todo = j.frame.slices ∧ j.out = hdrEncode (frameHeader j.frame) := by
  simp only [EncodeInv, OutputInv, hn, and_assoc]

theorem encodeInv_tag {cfg : Config} {j : EncodeJob} (hn : j.next = .tag) :
    EncodeInv cfg j ↔ OutputInv cfg j ∧ j.todo = j.frame.slices ∧ j.out = encodedTable cfg j.frame := by
  simp only [EncodeInv, OutputInv, encodedTable, hn, and_assoc]

theorem encodeInv_slice {cfg : Config} {j : EncodeJob} (hn : j.next = .slice) :
    EncodeInv cfg j ↔ OutputInv cfg j ∧ j.todo ≠ [] ∧ SlicesWritten cfg j := by
  simp only [EncodeInv, OutputInv, SlicesWritten, encodedTable, hn, and_assoc]

/-- The slices written are those before the ones left. -/
theorem writtenSlices_of_append {j : EncodeJob} {done : List SliceDescriptor} (h : j.frame.slices = done ++ j.todo) :
    writtenSlices j = done := by
  simp [writtenSlices, h]

theorem encodeInv_trailer {cfg : Config} {j : EncodeJob} (hn : j.next = .trailer) :
    EncodeInv cfg j ↔ OutputInv cfg j ∧ j.todo = [] ∧ SlicesWritten cfg j := by
  have hall (ht : j.todo = []) : writtenSlices j = j.frame.slices :=
    writtenSlices_of_append (by rw [ht, List.append_nil])
  simp +contextual only [EncodeInv, OutputInv, SlicesWritten, encodedTable, frameBody, hn, and_assoc,
    and_congr_right_iff, hall, implies_true]

/-- After the tag group or a slice: the invariant of the part that comes next, whether a slice or the trailer. -/
theorem encodeInv_sliceOrTrailer {cfg : Config} {j : EncodeJob}
    (hn : j.next = sliceOrTrailer (decide (0 < j.todo.length))) (ho : OutputInv cfg j) (hw : SlicesWritten cfg j) :
    EncodeInv cfg j := by
  by_cases hlt : 0 < j.todo.length
  · exact (encodeInv_slice (by rw [hn, decide_eq_true hlt]; rfl)).mpr ⟨ho, List.ne_nil_of_length_pos hlt, hw⟩
  · exact (encodeInv_trailer (by rw [hn, decide_eq_false hlt]; rfl)).mpr ⟨ho, by simpa using hlt, hw⟩

/-- The output grows and the accumulator with it. -/
theorem OutputInv.appendOut {cfg : Config} {j : EncodeJob} (h : OutputInv cfg j) (x : Bytes) :
    OutputInv cfg (appendOut j x) := by
  obtain ⟨hwf, hacc, htodo⟩ := h
  exact ⟨hwf, by rw [appendOut_acc, appendOut_out, hacc, absorb_append], htodo⟩

/-! ### Each stage of FRAME_DEC keeps the invariant -/

theorem decodeHeader_inv {cfg : Config} {b : Bytes} {k : Job} (hk : decodeHeader cfg b = .ok k) : JobInv cfg k := by
  simp only [decodeHeader, bind_ok_iff, Prod.exists] at hk
  obtain ⟨_, hb, h, q, hh, heq⟩ := hk
  cases heq
  obtain ⟨-, rfl⟩ := hdrDecode_ok_iff.mp hh
  have start : CursorInv cfg (startDecode b h) := ⟨acceptBuffer_ok hb, Nat.zero_le _, rfl, hh⟩
  exact (decodeInv_table rfl).mpr ⟨start.advanceTo (hdrDecode_le hh), rfl, rfl, rfl⟩

theorem decodeTable_inv {cfg : Config} {j : DecodeJob} {k : Job} (hj : DecodeInv cfg j) (hn : j.next = .table)
    (hk : decodeTable j = .ok k) : JobInv cfg k := by
  obtain ⟨hc, hpos, -, hs⟩ := (decodeInv_table hn).mp hj
  simp only [decodeTable, bind_ok_iff, Prod.exists] at hk
  obtain ⟨tbl, q, ht, heq⟩ := hk
  cases heq
  refine (decodeInv_tag rfl).mpr ⟨hc.advanceTo (tblDecode_le hc.pos_le ht), ?_, hs⟩
  rw [← hpos]
  exact ht

theorem decodeTag_inv {cfg : Config} {j : DecodeJob} {k : Job} (hj : DecodeInv cfg j) (hn : j.next = .tag)
    (hk : decodeTag j = .ok k) : JobInv cfg k := by
  obtain ⟨hc, ht, hs⟩ := (decodeInv_tag hn).mp hj
  simp only [decodeTag, bind_ok_iff, Prod.exists] at hk
  obtain ⟨_, _, q, hg, heq⟩ := hk
  cases heq
  refine decodeInv_sliceOrTrailer ?_ (hc.advanceTo (tagDecode_le hg)) ?_ ⟨j.pos, q, ht, hg, ?_⟩
  · simp [hs]
  · simp [hs]
  · show decodeSlices cfg j.b q (j.tbl.take j.slices.length) = .ok (j.slices, q)
    rw [hs]
    rfl

theorem decodeSlice_inv {cfg : Config} {j : DecodeJob} {entry : U32} {k : Job} (hj : DecodeInv cfg j)
    (hn : j.next = .slice) (he : j.tbl[j.slices.length]? = some entry) (hk : decodeSlice cfg j entry = .ok k) :
    JobInv cfg k := by
  obtain ⟨hc, hlt, p, q, ht, hg, hs⟩ := (decodeInv_slice hn).mp hj
  simp only [decodeSlice, bind_ok_iff, Prod.exists] at hk
  obtain ⟨d, r, hd, heq⟩ := hk
  cases heq
  refine decodeInv_sliceOrTrailer ?_ (hc.advanceTo (sliceDecode_le hd)) ?_ ⟨p, q, ht, hg, ?_⟩
  · simp
  · simpa using hlt
  · have hsnoc := decodeSlices_append_singleton hs hd
    simpa [List.take_add_one, he] using hsnoc

/-! ### Each line of FRAME_ENC keeps the invariant -/

theorem encodeHeader_inv {cfg : Config} {f : Frame} (hf : frameWF cfg f = true) :
    EncodeInv cfg (encodeHeader f) := by
  have start : OutputInv cfg (startEncode f) := ⟨hf, rfl, List.suffix_refl _⟩
  exact (encodeInv_table rfl).mpr ⟨start.appendOut _, rfl, rfl⟩

theorem encodeTable_inv {cfg : Config} {j : EncodeJob} (hj : EncodeInv cfg j) (hn : j.next = .table) :
    EncodeInv cfg (encodeTable cfg j) := by
  obtain ⟨ho, htodo, hout⟩ := (encodeInv_table hn).mp hj
  refine (encodeInv_tag rfl).mpr ⟨ho.appendOut _, htodo, ?_⟩
  simp [encodeTable, encodedTable, hout]

theorem encodeTag_inv {cfg : Config} {j : EncodeJob} (hj : EncodeInv cfg j) (hn : j.next = .tag) :
    EncodeInv cfg (encodeTag j) := by
  obtain ⟨ho, htodo, hout⟩ := (encodeInv_tag hn).mp hj
  refine encodeInv_sliceOrTrailer rfl (ho.appendOut _) ?_
  have hw : writtenSlices (encodeTag j) = [] := writtenSlices_of_append htodo.symm
  rw [SlicesWritten, hw]
  simp [encodeTag, hout]

theorem encodeSlice_inv {cfg : Config} {j : EncodeJob} {d : SliceDescriptor} {rest : List SliceDescriptor}
    (hj : EncodeInv cfg j) (hn : j.next = .slice) (hd : j.todo = d :: rest) :
    EncodeInv cfg (encodeSlice j d rest) := by
  obtain ⟨ho, -, hout⟩ := (encodeInv_slice hn).mp hj
  obtain ⟨hwf, hacc, -⟩ := ho.appendOut (sliceEncode d)
  obtain ⟨-, -, done, hdone⟩ := ho
  have hslices : j.frame.slices = (done ++ [d]) ++ rest := by simp [← hdone, hd]
  have hw : writtenSlices j = done := writtenSlices_of_append hdone.symm
  have hw' : writtenSlices (encodeSlice j d rest) = done ++ [d] := writtenSlices_of_append hslices
  refine encodeInv_sliceOrTrailer rfl ⟨hwf, hacc, done ++ [d], hslices.symm⟩ ?_
  rw [SlicesWritten, hw] at hout
  rw [SlicesWritten, hw']
  simp [encodeSlice, hout]

/-! ### Every step keeps the invariant -/

/-- A stage that goes on keeps the invariant when its working variables meet it; one that raises leaves none. -/
theorem goOn_inv {x : Except Error Job} {s t : State} (h : goOn x s = .next t)
    (hx : ∀ j, x = .ok j → JobInv s.cfg j) : t.Inv := by
  obtain ⟨j, hj, rfl⟩ | ⟨e, -, rfl⟩ := goOn_next h
  · exact withJob_inv (hx j hj)
  · exact inv_of_job_none rfl

/-- Every instruction keeps the invariant: an atomic one leaves the working variables alone, a part goes on by its stage
or ends. -/
theorem exec_inv {i : Instr} {s t : State} (hs : s.Inv) (h : exec i s = .next t) : t.Inv := by
  cases i with
  | fmtHeader job =>
    obtain ⟨-, ⟨b, -, hg⟩ | ⟨f, -, hf, rfl⟩⟩ := execFmtHeader_next h
    · exact goOn_inv hg fun _ => decodeHeader_inv
    · exact withJob_inv (encodeHeader_inv hf)
  | fmtTable =>
    obtain ⟨j, hj, hn, hg⟩ | ⟨j, hj, hn, rfl⟩ := execFmtTable_next h
    · exact goOn_inv hg fun _ => decodeTable_inv (hs.job hj) hn
    · exact withJob_inv (encodeTable_inv (hs.job hj) hn)
  | fmtTag =>
    obtain ⟨j, hj, hn, hg⟩ | ⟨j, hj, hn, rfl⟩ := execFmtTag_next h
    · exact goOn_inv hg fun _ => decodeTag_inv (hs.job hj) hn
    · exact withJob_inv (encodeTag_inv (hs.job hj) hn)
  | fmtSlice =>
    obtain ⟨j, entry, hj, hn, he, hg⟩ | ⟨j, d, rest, hj, hn, hd, rfl⟩ := execFmtSlice_next h
    · exact goOn_inv hg fun _ => decodeSlice_inv (hs.job hj) hn he
    · exact withJob_inv (encodeSlice_inv (hs.job hj) hn hd)
  | fmtTrailer =>
    obtain ⟨_, -, -, rfl⟩ | ⟨_, -, -, rfl⟩ := execFmtTrailer_next h <;> exact inv_of_job_none rfl
  | _ =>
    obtain ⟨r, rfl⟩ := exec_atomic_next rfl h
    exact hs

/-- Settles O54: a step runs one instruction, with the oldest request taken off the queue or not, or does nothing. -/
theorem stepsKeepTheInvariant : Obligations.StepsKeepTheInvariant := by
  unfold Obligations.StepsKeepTheInvariant
  intro s t hs h
  obtain ⟨_, rest, _, -, -, hx⟩ | ⟨_, -, -, hx⟩ | ⟨-, -, rfl⟩ := step_next h
  · exact exec_inv (s := s.withRequests rest) hs hx
  · exact exec_inv hs hx
  · exact hs

/-! ### Atomic operations -/

/-- Settles O47: what an atomic operation that answers can do. -/
theorem atomicOperationsOnlyDeliver : Obligations.AtomicOperationsOnlyDeliver := by
  unfold Obligations.AtomicOperationsOnlyDeliver
  exact fun _ _ _ => exec_atomic_next

/-- Two outcomes, one from each of two states, are the same answer: one result, or one refusal (R20, R290). -/
def SameAnswer (s s' : State) (o o' : StepOutcome) : Prop :=
  (∃ r, o = .next (s.deliver r) ∧ o' = .next (s'.deliver r)) ∨ ∃ why, o = .refused why ∧ o' = .refused why

theorem finish_sameAnswer (r : Result) (s s' : State) : SameAnswer s s' (finish r s) (finish r s') :=
  .inl ⟨r, finish_eq r s, finish_eq r s'⟩

/-- An operation that first tests its cursor, shape, slice or Frame: the test decides the same way in both states. -/
theorem guarded_sameAnswer (c : Prop) [Decidable c] (r : Result) (why : Refusal) (s s' : State) :
    SameAnswer s s' (if c then finish r s else .refused why) (if c then finish r s' else .refused why) := by
  split
  · exact finish_sameAnswer r s s'
  · exact .inr ⟨why, rfl, rfl⟩

/-- An atomic operation reads its operands and the configuration only: its result is the same expression in both states
(R20, R282). -/
theorem exec_atomic_sameAnswer {i : Instr} (hi : atomic i = true) {s s' : State} (hc : s.cfg = s'.cfg) :
    SameAnswer s s' (exec i s) (exec i s') := by
  obtain ⟨cfg, requests, results, job⟩ := s
  obtain rfl : cfg = s'.cfg := hc
  cases i with
  | fmtHeader | fmtTable | fmtTag | fmtSlice | fmtTrailer => cases hi
  | leGet1 | leGet2 | leGet4 | leGet8 | hdrDec | tagDec | tblDec | sliceDec | verify | plen | sliceEnc | frameEnc =>
    exact guarded_sameAnswer _ _ _ _ s'
  | _ =>
    dsimp only [exec]
    exact finish_sameAnswer _ _ s'

/-- Settles O51: the two states differ in what an atomic operation does not read. -/
theorem resultsDependOnOperandsAndConfigurationOnly : Obligations.ResultsDependOnOperandsAndConfigurationOnly := by
  unfold Obligations.ResultsDependOnOperandsAndConfigurationOnly
  exact fun _ _ _ hi hc => exec_atomic_sameAnswer hi hc

end Sys2Proof.Machine
end

