-- ==== Sys2Proof/Proofs/Memory.lean ====
section
/-!
PROOFS of the family `20_memory.md`. A frame operation in flight ends (R53): `partsLeft` counts the parts still to come,
the next part of a state that meets the invariant is never refused, and it ends the operation or leaves one part fewer.
Operations issued one after the other give their own results (R50): a request decodes to the instruction that was
encoded, and an atomic one only appends its result.
-/

namespace Sys2Proof.Machine

/-! ### Runs -/

/-- A run begins with a step. -/
theorem run_succ_of_step {s t : State} (h : step s = .next t) (k : Nat) :
    Host.Core.run core (k + 1) s = Host.Core.run core k t := by
  have hc : core.step s = .next t := h
  simp only [Host.Core.run, hc]

/-- With no request waiting, a step runs the next part in flight (log entry 6). -/
theorem step_of_job {s : State} {j : Job} (hr : s.requests = []) (hj : s.job = some j) :
    step s = exec (partInstr (nextPart j)) s := by
  rw [step, hr, hj]

/-! ### The part that comes next runs -/

theorem exec_table_decode {s : State} {j : DecodeJob} (hj : s.job = some (.decode j)) (hn : j.next = .table) :
    exec .fmtTable s = goOn (decodeTable j) s := by
  simp only [exec, execFmtTable, hj, hn, if_pos]

theorem exec_table_encode {s : State} {j : EncodeJob} (hj : s.job = some (.encode j)) (hn : j.next = .table) :
    exec .fmtTable s = .next (s.withJob (.encode (encodeTable s.cfg j))) := by
  simp only [exec, execFmtTable, hj, hn, if_pos, goOn]

theorem exec_tag_decode {s : State} {j : DecodeJob} (hj : s.job = some (.decode j)) (hn : j.next = .tag) :
    exec .fmtTag s = goOn (decodeTag j) s := by
  simp only [exec, execFmtTag, hj, hn, if_pos]

theorem exec_tag_encode {s : State} {j : EncodeJob} (hj : s.job = some (.encode j)) (hn : j.next = .tag) :
    exec .fmtTag s = .next (s.withJob (.encode (encodeTag j))) := by
  simp only [exec, execFmtTag, hj, hn, if_pos, goOn]

theorem exec_slice_decode {s : State} {j : DecodeJob} {entry : U32} (hj : s.job = some (.decode j))
    (hn : j.next = .slice) (he : j.tbl[j.slices.length]? = some entry) :
    exec .fmtSlice s = goOn (decodeSlice s.cfg j entry) s := by
  simp only [exec, execFmtSlice, hj, hn, he, if_pos]

theorem exec_slice_encode {s : State} {j : EncodeJob} {d : SliceDescriptor} {rest : List SliceDescriptor}
    (hj : s.job = some (.encode j)) (hn : j.next = .slice) (hd : j.todo = d :: rest) :
    exec .fmtSlice s = .next (s.withJob (.encode (encodeSlice j d rest))) := by
  simp only [exec, execFmtSlice, hj, hn, hd, if_pos, goOn]

theorem exec_trailer_decode {s : State} {j : DecodeJob} (hj : s.job = some (.decode j)) (hn : j.next = .trailer) :
    exec .fmtTrailer s = .next (s.endJob.deliver (decodeTrailer s.cfg j)) := by
  simp only [exec, execFmtTrailer, hj, hn, if_pos, finish_eq]

theorem exec_trailer_encode {s : State} {j : EncodeJob} (hj : s.job = some (.encode j)) (hn : j.next = .trailer) :
    exec .fmtTrailer s = .next (s.endJob.deliver (encodeTrailer j)) := by
  simp only [exec, execFmtTrailer, hj, hn, if_pos, finish_eq]

/-! ### How many parts are left -/

/-- The slices a frame operation has still to read or write. -/
def slicesLeft : Job → Nat
  | .decode j => j.header.numSlices.toNat - j.slices.length
  | .encode j => j.todo.length

/-- The parts from `p` on, with `n` slices left (R60). -/
def partsFrom (p : Part) (n : Nat) : Nat :=
  match p with
  | .table => n + 3
  | .tag => n + 2
  | .slice => n + 1
  | .trailer => 1

/-- The parts a frame operation in flight has still to do. -/
def partsLeft (j : Job) : Nat := partsFrom (nextPart j) (slicesLeft j)

@[simp] theorem partsFrom_table (n : Nat) : partsFrom .table n = n + 3 := rfl
@[simp] theorem partsFrom_tag (n : Nat) : partsFrom .tag n = n + 2 := rfl
@[simp] theorem partsFrom_slice (n : Nat) : partsFrom .slice n = n + 1 := rfl
@[simp] theorem partsFrom_trailer (n : Nat) : partsFrom .trailer n = 1 := rfl

/-- Slices, then the trailer: one part for each slice left and one more. -/
@[simp] theorem partsFrom_sliceOrTrailer (n : Nat) : partsFrom (sliceOrTrailer (decide (0 < n))) n = n + 1 := by
  cases n with
  | zero => rfl
  | succ n => simp [sliceOrTrailer]

theorem partsLeft_decode (j : DecodeJob) :
    partsLeft (.decode j) = partsFrom j.next (j.header.numSlices.toNat - j.slices.length) := rfl

theorem partsLeft_encode (j : EncodeJob) : partsLeft (.encode j) = partsFrom j.next j.todo.length := rfl

/-- The next part goes on with fewer than `n` parts left, or ends the operation with one result. -/
def GoesOnOrEnds (s : State) (n : Nat) (o : StepOutcome) : Prop :=
  (∃ j, o = .next (s.withJob j) ∧ partsLeft j < n) ∨ ∃ r, o = .next (s.endJob.deliver r)

theorem goOn_goesOnOrEnds {x : Except Error Job} {s : State} {n : Nat} (hx : ∀ j, x = .ok j → partsLeft j < n) :
    GoesOnOrEnds s n (goOn x s) := by
  cases x with
  | ok j => exact .inl ⟨j, rfl, hx j rfl⟩
  | error e => exact .inr ⟨.error e, rfl⟩

/-- The table read has an entry for each slice of the header. -/
theorem tblDecode_count {b : Bytes} {h : Header} {tbl : List U32} {q : Nat}
    (hh : hdrDecode b 0 = .ok (h, Config.headerBytes))
    (ht : tblDecode b Config.headerBytes h.numSlices = .ok (tbl, q)) : tbl.length = h.numSlices.toNat := by
  obtain ⟨-, hn, -⟩ := (tblDecode_ok_iff (hdrDecode_le hh).2).mp ht
  exact hn

theorem decodeTable_partsLeft {j : DecodeJob} {k : Job} (hn : j.next = .table) (hk : decodeTable j = .ok k) :
    partsLeft k < partsLeft (.decode j) := by
  simp only [decodeTable, bind_ok_iff, Prod.exists] at hk
  obtain ⟨tbl, q, -, heq⟩ := hk
  cases heq
  simp [partsLeft_decode, hn]

theorem decodeTag_partsLeft {cfg : Config} {j : DecodeJob} {k : Job} (hj : DecodeInv cfg j) (hn : j.next = .tag)
    (hk : decodeTag j = .ok k) : partsLeft k < partsLeft (.decode j) := by
  obtain ⟨⟨-, -, -, hh⟩, ht, hs⟩ := (decodeInv_tag hn).mp hj
  simp only [decodeTag, bind_ok_iff, Prod.exists] at hk
  obtain ⟨_, _, q, -, heq⟩ := hk
  cases heq
  simp [partsLeft_decode, hn, hs, tblDecode_count hh ht]

theorem decodeSlice_partsLeft {cfg : Config} {j : DecodeJob} {entry : U32} {k : Job} (hj : DecodeInv cfg j)
    (hn : j.next = .slice) (hk : decodeSlice cfg j entry = .ok k) : partsLeft k < partsLeft (.decode j) := by
  obtain ⟨⟨-, -, -, hh⟩, hlt, p, q, ht, -, -⟩ := (decodeInv_slice hn).mp hj
  have hcount := tblDecode_count hh ht
  simp only [decodeSlice, bind_ok_iff, Prod.exists] at hk
  obtain ⟨d, r, -, heq⟩ := hk
  cases heq
  have hmore : decide (j.slices.length + 1 < j.tbl.length)
      = decide (0 < j.header.numSlices.toNat - (j.slices.length + 1)) := by
    rw [decide_eq_decide]
    omega
  simp only [partsLeft_decode, hn, hmore, advanceTo_header, List.length_append, List.length_singleton,
    partsFrom_sliceOrTrailer, partsFrom_slice]
  omega

/-- The next part of a decoding is not refused: it goes on with one part fewer, or ends with an error or the trailer's
result. -/
theorem decode_goesOnOrEnds {s : State} {j : DecodeJob} (hs : s.Inv) (hj : s.job = some (.decode j)) :
    GoesOnOrEnds s (partsLeft (.decode j)) (exec (partInstr j.next) s) := by
  have hd : DecodeInv s.cfg j := hs.job hj
  cases hn : j.next with
  | table =>
    rw [partInstr, exec_table_decode hj hn]
    exact goOn_goesOnOrEnds fun _ => decodeTable_partsLeft hn
  | tag =>
    rw [partInstr, exec_tag_decode hj hn]
    exact goOn_goesOnOrEnds fun _ => decodeTag_partsLeft hd hn
  | slice =>
    obtain ⟨-, hlt, -⟩ := (decodeInv_slice hn).mp hd
    rw [partInstr, exec_slice_decode hj hn (List.getElem?_eq_getElem hlt)]
    exact goOn_goesOnOrEnds fun _ => decodeSlice_partsLeft hd hn
  | trailer => exact .inr ⟨_, exec_trailer_decode hj hn⟩

/-- The next part of an encoding is not refused: it goes on with one part fewer, or it is the trailer. -/
theorem encode_goesOnOrEnds {s : State} {j : EncodeJob} (hs : s.Inv) (hj : s.job = some (.encode j)) :
    GoesOnOrEnds s (partsLeft (.encode j)) (exec (partInstr j.next) s) := by
  have he : EncodeInv s.cfg j := hs.job hj
  cases hn : j.next with
  | table =>
    refine .inl ⟨_, exec_table_encode hj hn, ?_⟩
    simp [partsLeft_encode, encodeTable, hn]
  | tag =>
    refine .inl ⟨_, exec_tag_encode hj hn, ?_⟩
    simp [partsLeft_encode, encodeTag, hn]
  | slice =>
    obtain ⟨-, hne, -⟩ := (encodeInv_slice hn).mp he
    obtain ⟨d, rest, hd⟩ := List.exists_cons_of_ne_nil hne
    refine .inl ⟨_, exec_slice_encode hj hn hd, ?_⟩
    simp [partsLeft_encode, encodeSlice, hn, hd]
  | trailer => exact .inr ⟨_, exec_trailer_encode hj hn⟩

/-- The next part of a frame operation that meets the invariant is not refused. -/
theorem part_goesOnOrEnds {s : State} {j : Job} (hs : s.Inv) (hj : s.job = some j) :
    GoesOnOrEnds s (partsLeft j) (exec (partInstr (nextPart j)) s) := by
  cases j with
  | decode j => exact decode_goesOnOrEnds hs hj
  | encode j => exact encode_goesOnOrEnds hs hj

/-- A frame operation in flight ends, by induction on the parts left. -/
theorem run_ends {s : State} {j : Job} (hs : s.Inv) (hr : s.requests = []) (hj : s.job = some j) :
    ∃ k r, Host.Core.run core k s = .next (s.endJob.deliver r) := by
  induction hn : partsLeft j using Nat.strong_induction_on generalizing s j with
  | _ n ih =>
    obtain ⟨j', hx, hlt⟩ | ⟨r, hx⟩ := part_goesOnOrEnds hs hj
    · obtain ⟨k, r, hk⟩ := ih _ (hn ▸ hlt) (exec_inv hs hx) hr rfl rfl
      exact ⟨k + 1, r, by rw [run_succ_of_step ((step_of_job hr hj).trans hx), hk]; rfl⟩
    · exact ⟨1, r, run_succ_of_step ((step_of_job hr hj).trans hx) 0⟩

/-- Settles O46: each part leaves fewer parts to do, until one ends the operation. -/
theorem frameOperationsInFlightEnd : Obligations.FrameOperationsInFlightEnd := by
  unfold Obligations.FrameOperationsInFlightEnd
  intro s hs hj hr
  obtain ⟨j, hj⟩ := Option.ne_none_iff_exists'.mp hj
  exact run_ends hs hr hj

/-! ### A request decodes to the instruction that was encoded -/

/-- A byte that names no dtype belongs to the row of the unnamed ones (R74). -/
theorem decodeDtype_unnamed {d : Byte} (h : dtypeUnnamed d = true) : decodeDtype d = .dtypeUnrecognised d := by
  unfold decodeDtype
  split
  case h_5 => rfl
  all_goals cases h

/-- A byte from 5 on names no message type (R71). -/
theorem decodeMsgType_unnamed {v : Byte} (h : enumUnnamed v = true) : decodeMsgType v = .msgUnknown v := by
  unfold decodeMsgType
  split
  case h_6 => rfl
  all_goals cases h

/-- A byte from 5 on names no modality (R73). -/
theorem decodeModality_unnamed {v : Byte} (h : enumUnnamed v = true) : decodeModality v = .modUnknown v := by
  unfold decodeModality
  split
  case h_6 => rfl
  all_goals cases h

/-- A `flags` word is read back from its two bytes (R43). -/
theorem flagsOfBytes_bytes (v : U16) : flagsOfBytes (v.extractLsb' 0 8) (v.extractLsb' 8 8) = v := by
  rw [flagsOfBytes, BitVec.extractLsb'_append_extractLsb'_eq_extractLsb' (Nat.zero_add 8).symm]
  exact BitVec.extractLsb'_eq_self

theorem word2_bytesOfFlags (k : U16 → Except DecodeError Instr) (v : U16) : word2 k (bytesOfFlags v) = k v := by
  rw [bytesOfFlags, word2, flagsOfBytes_bytes]

theorem needBit_of_set {v : U16} {n : Nat} (h : v.getLsbD n = true) (k : Except DecodeError Instr) :
    needBit v n k = k := by
  rw [needBit, if_pos h]

/-- A `flags` row with a bit `n` between its two operands: the bit is set, and the operands are the bits around it. -/
theorem append_bit_append {m n : Nat} (hi : BitVec m) (lo : BitVec n) :
    (hi ++ 1#1 ++ lo).getLsbD n = true ∧ (hi ++ 1#1 ++ lo).extractLsb' (n + 1) m = hi
      ∧ (hi ++ 1#1 ++ lo).extractLsb' 0 n = lo := by
  refine ⟨by simp [BitVec.getLsbD_append], ?_, BitVec.extractLsb'_append_eq_right⟩
  rw [BitVec.extractLsb'_append_eq_of_le (Nat.le_add_right n 1), Nat.add_sub_cancel_left,
    BitVec.extractLsb'_append_eq_left]

theorem decode_flagCompressed (hi : BitVec 15) : decode (encode (.flagCompressed hi)) = .ok (.flagCompressed hi) := by
  have hbit : (flagsCompressed hi).getLsbD 0 = true := by rw [flagsCompressed, BitVec.getLsbD_append]; rfl
  have hhi : (flagsCompressed hi).extractLsb' 1 15 = hi := BitVec.extractLsb'_append_eq_left
  simp only [encode, flagsRequest, decode, word2_bytesOfFlags, needBit_of_set hbit, hhi, operandsNone]

theorem decode_flagEncrypted (hi : BitVec 14) (lo : BitVec 1) :
    decode (encode (.flagEncrypted hi lo)) = .ok (.flagEncrypted hi lo) := by
  obtain ⟨hbit, hhi, hlo⟩ : (flagsEncrypted hi lo).getLsbD 1 = true ∧ (flagsEncrypted hi lo).extractLsb' 2 14 = hi
    ∧ (flagsEncrypted hi lo).extractLsb' 0 1 = lo := append_bit_append hi lo
  simp only [encode, flagsRequest, decode, word2_bytesOfFlags, needBit_of_set hbit, hhi, hlo, operandsNone]

theorem decode_flagStrongTail (hi : BitVec 13) (lo : BitVec 2) :
    decode (encode (.flagStrongTail hi lo)) = .ok (.flagStrongTail hi lo) := by
  obtain ⟨hbit, hhi, hlo⟩ : (flagsStrongTail hi lo).getLsbD 2 = true
    ∧ (flagsStrongTail hi lo).extractLsb' 3 13 = hi ∧ (flagsStrongTail hi lo).extractLsb' 0 2 = lo :=
      append_bit_append hi lo
  simp only [encode, flagsRequest, decode, word2_bytesOfFlags, needBit_of_set hbit, hhi, hlo, operandsNone]

theorem decode_flagReserved (r : BitVec 13) (lo : BitVec 3) :
    decode (encode (.flagReserved r lo)) = .ok (.flagReserved r lo) := by
  have hr : (flagsReserved r lo).extractLsb' 3 13 = r := BitVec.extractLsb'_append_eq_left
  have hlo : (flagsReserved r lo).extractLsb' 0 3 = lo := BitVec.extractLsb'_append_eq_right
  simp only [encode, flagsRequest, decode, word2_bytesOfFlags, hr, hlo, operandsNone]

/-- The request of an instruction of the table decodes to it: the selector and the operands are read back as they were
written, a row of unnamed values by its byte, a `flags` row by its bits. -/
theorem decode_encode {i : Instr} (h : i.wellFormed = true) : decode (encode i) = .ok i := by
  cases i with
  | dtypeUnrecognised d => exact congrArg Except.ok (decodeDtype_unnamed h)
  | msgUnknown v => exact congrArg Except.ok (decodeMsgType_unnamed h)
  | modUnknown v => exact congrArg Except.ok (decodeModality_unnamed h)
  | flagCompressed hi => exact decode_flagCompressed hi
  | flagEncrypted hi lo => exact decode_flagEncrypted hi lo
  | flagStrongTail hi lo => exact decode_flagStrongTail hi lo
  | flagReserved r lo => exact decode_flagReserved r lo
  | _ => rfl

/-! ### The queue of requests -/

/-- A step on the request of an instruction takes it off the queue and runs the instruction. -/
theorem step_of_request {i : Instr} (h : i.wellFormed = true) (s : State) (rest : List Request) :
    step (s.withRequests (encode i :: rest)) = exec i (s.withRequests rest) := by
  simp only [step, withRequests_requests, decode_encode h]
  rfl

/-- The operation hands back this result in every state of the configuration. -/
def AlwaysGives (cfg : Config) (i : Instr) (r : Result) : Prop :=
  atomic i = true ∧ i.wellFormed = true ∧ ∀ u : State, u.cfg = cfg → exec i u = .next (u.deliver r)

/-- Requests run one after the other, by induction on the queue: the first leaves its result and the rest of the
requests. -/
theorem run_requests {cfg : Config} {is : List Instr} {rs : List Result} (h : List.Forall₂ (AlwaysGives cfg) is rs)
    {s : State} (hc : s.cfg = cfg) :
    Host.Core.run core is.length (s.withRequests (is.map encode))
      = .next { s with requests := [], results := s.results ++ rs } := by
  induction h generalizing s with
  | nil => rw [List.append_nil]; rfl
  | @cons i r is rs hi _ ih =>
    obtain ⟨-, hwf, hgives⟩ := hi
    have hstep : step (s.withRequests (encode i :: is.map encode))
        = .next ((s.deliver r).withRequests (is.map encode)) :=
      (step_of_request hwf s _).trans (hgives _ hc)
    rw [List.length_cons, List.map_cons, run_succ_of_step hstep, ih (s := s.deliver r) hc, deliver_results,
      List.append_assoc]
    rfl

/-- Settles O52: each request leaves the configuration to the next and appends its own result. -/
theorem queuedOperationsGiveTheirOwnResults : Obligations.QueuedOperationsGiveTheirOwnResults := by
  unfold Obligations.QueuedOperationsGiveTheirOwnResults
  exact fun s is rs h => run_requests h rfl

end Sys2Proof.Machine
end

