-- ==== Sys2Proof/Proofs/Encoding.lean ====
section
/-!
PROOFS of the family `30_encoding.md`. A request and an instruction determine each other: `decode_encode` is one
direction; for the other the readers of words and operands are inverted and each table of the decoder is read back
entry by entry. A frame's length (R67) is the sum of its parts' lengths. A carried field of a Frame (R71 to R73) stands
at one place of the frame: the bytes before and after it do not depend on it (`CarriedAt`). The selector-field rows give
what `elemSize`, `msgName`, `modName` and `flagBits` give.
-/

namespace Sys2Proof.Machine

/-! ### From an instruction to its request and back -/

/-- Settles O58: the selector, the operands and the bits are read back as they were written (`decode_encode`). -/
theorem decodeInvertsEncode : Obligations.DecodeInvertsEncode := by
  unfold Obligations.DecodeInvertsEncode
  exact fun _ => decode_encode

/-! ### What the readers of words and operands accept -/

section Readers
variable {ops : List Operand} {i : Instr}

theorem operandsNone_ok {k : Instr} (h : operandsNone k ops = .ok i) : ops = [] ∧ k = i := by
  unfold operandsNone at h
  split at h
  · exact ⟨rfl, Except.ok.inj h⟩
  · cases h

theorem operandsJob_ok {k : WireJob → Instr} (h : operandsJob k ops = .ok i) : ∃ j, ops = [.job j] ∧ k j = i := by
  unfold operandsJob at h
  split at h
  · exact ⟨_, rfl, Except.ok.inj h⟩
  · cases h

variable {w : Bytes}

theorem word1_ok {k : Byte → Except DecodeError Instr} (h : word1 k w = .ok i) : ∃ d, w = [d] ∧ k d = .ok i := by
  unfold word1 at h
  split at h
  · exact ⟨_, rfl, h⟩
  · cases h

theorem word0_ok {k : Except DecodeError Instr} (h : word0 k w = .ok i) : w = [] ∧ k = .ok i := by
  unfold word0 at h
  split at h
  · exact ⟨rfl, h⟩
  · cases h

/-- The two bytes of a `flags` word are read back from it (R43). -/
theorem bytesOfFlags_flagsOfBytes (lo hi : Byte) : bytesOfFlags (flagsOfBytes lo hi) = [lo, hi] := by
  rw [bytesOfFlags, flagsOfBytes, BitVec.extractLsb'_append_eq_right, BitVec.extractLsb'_append_eq_left]

theorem word2_ok {k : U16 → Except DecodeError Instr} (h : word2 k w = .ok i) :
    ∃ v, w = bytesOfFlags v ∧ k v = .ok i := by
  unfold word2 at h
  split at h
  · exact ⟨_, (bytesOfFlags_flagsOfBytes _ _).symm, h⟩
  · cases h

theorem needBit_ok {v : U16} {n : Nat} {k : Except DecodeError Instr} (h : needBit v n k = .ok i) :
    v.getLsbD n = true ∧ k = .ok i := by
  unfold needBit at h
  split at h
  · next hb => exact ⟨hb, h⟩
  · cases h

end Readers

/-! ### From a request to its instruction and back -/

/-- The instruction is a row of the table, and this is its request. -/
def RequestOf (r : Request) (i : Instr) : Prop := i.wellFormed = true ∧ encode i = r

/-- A selector of R80 with the operands its reader accepts is the request of its operation: by the selector, then by the
operand list, of which each reader accepts one form. -/
theorem decodeOperation_requestOf {sel : Byte} {ops : List Operand} {i : Instr}
    (h : decodeOperation sel ops = .ok i) : RequestOf (operationRequest sel ops) i := by
  unfold decodeOperation at h
  split at h
  case h_27 => cases h
  all_goals
    simp only [operandsNone, operandsU8, operandsU16, operandsU32, operandsU64, operandsU32U8, operandsBytes,
      operandsBytesNat, operandsBytesNatU32, operandsBytesNatU64, operandsU32s, operandsU8U32s, operandsSlice,
      operandsFrame, operandsHeader] at h
    split at h
    · cases h
      exact ⟨rfl, rfl⟩
    · cases h

/-- A byte that is none of the four named dtypes is unnamed (R74). -/
theorem dtypeUnnamed_of_ne {d : Byte} (h1 : d ≠ 0x01#8) (h2 : d ≠ 0x02#8) (h3 : d ≠ 0x03#8) (h16 : d ≠ 0x10#8) :
    dtypeUnnamed d = true := by
  simp [dtypeUnnamed, h1, h2, h3, h16]

/-- A dtype byte is the word of the row it belongs to: of a named one, or of the unnamed ones (R74). -/
theorem decodeDtype_requestOf (d : Byte) : RequestOf (fieldRequest .dtype d) (decodeDtype d) := by
  unfold decodeDtype
  split
  case h_5 h1 h2 h3 h16 => exact ⟨dtypeUnnamed_of_ne h1 h2 h3 h16, rfl⟩
  all_goals exact ⟨rfl, rfl⟩

/-- A byte that is none of 0 to 4 is from 5 on (R71, R73). -/
theorem enumUnnamed_of_ne {v : Byte} (h0 : v ≠ 0#8) (h1 : v ≠ 1#8) (h2 : v ≠ 2#8) (h3 : v ≠ 3#8) (h4 : v ≠ 4#8) :
    enumUnnamed v = true := by
  rw [enumUnnamed, decide_eq_true_iff]
  bv_omega

/-- A `msg_type` byte is the word of the row it belongs to (R71). -/
theorem decodeMsgType_requestOf (v : Byte) : RequestOf (fieldRequest .msgType v) (decodeMsgType v) := by
  unfold decodeMsgType
  split
  case h_6 h0 h1 h2 h3 h4 => exact ⟨enumUnnamed_of_ne h0 h1 h2 h3 h4, rfl⟩
  all_goals exact ⟨rfl, rfl⟩

/-- A `modality` byte is the word of the row it belongs to (R73). -/
theorem decodeModality_requestOf (v : Byte) : RequestOf (fieldRequest .modality v) (decodeModality v) := by
  unfold decodeModality
  split
  case h_6 h0 h1 h2 h3 h4 => exact ⟨enumUnnamed_of_ne h0 h1 h2 h3 h4, rfl⟩
  all_goals exact ⟨rfl, rfl⟩

/-- A set bit of a word is the one-bit word at its place. -/
theorem extract_of_set {w n : Nat} {v : BitVec w} (h : v.getLsbD n = true) : v.extractLsb' n 1 = 1#1 := by
  apply BitVec.eq_of_getLsbD_eq
  intro k hk
  obtain rfl : k = 0 := by omega
  simp [h]

/-- A word is put together again from its upper and its lower bits. -/
theorem extract_append_extract {m n : Nat} (v : BitVec (m + n)) : v.extractLsb' n m ++ v.extractLsb' 0 n = v := by
  rw [BitVec.extractLsb'_append_extractLsb'_eq_extractLsb' (Nat.zero_add n).symm, BitVec.extractLsb'_eq_self]

/-- A word is put together again from its set bit `n` and the bits around it. -/
theorem extract_append_bit {m n : Nat} {v : BitVec (m + 1 + n)} (h : v.getLsbD n = true) :
    v.extractLsb' (n + 1) m ++ 1#1 ++ v.extractLsb' 0 n = v := by
  rw [← extract_of_set h, BitVec.extractLsb'_append_extractLsb'_eq_extractLsb' rfl, extract_append_extract]

theorem flagsCompressed_extract {v : U16} (h : v.getLsbD 0 = true) : flagsCompressed (v.extractLsb' 1 15) = v := by
  rw [flagsCompressed, ← extract_of_set h]
  exact extract_append_extract (m := 15) (n := 1) v

theorem flagsEncrypted_extract {v : U16} (h : v.getLsbD 1 = true) :
    flagsEncrypted (v.extractLsb' 2 14) (v.extractLsb' 0 1) = v :=
  extract_append_bit (m := 14) (n := 1) h

theorem flagsStrongTail_extract {v : U16} (h : v.getLsbD 2 = true) :
    flagsStrongTail (v.extractLsb' 3 13) (v.extractLsb' 0 2) = v :=
  extract_append_bit (m := 13) (n := 2) h

theorem flagsReserved_extract (v : U16) : flagsReserved (v.extractLsb' 3 13) (v.extractLsb' 0 3) = v :=
  extract_append_extract (m := 13) (n := 3) v

/-- A request that decodes is the request of the instruction it decodes to, in each place a word can stand. -/
theorem decode_requestOf {r : Request} {i : Instr} (h : decode r = .ok i) : RequestOf r i := by
  obtain ⟨space, word, ops⟩ := r
  cases space with
  | operation =>
    obtain ⟨sel, rfl, ho⟩ := word1_ok h
    exact decodeOperation_requestOf ho
  | dtype =>
    obtain ⟨d, rfl, ho⟩ := word1_ok h
    obtain ⟨rfl, rfl⟩ := operandsNone_ok ho
    exact decodeDtype_requestOf d
  | msgType =>
    obtain ⟨v, rfl, ho⟩ := word1_ok h
    obtain ⟨rfl, rfl⟩ := operandsNone_ok ho
    exact decodeMsgType_requestOf v
  | modality =>
    obtain ⟨v, rfl, ho⟩ := word1_ok h
    obtain ⟨rfl, rfl⟩ := operandsNone_ok ho
    exact decodeModality_requestOf v
  | flagCompressed =>
    simp only [decode] at h
    obtain ⟨v, rfl, hv⟩ := word2_ok h
    obtain ⟨hbit, ho⟩ := needBit_ok hv
    obtain ⟨rfl, rfl⟩ := operandsNone_ok ho
    exact ⟨rfl, congrArg (flagsRequest .flagCompressed) (flagsCompressed_extract hbit)⟩
  | flagEncrypted =>
    simp only [decode] at h
    obtain ⟨v, rfl, hv⟩ := word2_ok h
    obtain ⟨hbit, ho⟩ := needBit_ok hv
    obtain ⟨rfl, rfl⟩ := operandsNone_ok ho
    exact ⟨rfl, congrArg (flagsRequest .flagEncrypted) (flagsEncrypted_extract hbit)⟩
  | flagStrongTail =>
    simp only [decode] at h
    obtain ⟨v, rfl, hv⟩ := word2_ok h
    obtain ⟨hbit, ho⟩ := needBit_ok hv
    obtain ⟨rfl, rfl⟩ := operandsNone_ok ho
    exact ⟨rfl, congrArg (flagsRequest .flagStrongTail) (flagsStrongTail_extract hbit)⟩
  | flagReserved =>
    simp only [decode] at h
    obtain ⟨v, rfl, ho⟩ := word2_ok h
    obtain ⟨rfl, rfl⟩ := operandsNone_ok ho
    exact ⟨rfl, congrArg (flagsRequest .flagReserved) (flagsReserved_extract v)⟩
  | header =>
    obtain ⟨rfl, ho⟩ := word0_ok h
    obtain ⟨j, rfl, rfl⟩ := operandsJob_ok ho
    exact ⟨rfl, rfl⟩
  | table | tag | slice | trailer =>
    obtain ⟨rfl, ho⟩ := word0_ok h
    obtain ⟨rfl, rfl⟩ := operandsNone_ok ho
    exact ⟨rfl, rfl⟩

/-- Settles O59: by the place of the request's word. -/
theorem encodeInvertsDecode : Obligations.EncodeInvertsDecode := by
  unfold Obligations.EncodeInvertsDecode
  exact fun _ _ => decode_requestOf

/-- Settles O57: nine requests of R80 and R71 to R74, evaluated. -/
theorem tableWordsDecode : Obligations.TableWordsDecode := by
  unfold Obligations.TableWordsDecode
  decide

/-! ### Steps -/

/-- Settles O56: the branches of `step`, by the queue and the frame operation in flight. -/
theorem stepRunsTheDecodedInstruction : Obligations.StepRunsTheDecodedInstruction := by
  unfold Obligations.StepRunsTheDecodedInstruction
  refine ⟨fun s r rest i hr hd => ?_, fun s r rest e hr hd => ?_, fun s j => step_of_job, fun s hr hj => ?_⟩
  · simp only [step, hr, hd]
  · simp only [step, hr, hd]
  · simp only [step, hr, hj]

/-! ### Parts out of order -/

theorem part_refused_of_idle {s : State} (hj : s.job = none) (p : Part) :
    exec (partInstr p) s = .refused .partOutOfOrder := by
  cases p <;> simp only [partInstr, exec, execFmtTable, execFmtTag, execFmtSlice, execFmtTrailer, hj]

theorem part_refused_of_decode {s : State} {j : DecodeJob} {p : Part} (hj : s.job = some (.decode j))
    (hn : j.next ≠ p) : exec (partInstr p) s = .refused .partOutOfOrder := by
  cases p <;> simp only [partInstr, exec, execFmtTable, execFmtTag, execFmtSlice, execFmtTrailer, hj, if_neg hn]

theorem part_refused_of_encode {s : State} {j : EncodeJob} {p : Part} (hj : s.job = some (.encode j))
    (hn : j.next ≠ p) : exec (partInstr p) s = .refused .partOutOfOrder := by
  cases p <;> simp only [partInstr, exec, execFmtTable, execFmtTag, execFmtSlice, execFmtTrailer, hj, if_neg hn]

/-- Settles O43: each part tests the part that comes next, of a decoding or of an encoding. -/
theorem partsOutOfOrderAreRefused : Obligations.PartsOutOfOrderAreRefused := by
  unfold Obligations.PartsOutOfOrderAreRefused
  refine ⟨fun s job hs => ?_, fun s p hn => ?_⟩
  · obtain ⟨j, hj⟩ := Option.ne_none_iff_exists'.mp hs
    simp only [exec, execFmtHeader, hj]
  · cases hj : s.job with
    | none => exact part_refused_of_idle hj p
    | some j =>
      cases j with
      | decode j => exact part_refused_of_decode hj (hn _ hj)
      | encode j => exact part_refused_of_encode hj (hn _ hj)

/-! ### The length of a frame (R67) -/

theorem sliceEncode_length (d : SliceDescriptor) : (sliceEncode d).length = 2 + sliceBytes d := by
  simp only [sliceEncode, sliceBytes, List.length_append, lePut1_length, putU32s_length]
  omega

theorem slicesEncode_length (ds : List SliceDescriptor) :
    (ds.flatMap sliceEncode).length = 2 * ds.length + (ds.map sliceBytes).sum := by
  simp only [List.length_flatMap, sliceEncode_length, List.sum_map_add, List.map_const', List.sum_replicate,
    smul_eq_mul, Nat.mul_comm]

theorem tblEncode_length (lens : List U32) : (tblEncode lens).length = 4 * lens.length := putU32s_length lens

theorem frameBody_length (cfg : Config) (f : Frame) :
    (frameBody cfg f).length = 29 + 6 * f.slices.length + (f.slices.map sliceBytes).sum := by
  simp only [frameBody, List.length_append, hdrEncode_length, tblEncode_length, List.length_map, tagEncode_length,
    slicesEncode_length]
  omega

/-- Settles O25: the frame before its trailer, and the trailer's 4 bytes. -/
theorem frameLengthFormula : Obligations.FrameLengthFormula := by
  unfold Obligations.FrameLengthFormula
  intro cfg f
  rw [frameEncode, List.length_append, frameBody_length, lePut4_length]
  omega

/-! ### Carried fields change only their own bytes -/

theorem lePut1_eq (v : Byte) : lePut1 v = [v] := by simp [lePut1, leBytes]

theorem lePut2_eq_le2 (v : U16) : lePut2 v = le2 v := rfl

/-- The field stands at offset `a` of the bytes `body`, and the bytes before and after it do not depend on it. -/
def CarriedAt {α : Type} (a : Nat) (field body : α → Bytes) : Prop :=
  ∃ pre post, pre.length = a ∧ ∀ v, body v = pre ++ field v ++ post

/-- Another value of a carried field of `n` bytes replaces those bytes. -/
theorem CarriedAt.replace {α : Type} {a n : Nat} {field body : α → Bytes} (h : CarriedAt a field body)
    (hn : ∀ v, (field v).length = n) (old new : α) :
    body new = (body old).take a ++ field new ++ (body old).drop (a + n) := by
  obtain ⟨pre, post, rfl, hbody⟩ := h
  simp [hbody, ← hn old]

/-- What FRAME_ENC writes after `flags` and before the trailer. -/
def bodyAfterFlags (cfg : Config) (f : Frame) : Bytes :=
  lePut4 f.streamId ++ lePut8 f.frameSeq ++ lePut8 (BitVec.ofNat 64 f.slices.length)
    ++ tblEncode (f.slices.map (tableEntry cfg)) ++ tagEncode f.spaceHash32 f.modality ++ f.slices.flatMap sliceEncode

theorem frameBody_eq (cfg : Config) (f : Frame) :
    frameBody cfg f = lePut1 f.version ++ lePut1 f.msgType ++ lePut2 f.flags ++ bodyAfterFlags cfg f := by
  simp only [frameBody, bodyAfterFlags, hdrEncode, frameHeader, List.append_assoc]

/-- `flags` stands after `version` and `msg_type` (R61, R72). -/
theorem frameBody_flags_carried (cfg : Config) (f : Frame) :
    CarriedAt 2 lePut2 fun v => frameBody cfg { f with flags := v } :=
  ⟨lePut1 f.version ++ lePut1 f.msgType, bodyAfterFlags cfg f, rfl, fun _ => frameBody_eq cfg _⟩

/-- `msg_type` stands after `version` (R61, R71). -/
theorem frameBody_msgType_carried (cfg : Config) (f : Frame) :
    CarriedAt 1 lePut1 fun v => frameBody cfg { f with msgType := v } :=
  ⟨lePut1 f.version, lePut2 f.flags ++ bodyAfterFlags cfg f, rfl,
    fun _ => (frameBody_eq cfg _).trans (List.append_assoc _ _ _)⟩

/-- `modality` stands after the header, the table and `space_hash32` (R60, R64, R73). -/
theorem frameBody_modality_carried (cfg : Config) (f : Frame) :
    CarriedAt (28 + 4 * f.slices.length) lePut1 fun v => frameBody cfg { f with modality := v } := by
  refine ⟨encodedTable cfg f ++ lePut4 f.spaceHash32, f.slices.flatMap sliceEncode, ?_, fun v => ?_⟩
  · simp only [encodedTable, List.length_append, hdrEncode_length, tblEncode_length, List.length_map, lePut4_length]
    omega
  · simp only [frameBody, encodedTable, tagEncode, frameHeader, List.append_assoc]

/-- Settles O33: the three fields stand each at their own place of what FRAME_ENC writes. -/
theorem carriedFieldsChangeOnlyTheirBytes : Obligations.CarriedFieldsChangeOnlyTheirBytes := by
  unfold Obligations.CarriedFieldsChangeOnlyTheirBytes
  refine fun cfg f => ⟨fun v => ?_, fun v => ?_, fun v => ?_⟩
  · rw [← lePut2_eq_le2]
    exact (frameBody_flags_carried cfg f).replace lePut2_length f.flags v
  · rw [← lePut1_eq]
    exact (frameBody_msgType_carried cfg f).replace lePut1_length f.msgType v
  · rw [← lePut1_eq, show 29 + 4 * f.slices.length = 28 + 4 * f.slices.length + 1 by omega]
    exact (frameBody_modality_carried cfg f).replace lePut1_length f.modality v

/-! ### The selector-field rows -/

/-- An unnamed dtype byte has no element size (R177). -/
theorem elemSize_unnamed {d : Byte} (h : dtypeUnnamed d = true) (cfg : Config) :
    elemSize cfg d = .error .unsupportedDtype := by
  unfold elemSize
  split
  case h_5 => rfl
  all_goals cases h

theorem elemSize_f16 (cfg : Config) : elemSize cfg 0x01#8 = .ok (2, 1) := rfl

theorem elemSize_i8 (cfg : Config) : elemSize cfg 0x02#8 = .ok (1, 1) := rfl

/-- Q4 is sized as packed nibbles under that policy (R182). -/
theorem elemSize_q4_packed {cfg : Config} (h : cfg.q4Policy = .packedNibble) : elemSize cfg 0x03#8 = .ok (1, 2) := by
  simp only [elemSize, h]

/-- Q4 has no element size under the other policy (R182). -/
theorem elemSize_q4_reject {cfg : Config} (h : cfg.q4Policy = .reject) :
    elemSize cfg 0x03#8 = .error .unsupportedDtype := by
  simp only [elemSize, h]

/-- SparseCoo has no element size: `SPARSE_POLICY` has no other value than reject (R183). -/
theorem elemSize_sparseCoo (cfg : Config) : elemSize cfg 0x10#8 = .error .unsupportedDtype := rfl

/-- A dtype row hands back what ELEM_SIZE gives for its byte. -/
theorem finish_dtypeResult {s : State} {d : Byte} {r : Except Error (Nat × Nat)} (h : elemSize s.cfg d = r) :
    finish (dtypeResult s.cfg d) s = .next (s.deliver (r.map fun (num, den) => .elemSize num den)) := by
  rw [finish_eq, dtypeResult, h]

/-- Settles O37: what ELEM_SIZE gives for each row's byte. -/
theorem dtypeRowsGiveElementSizes : Obligations.DtypeRowsGiveElementSizes := by
  unfold Obligations.DtypeRowsGiveElementSizes
  exact fun s => ⟨finish_dtypeResult (elemSize_f16 s.cfg), finish_dtypeResult (elemSize_i8 s.cfg),
    fun hq => finish_dtypeResult (elemSize_q4_packed hq),
    fun hq => finish_dtypeResult (elemSize_q4_reject hq),
    finish_dtypeResult (elemSize_sparseCoo s.cfg),
    fun _ hd => finish_dtypeResult (elemSize_unnamed hd s.cfg)⟩

/-- A byte from 5 on has no message type's name (R71). -/
theorem msgName_unnamed {v : Byte} (h : 5 ≤ v.toNat) : msgName v = .unnamed := by
  unfold msgName
  split
  case h_6 => rfl
  all_goals exact absurd h (by decide)

/-- A byte from 5 on has no modality's name (R73). -/
theorem modName_unnamed {v : Byte} (h : 5 ≤ v.toNat) : modName v = .unnamed := by
  unfold modName
  split
  case h_6 => rfl
  all_goals exact absurd h (by decide)

/-- A `msg_type` row hands back its byte and its name. -/
theorem finish_msgResult {v : Byte} {name : MsgName} (h : msgName v = name) (s : State) :
    finish (msgResult v) s = .next (s.deliver (.ok (.msgType [v] name))) := by
  rw [finish_eq, msgResult, lePut1_eq, h]

/-- A `modality` row hands back its byte and its name. -/
theorem finish_modResult {v : Byte} {name : ModName} (h : modName v = name) (s : State) :
    finish (modResult v) s = .next (s.deliver (.ok (.modality [v] name))) := by
  rw [finish_eq, modResult, lePut1_eq, h]

/-- Settles O38: the name of each row's byte. -/
theorem enumerationRowsAreCarried : Obligations.EnumerationRowsAreCarried := by
  unfold Obligations.EnumerationRowsAreCarried
  exact fun s => ⟨finish_msgResult rfl s, finish_msgResult rfl s, finish_msgResult rfl s, finish_msgResult rfl s,
    finish_msgResult rfl s, fun _ hv => finish_msgResult (msgName_unnamed hv) s,
    finish_modResult rfl s, finish_modResult rfl s, finish_modResult rfl s, finish_modResult rfl s,
    finish_modResult rfl s, fun _ hv => finish_modResult (modName_unnamed hv) s⟩

/-- The bits of a FLAG_COMPRESSED word (R72). -/
theorem flagBits_compressed (hi : BitVec 15) :
    flagBits (hi ++ 1#1) = ⟨true, hi.getLsbD 0, hi.getLsbD 1, hi.extractLsb' 2 13⟩ := by
  simp only [flagBits, FlagBits.mk.injEq, BitVec.getLsbD_append]
  exact ⟨rfl, rfl, rfl, BitVec.extractLsb'_append_eq_of_le (by decide)⟩

/-- The bits of a FLAG_ENCRYPTED word (R72). -/
theorem flagBits_encrypted (hi : BitVec 14) (lo : BitVec 1) :
    flagBits (hi ++ 1#1 ++ lo) = ⟨lo.getLsbD 0, true, hi.getLsbD 0, hi.extractLsb' 1 13⟩ := by
  have hr : (hi ++ 1#1 ++ lo).extractLsb' 3 13 = hi.extractLsb' 1 13 := by
    rw [BitVec.extractLsb'_append_eq_of_le (by decide), BitVec.extractLsb'_append_eq_of_le (by decide)]
  simp only [flagBits, FlagBits.mk.injEq, BitVec.getLsbD_append]
  exact ⟨rfl, rfl, rfl, hr⟩

/-- The bits of a FLAG_STRONG_TAIL word (R72). -/
theorem flagBits_strongTail (hi : BitVec 13) (lo : BitVec 2) :
    flagBits (hi ++ 1#1 ++ lo) = ⟨lo.getLsbD 0, lo.getLsbD 1, true, hi⟩ := by
  obtain ⟨hbit, hhi, -⟩ := append_bit_append hi lo
  simp only [flagBits, FlagBits.mk.injEq, BitVec.getLsbD_append]
  exact ⟨rfl, rfl, rfl, hhi⟩

/-- The bits of a FLAG_RESERVED word (R72). -/
theorem flagBits_reserved (r : BitVec 13) (lo : BitVec 3) :
    flagBits (r ++ lo) = ⟨lo.getLsbD 0, lo.getLsbD 1, lo.getLsbD 2, r⟩ := by
  simp only [flagBits, FlagBits.mk.injEq, BitVec.getLsbD_append]
  exact ⟨rfl, rfl, rfl, BitVec.extractLsb'_append_eq_left⟩

/-- A `flags` row hands back its two bytes and their bits. -/
theorem finish_flagsResult {v : U16} {bits : FlagBits} (h : flagBits v = bits) (s : State) :
    finish (flagsResult v) s = .next (s.deliver (.ok (.flags (le2 v) bits))) := by
  rw [finish_eq, flagsResult, lePut2_eq_le2, h]

/-- Settles O39: the bits of each row's word. -/
theorem flagRowsAreCarried : Obligations.FlagRowsAreCarried := by
  unfold Obligations.FlagRowsAreCarried
  exact ⟨fun s hi => finish_flagsResult (flagBits_compressed hi) s,
    fun s hi lo => finish_flagsResult (flagBits_encrypted hi lo) s,
    fun s hi lo => finish_flagsResult (flagBits_strongTail hi lo) s,
    fun s r lo => finish_flagsResult (flagBits_reserved r lo) s⟩

end Sys2Proof.Machine
end

