-- ==== Sys2Proof/Proofs/Crc32.lean ====
section
/-!
PROOFS of the family `40_crc32.md`. One pass of the loop of CRC_STEP is a linear injective map of the register
(`crcShift_xor`, `crcShift_injective`). CRC_STEP takes its eight bits in at once; `bitRegister` takes the bits of a
stream in one at a time, and `bitRegister_eq_crcShifts` says that up to 32 bits may enter together before any pass. The
residue and the detection of bursts follow: equal registers before and after a window of 32 bits mean equal windows. The
two other forms of the checksum are related to it step by step, the most-significant-bit-first form through the reversed
register.
-/

namespace Sys2Proof.Machine

/-! ### One pass of the loop of CRC_STEP -/

/-- The low bit decides whether the polynomial is applied (R103). -/
theorem crcShift_eq (acc : U32) : crcShift acc = acc >>> 1 ^^^ bif acc.getLsbD 0 then crcPoly else 0#32 := by
  rw [crcShift, BitVec.and_one_eq_setWidth_ofBool_getLsbD]
  cases acc.getLsbD 0 <;> simp

theorem crcShift_xor (a b : U32) : crcShift (a ^^^ b) = crcShift a ^^^ crcShift b := by
  have poly (p q : Bool) : (bif (p ^^ q) then crcPoly else 0#32)
      = (bif p then crcPoly else 0#32) ^^^ bif q then crcPoly else 0#32 := by
    cases p <;> cases q <;> simp
  rw [crcShift_eq, crcShift_eq, crcShift_eq, BitVec.ushiftRight_xor_distrib, BitVec.getLsbD_xor, poly]
  ac_rfl

/-- The top bit of the polynomial is 1: the bit shifted out can be read at the top. -/
theorem getLsbD_crcShift_top (acc : U32) : (crcShift acc).getLsbD 31 = acc.getLsbD 0 := by
  rw [crcShift_eq]
  cases acc.getLsbD 0 <;> simp [crcPoly]

theorem crcShift_injective : Function.Injective crcShift := by
  intro a b h
  have low : a.getLsbD 0 = b.getLsbD 0 := by rw [← getLsbD_crcShift_top, h, getLsbD_crcShift_top]
  have high : a >>> 1 = b >>> 1 := by rwa [crcShift_eq, crcShift_eq, low, BitVec.xor_left_inj] at h
  refine BitVec.eq_of_getLsbD_eq fun i _ => ?_
  cases i with
  | zero => exact low
  | succ i => simpa [Nat.add_comm] using congrArg (·.getLsbD i) high

/-! ### Passes of the loop -/

theorem crcShifts_eq_iterate (n : Nat) : crcShifts n = crcShift^[n] := by
  induction n with
  | zero => rfl
  | succ n ih => funext acc; rw [crcShifts, ih, Function.iterate_succ_apply]

theorem crcShifts_succ (n : Nat) (acc : U32) : crcShifts (n + 1) acc = crcShift (crcShifts n acc) := by
  rw [crcShifts_eq_iterate, crcShifts_eq_iterate, Function.iterate_succ_apply']

theorem crcShifts_injective (n : Nat) : Function.Injective (crcShifts n) := by
  rw [crcShifts_eq_iterate]
  exact crcShift_injective.iterate n

theorem crcShifts_xor (n : Nat) (a b : U32) : crcShifts n (a ^^^ b) = crcShifts n a ^^^ crcShifts n b := by
  induction n with
  | zero => rfl
  | succ n ih => simp only [crcShifts_succ, ih, crcShift_xor]

/-- Passes over zero bits only shift. -/
theorem crcShifts_of_low_zero {n : Nat} {v : U32} (h : ∀ i < n, v.getLsbD i = false) : crcShifts n v = v >>> n := by
  induction n with
  | zero => simp [crcShifts]
  | succ n ih =>
    have hn : (v >>> n).getLsbD 0 = false := by simp [h n]
    rw [crcShifts_succ, ih fun i hi => h i (by omega), crcShift_eq, hn, BitVec.shiftRight_add]
    simp

/-! ### The register bit by bit -/

/-- The bit `b` as the register word whose low bit it is. -/
def bitWord (b : Bool) : U32 := (BitVec.ofBool b).setWidth 32

/-- The register after the first `n` bits of a stream, each entering at the low bit before one pass of the loop. -/
def bitRegister (acc : U32) (f : Nat → Bool) : Nat → U32
  | 0 => acc
  | n + 1 => crcShift (bitRegister acc f n ^^^ bitWord (f n))

/-- The first `n` bits of a stream, at most 32 of them, as one word. -/
def streamWord (f : Nat → Bool) (n : Nat) : U32 := BitVec.ofFnLE fun i : Fin 32 => decide (i < n) && f i

theorem getLsbD_streamWord (f : Nat → Bool) (n : Nat) {i : Nat} (h : i < 32) :
    (streamWord f n).getLsbD i = (decide (i < n) && f i) := by
  rw [streamWord, BitVec.getLsbD_ofFnLE, dif_pos h]

theorem getLsbD_bitWord_shiftLeft (b : Bool) (n : Nat) {i : Nat} (h : i < 32) :
    (bitWord b <<< n).getLsbD i = (decide (i = n) && b) := by
  simp only [bitWord, BitVec.getLsbD_shiftLeft, BitVec.getLsbD_setWidth, BitVec.getLsbD_ofBool]
  grind

theorem streamWord_succ (f : Nat → Bool) (n : Nat) :
    streamWord f (n + 1) = streamWord f n ^^^ bitWord (f n) <<< n := by
  refine BitVec.eq_of_getLsbD_eq fun i hi => ?_
  rw [BitVec.getLsbD_xor, getLsbD_streamWord f _ hi, getLsbD_streamWord f _ hi, getLsbD_bitWord_shiftLeft _ _ hi]
  grind

/-- A bit that enters `n` places higher is at the low bit after `n` passes. -/
theorem crcShifts_bitWord {n : Nat} (h : n < 32) (b : Bool) : crcShifts n (bitWord b <<< n) = bitWord b := by
  rw [crcShifts_of_low_zero fun i hi => by rw [getLsbD_bitWord_shiftLeft _ _ (by omega)]; simp [Nat.ne_of_lt hi]]
  refine BitVec.eq_of_getLsbD_eq fun i hi => ?_
  simp only [bitWord, BitVec.getLsbD_ushiftRight, BitVec.getLsbD_shiftLeft, BitVec.getLsbD_setWidth,
    BitVec.getLsbD_ofBool]
  grind

/-- Up to 32 bits may enter together before any pass. -/
theorem bitRegister_eq_crcShifts (acc : U32) (f : Nat → Bool) {n : Nat} (h : n ≤ 32) :
    bitRegister acc f n = crcShifts n (acc ^^^ streamWord f n) := by
  induction n with
  | zero =>
    have h0 : streamWord f 0 = 0#32 := BitVec.eq_of_getLsbD_eq fun i hi => by simp [getLsbD_streamWord f 0 hi]
    simp [bitRegister, crcShifts, h0]
  | succ n ih =>
    rw [bitRegister, ih (by omega), crcShifts_succ, streamWord_succ, ← BitVec.xor_assoc,
      crcShifts_xor n (acc ^^^ streamWord f n), crcShifts_bitWord h]

theorem bitRegister_add (acc : U32) (f : Nat → Bool) (a n : Nat) :
    bitRegister acc f (a + n) = bitRegister (bitRegister acc f a) (fun i => f (a + i)) n := by
  induction n with
  | zero => rfl
  | succ n ih => rw [← Nat.add_assoc, bitRegister, bitRegister, ih]

/-- Bits on which two streams agree keep equal registers equal and different ones different. -/
theorem bitRegister_eq_iff_of_agree {acc : U32} {f g : Nat → Bool} {a : Nat} (n : Nat)
    (h : ∀ i, a ≤ i → i < a + n → f i = g i) :
    bitRegister acc f (a + n) = bitRegister acc g (a + n) ↔ bitRegister acc f a = bitRegister acc g a := by
  induction n with
  | zero => rfl
  | succ n ih =>
    rw [← Nat.add_assoc, bitRegister, bitRegister, crcShift_injective.eq_iff, h (a + n) (by omega) (by omega),
      BitVec.xor_left_inj, ih fun i hi hn => h i hi (by omega)]

/-- Equal registers before and after a window of 32 bits mean equal windows. -/
theorem window_eq_of_bitRegister_eq {acc : U32} {f g : Nat → Bool} {o : Nat}
    (before : bitRegister acc f o = bitRegister acc g o)
    (after : bitRegister acc f (o + 32) = bitRegister acc g (o + 32)) {i : Nat} (h : i < 32) :
    f (o + i) = g (o + i) := by
  rw [bitRegister_add, bitRegister_add, before, bitRegister_eq_crcShifts _ _ (Nat.le_refl 32),
    bitRegister_eq_crcShifts _ _ (Nat.le_refl 32), (crcShifts_injective 32).eq_iff, BitVec.xor_right_inj] at after
  simpa only [getLsbD_streamWord _ _ h, h, decide_true, Bool.true_and] using congrArg (·.getLsbD i) after

/-! ### The bits of a byte sequence -/

theorem bitAt_cons_of_lt (b : Byte) (m : Bytes) {i : Nat} (h : i < 8) : bitAt (b :: m) i = b.getLsbD i := by
  simp [bitAt, Nat.div_eq_of_lt h, Nat.mod_eq_of_lt h]

theorem bitAt_cons_add (b : Byte) (m : Bytes) (i : Nat) : bitAt (b :: m) (8 + i) = bitAt m i := by
  simp [bitAt, Nat.add_div_left]

theorem bitAt_of_le {m : Bytes} {i : Nat} (h : 8 * m.length ≤ i) : bitAt m i = false := by
  rw [bitAt, List.getD_eq_default _ _ (by omega), BitVec.getLsbD_zero]

theorem bytes_eq_of_bitAt {x y : Bytes} (hl : x.length = y.length) (h : ∀ i, bitAt x i = bitAt y i) : x = y := by
  refine List.ext_getElem hl fun n hx hy => BitVec.eq_of_getLsbD_eq fun k hk => ?_
  have hdiv : (8 * n + k) / 8 = n := by omega
  have hmod : (8 * n + k) % 8 = k := by omega
  simpa [bitAt, hdiv, hmod, hx, hy] using h (8 * n + k)

/-- CRC_STEP takes in the eight bits of its byte, least significant bit first (R103). -/
theorem crcStep_eq_bitRegister (acc : U32) (b : Byte) (m : Bytes) :
    crcStep acc b = bitRegister acc (bitAt (b :: m)) 8 := by
  have hw : streamWord (bitAt (b :: m)) 8 = b.zeroExtend 32 := by
    refine BitVec.eq_of_getLsbD_eq fun i hi => ?_
    rw [getLsbD_streamWord _ _ hi, BitVec.getLsbD_setWidth]
    by_cases h8 : i < 8
    · simp [h8, hi, bitAt_cons_of_lt b m h8]
    · simp [h8, BitVec.getLsbD_of_ge b i (by omega)]
  rw [bitRegister_eq_crcShifts _ _ (by decide), hw, crcStep]

/-- The register after a byte sequence is the register after its bits (R101, R105). -/
theorem absorb_eq_bitRegister (acc : U32) (m : Bytes) : absorb acc m = bitRegister acc (bitAt m) (8 * m.length) := by
  induction m generalizing acc with
  | nil => rfl
  | cons b m ih =>
    have ht : (fun i => bitAt (b :: m) (8 + i)) = bitAt m := funext (bitAt_cons_add b m)
    calc absorb acc (b :: m) = absorb (crcStep acc b) m := rfl
      _ = bitRegister (bitRegister acc (bitAt (b :: m)) 8) (bitAt m) (8 * m.length) := by
        rw [ih, crcStep_eq_bitRegister acc b m]
      _ = bitRegister acc (bitAt (b :: m)) (8 * (b :: m).length) := by
        rw [← ht, ← bitRegister_add, List.length_cons, Nat.mul_succ, Nat.add_comm]

/-! ### CRC_FINAL -/

theorem crcFinal_inj {a b : U32} : crcFinal a = crcFinal b ↔ a = b := BitVec.xor_left_inj _

/-! ### Burst errors -/

/-- Settles O8: agreeing bits carry the equality of the registers forward from the start to the window and back from the
end to the window, so the windows are equal too. Bits past the end are zero in both, so the window may reach past it. -/
theorem crcDetectsBurstsOfThirtyTwoBits : Obligations.CrcDetectsBurstsOfThirtyTwoBits := by
  unfold Obligations.CrcDetectsBurstsOfThirtyTwoBits
  intro x y o hl hne hagree heq
  have agree {i : Nat} (hi : i < o ∨ o + 32 ≤ i) : bitAt x i = bitAt y i := by
    by_contra hb
    have := hagree i hb
    omega
  have atEnd : bitRegister crcInit (bitAt x) (8 * x.length) = bitRegister crcInit (bitAt y) (8 * x.length) := by
    rwa [crc32, crc32, crcFinal_inj, absorb_eq_bitRegister, absorb_eq_bitRegister, ← hl] at heq
  have past : bitRegister crcInit (bitAt x) (8 * x.length + (o + 32))
      = bitRegister crcInit (bitAt y) (8 * x.length + (o + 32)) :=
    (bitRegister_eq_iff_of_agree _ fun i hi _ => by rw [bitAt_of_le hi, bitAt_of_le (hl ▸ hi)]).mpr atEnd
  have after : bitRegister crcInit (bitAt x) (o + 32) = bitRegister crcInit (bitAt y) (o + 32) := by
    rw [Nat.add_comm] at past
    exact (bitRegister_eq_iff_of_agree _ fun i hi _ => agree (.inr hi)).mp past
  have before : bitRegister crcInit (bitAt x) o = bitRegister crcInit (bitAt y) o := by
    simpa using (bitRegister_eq_iff_of_agree (acc := crcInit) (a := 0) o fun i _ hi => agree (.inl (by omega))).mpr rfl
  refine hne (bytes_eq_of_bitAt hl fun i => ?_)
  by_cases hi : i < o ∨ o + 32 ≤ i
  · exact agree hi
  · have hw := window_eq_of_bitRegister_eq before after (i := i - o) (by omega)
    rwa [Nat.add_sub_cancel' (by omega)] at hw

/-- Changing a bit of a byte sequence changes the bit there and no other. -/
theorem bitAt_flipBit (x : Bytes) {i k : Nat} (hi : i < x.length) (hk : k < 8) (j : Nat) :
    bitAt (flipBit x i k) j = (bitAt x j ^^ decide (j = 8 * i + k)) := by
  rw [bitAt, bitAt, flipBit, List.getD_eq_getElem?_getD, List.getD_eq_getElem?_getD, List.getElem?_modify]
  by_cases hj : i = j / 8
  · have hbit : (1#8 <<< k).getLsbD (j % 8) = decide (j = 8 * i + k) := by
      simp only [BitVec.getLsbD_shiftLeft, BitVec.getLsbD_one]
      grind
    subst hj
    rw [← hbit]
    simp [hi]
  · have hne : j ≠ 8 * i + k := by omega
    simp [hj, hne]

/-- Settles O7: one bit is a burst within 32 bits. -/
theorem crcDetectsSingleBitChanges : Obligations.CrcDetectsSingleBitChanges := by
  unfold Obligations.CrcDetectsSingleBitChanges
  intro x i k hi hk
  refine crcDetectsBurstsOfThirtyTwoBits _ _ (8 * i + k) (List.length_modify ..) (fun he => ?_) fun j hj => ?_
  · have hflip := bitAt_flipBit x hi hk (8 * i + k)
    simp [he] at hflip
  · have : j = 8 * i + k := by
      by_contra hne
      exact hj (by simp [bitAt_flipBit x hi hk, hne])
    omega

/-! ### The residue -/

theorem le4_getD (v : U32) {q : Nat} (h : q < 4) : (le4 v).getD q 0#8 = v.extractLsb' (8 * q) 8 := by
  interval_cases q <;> rfl

theorem streamWord_le4 (v : U32) : streamWord (bitAt (le4 v)) 32 = v := by
  refine BitVec.eq_of_getLsbD_eq fun i hi => ?_
  rw [getLsbD_streamWord _ _ hi, bitAt, le4_getD v (by omega), BitVec.getLsbD_extractLsb', Nat.div_add_mod]
  simp [hi, Nat.mod_lt]

/-- A word in little-endian byte order enters the register as a whole. -/
theorem absorb_le4 (acc v : U32) : absorb acc (le4 v) = crcShifts 32 (acc ^^^ v) := by
  rw [absorb_eq_bitRegister, show 8 * (le4 v).length = 32 from rfl, bitRegister_eq_crcShifts _ _ (Nat.le_refl 32),
    streamWord_le4]

/-- Settles O6: after the message the register and its complement cancel to all ones. -/
theorem crcResidueIsConstant : Obligations.CrcResidueIsConstant := by
  unfold Obligations.CrcResidueIsConstant
  intro m
  have hres : absorb crcInit (m ++ le4 (crc32 m)) = 0xDEBB20E3#32 := by
    rw [absorb_append, absorb_le4, crc32, crcFinal, ← BitVec.xor_assoc, BitVec.xor_self, BitVec.zero_xor]
    decide +kernel
  exact ⟨hres, by rw [crc32, hres]; rfl⟩

/-! ### CRC32 is affine -/

theorem crcStep_xor (a b : U32) (u v : Byte) : crcStep (a ^^^ b) (u ^^^ v) = crcStep a u ^^^ crcStep b v := by
  rw [crcStep, crcStep, crcStep, ← crcShifts_xor]
  congr 1
  rw [BitVec.zeroExtend, BitVec.setWidth_xor]
  ac_rfl

theorem absorb_xor {x y : Bytes} (h : x.length = y.length) (a b : U32) :
    absorb (a ^^^ b) (xorBytes x y) = absorb a x ^^^ absorb b y := by
  induction x generalizing y a b with
  | nil => cases List.length_eq_zero_iff.mp h.symm; rfl
  | cons u x ih =>
    cases y with
    | nil => cases h
    | cons v y =>
      calc absorb (a ^^^ b) (xorBytes (u :: x) (v :: y)) = absorb (crcStep (a ^^^ b) (u ^^^ v)) (xorBytes x y) := rfl
        _ = absorb (crcStep a u) x ^^^ absorb (crcStep b v) y := by rw [crcStep_xor, ih (Nat.succ.inj h)]

theorem length_xorBytes {x y : Bytes} (h : x.length = y.length) : (xorBytes x y).length = y.length := by
  simp [xorBytes, h]

theorem xorBytes_zeros (x : Bytes) : xorBytes x (List.replicate x.length 0#8) = x := by
  induction x with
  | nil => rfl
  | cons u x ih =>
    rw [List.length_cons, List.replicate_succ, xorBytes, List.zipWith_cons_cons, BitVec.xor_zero]
    exact congrArg _ ih

/-- The mask of CRC_FINAL survives an odd number of times (R108 clause 3). -/
theorem crcFinal_xor_three (a b c : U32) : crcFinal a ^^^ crcFinal b ^^^ crcFinal c = crcFinal (a ^^^ b ^^^ c) := by
  calc crcFinal a ^^^ crcFinal b ^^^ crcFinal c
      = crcFinal (a ^^^ b ^^^ c) ^^^ (0xFFFFFFFF#32 ^^^ 0xFFFFFFFF#32) := by simp only [crcFinal]; ac_rfl
    _ = crcFinal (a ^^^ b ^^^ c) := by rw [BitVec.xor_self, BitVec.xor_zero]

theorem crc32_xor_three {x y z : Bytes} (hxy : x.length = y.length) (hyz : y.length = z.length) :
    crc32 x ^^^ crc32 y ^^^ crc32 z = crc32 (xorBytes (xorBytes x y) z) := by
  have hreg : absorb crcInit (xorBytes (xorBytes x y) z)
      = absorb crcInit x ^^^ absorb crcInit y ^^^ absorb crcInit z := by
    rw [← absorb_xor hxy, ← absorb_xor ((length_xorBytes hxy).trans hyz)]
    rfl
  rw [crc32, crc32, crc32, crc32, hreg, crcFinal_xor_three]

/-- Settles O5: the register is linear in its start and the bytes together (`absorb_xor`); for two sequences the third
is as many zero bytes. -/
theorem crcIsIncrementalAndAffine : Obligations.CrcIsIncrementalAndAffine := by
  unfold Obligations.CrcIsIncrementalAndAffine
  refine ⟨absorb_append, fun x y z => crc32_xor_three, fun x y h => ?_⟩
  have h3 := crc32_xor_three h (z := List.replicate x.length 0#8) (by simp [h])
  rw [h, ← length_xorBytes h, xorBytes_zeros] at h3
  rw [h, ← length_xorBytes h, ← h3, BitVec.xor_assoc, BitVec.xor_self, BitVec.xor_zero]

/-! ### The table form -/

theorem crcTable_eq : crcTable = (List.range 256).map fun i => crcStep 0#32 (BitVec.ofNat 8 i) := by decide +kernel

theorem crcTable_getD (i : Byte) : crcTable.getD i.toNat 0#32 = crcStep 0#32 i := by
  simp [crcTable_eq, List.getD_eq_getElem?_getD, i.isLt]

/-- Eight passes: the low byte is looked up, the rest is shifted (R106). -/
theorem crcShifts_eight (v : U32) : crcShifts 8 v = v >>> 8 ^^^ crcStep 0#32 (v.setWidth 8) := by
  have parts : v = v >>> 8 <<< 8 ^^^ (v.setWidth 8).zeroExtend 32 := by
    refine BitVec.eq_of_getLsbD_eq fun i hi => ?_
    simp only [BitVec.getLsbD_xor, BitVec.getLsbD_shiftLeft, BitVec.getLsbD_ushiftRight, BitVec.getLsbD_setWidth]
    grind
  have high : crcShifts 8 (v >>> 8 <<< 8) = v >>> 8 := by
    rw [crcShifts_of_low_zero fun i hi => by simp [hi]]
    refine BitVec.eq_of_getLsbD_eq fun i hi => ?_
    simp only [BitVec.getLsbD_shiftLeft, BitVec.getLsbD_ushiftRight]
    grind
  conv_lhs => rw [parts]
  rw [crcShifts_xor, high, crcStep, BitVec.zero_xor]

theorem crcStepByTable_eq (acc : U32) (byte : Byte) : crcStepByTable acc byte = crcStep acc byte := by
  have index : ((acc ^^^ byte.zeroExtend 32) &&& 0xFF#32).toNat = ((acc ^^^ byte.zeroExtend 32).setWidth 8).toNat := by
    rw [BitVec.toNat_and, BitVec.toNat_setWidth]
    exact Nat.and_two_pow_sub_one_eq_mod _ 8
  have rest : (acc ^^^ byte.zeroExtend 32) >>> 8 = acc >>> 8 :=
    BitVec.eq_of_getLsbD_eq fun i hi => by simp
  calc crcStepByTable acc byte
      = acc >>> 8 ^^^ crcStep 0#32 ((acc ^^^ byte.zeroExtend 32).setWidth 8) := by
        rw [crcStepByTable, index, crcTable_getD]
    _ = crcStep acc byte := by rw [← rest, ← crcShifts_eight, crcStep]

/-- Settles O3: the entries are computed from R103; eight passes look up the low byte and shift the rest. -/
theorem crcTableFormIsCrcStep : Obligations.CrcTableFormIsCrcStep := by
  unfold Obligations.CrcTableFormIsCrcStep
  exact ⟨by rw [crcTable_eq, List.length_map, List.length_range], crcTable_getD, crcStepByTable_eq⟩

/-! ### The most-significant-bit-first form -/

theorem reverse_xor {w : Nat} (a b : BitVec w) : (a ^^^ b).reverse = a.reverse ^^^ b.reverse :=
  BitVec.eq_of_getLsbD_eq fun i hi => by
    simp only [BitVec.getLsbD_reverse, BitVec.getLsbD_xor, BitVec.getMsbD_xor]

theorem reverse_ushiftRight {w : Nat} (a : BitVec w) (n : Nat) : (a >>> n).reverse = a.reverse <<< n :=
  BitVec.eq_of_getLsbD_eq fun i hi => by
    simp only [BitVec.getLsbD_reverse, BitVec.getMsbD_eq_getLsbD, BitVec.getLsbD_shiftLeft, BitVec.getLsbD_ushiftRight]
    grind

/-- The byte reversed enters at the top of the reversed register (R107). -/
theorem reverse_zeroExtend_byte (byte : Byte) : (byte.zeroExtend 32).reverse = byte.reverse.zeroExtend 32 <<< 24 :=
  BitVec.eq_of_getLsbD_eq fun i hi => by
    simp only [BitVec.getLsbD_reverse, BitVec.getMsbD_eq_getLsbD, BitVec.getLsbD_shiftLeft, BitVec.getLsbD_setWidth]
    grind

/-- The high bit decides whether the polynomial is applied (R107). -/
theorem crcShiftMsb_eq (reg : U32) :
    crcShiftMsb reg = reg <<< 1 ^^^ bif reg.getLsbD 31 then crcPolyMsb else 0#32 := by
  have hand : reg &&& 0x80000000#32 = if reg.getLsbD 31 then BitVec.twoPow 32 31 else 0#32 :=
    BitVec.and_twoPow (w := 32) reg 31
  rw [crcShiftMsb, hand]
  cases reg.getLsbD 31 <;> simp

/-- On the reversed register one pass of the loop of R107 is one pass of that of R103. -/
theorem crcShiftMsb_reverse (acc : U32) : crcShiftMsb acc.reverse = (crcShift acc).reverse := by
  have hbit : acc.reverse.getLsbD 31 = acc.getLsbD 0 := by rw [BitVec.getLsbD_reverse, BitVec.getMsbD_eq_getLsbD]; rfl
  have hpoly : crcPoly.reverse = crcPolyMsb := by decide +kernel
  rw [crcShiftMsb_eq, crcShift_eq, reverse_xor, reverse_ushiftRight, hbit]
  cases acc.getLsbD 0
  · rw [cond_false, cond_false, BitVec.reverse_eq_zero_iff.mpr rfl]
  · rw [cond_true, cond_true, hpoly]

theorem crcShiftsMsb_reverse (n : Nat) (acc : U32) : crcShiftsMsb n acc.reverse = (crcShifts n acc).reverse := by
  induction n generalizing acc with
  | zero => rfl
  | succ n ih => rw [crcShiftsMsb, crcShifts, crcShiftMsb_reverse, ih]

theorem crcStepMsb_reverse (acc : U32) (byte : Byte) : crcStepMsb acc.reverse byte = (crcStep acc byte).reverse := by
  rw [crcStepMsb, ← reverse_zeroExtend_byte, ← reverse_xor, crcShiftsMsb_reverse, crcStep]

theorem foldl_crcStepMsb_reverse (m : Bytes) (acc : U32) :
    m.foldl crcStepMsb acc.reverse = (absorb acc m).reverse := by
  induction m generalizing acc with
  | nil => rfl
  | cons byte m ih =>
    rw [List.foldl_cons, crcStepMsb_reverse, ih]
    rfl

/-- Settles O4: the two forms start at all ones, which is its own reverse, and every byte keeps their registers each
other's reverse (`crcStepMsb_reverse`). -/
theorem crcMsbFirstFormIsCrc32 : Obligations.CrcMsbFirstFormIsCrc32 := by
  unfold Obligations.CrcMsbFirstFormIsCrc32
  intro m
  have hinit : 0xFFFFFFFF#32 = crcInit.reverse := by decide +kernel
  rw [crc32Msb, hinit, foldl_crcStepMsb_reverse, BitVec.reverse_reverse_eq, crc32, crcFinal, ← hinit]

/-! ### The operations -/

theorem exec_crcInit (s : State) : exec .crcInit s = .next (s.deliver (.ok (.u32 crcInit))) :=
  finish_eq (.ok (.u32 crcInit)) s

theorem exec_crcStep (acc : U32) (byte : Byte) (s : State) :
    exec (.crcStep acc byte) s = .next (s.deliver (.ok (.u32 (crcStep acc byte)))) :=
  finish_eq (.ok (.u32 (crcStep acc byte))) s

theorem exec_crcFinal (acc : U32) (s : State) :
    exec (.crcFinal acc) s = .next (s.deliver (.ok (.u32 (crcFinal acc)))) :=
  finish_eq (.ok (.u32 (crcFinal acc))) s

theorem exec_crc32 (m : Bytes) (s : State) : exec (.crc32 m) s = .next (s.deliver (.ok (.u32 (crc32 m)))) :=
  finish_eq (.ok (.u32 (crc32 m))) s

/-- CRC_STEP with the low bit tested as a bit (R103). -/
theorem crcStep_eq_iterate (acc : U32) (byte : Byte) :
    crcStep acc byte = (fun a : U32 => if a.getLsbD 0 then (a >>> 1) ^^^ 0xEDB88320#32 else a >>> 1)^[8]
      (acc ^^^ byte.zeroExtend 32) := by
  have hpass : crcShift = fun a : U32 => if a.getLsbD 0 then (a >>> 1) ^^^ 0xEDB88320#32 else a >>> 1 := by
    funext a
    rw [crcShift_eq]
    cases a.getLsbD 0 <;> simp [crcPoly]
  rw [crcStep, crcShifts_eq_iterate, hpass]

/-- Settles O1: each operation delivers its result; the sample values are computed. -/
theorem crcRegisterOperations : Obligations.CrcRegisterOperations := by
  unfold Obligations.CrcRegisterOperations
  refine ⟨exec_crcInit, fun s acc byte => ?_, fun s acc => exec_crcFinal acc s,
    fun acc byte => ⟨rfl, rfl, rfl⟩, ?_⟩
  · rw [exec_crcStep, crcStep_eq_iterate]
  · decide +kernel

/-- Settles O2: CRC32 delivers its result; the sample values are computed. -/
theorem crc32StepsEveryByteInOrder : Obligations.Crc32StepsEveryByteInOrder := by
  unfold Obligations.Crc32StepsEveryByteInOrder
  exact ⟨fun s m => exec_crc32 m s, fun m => rfl, by decide +kernel⟩

end Sys2Proof.Machine
end

