-- ==== Sys2Proof/Proofs/LeInteger.lean ====
section
/-!
PROOFS of the family `41_le_integer.md`. The four widths are one codec, `fieldPut` and `fieldGet` at `n` bytes: the laws
of R130 are proved once, for every `n`. The bytes of a value are known from its low byte and the rest of it
(`leBytes_append`), so LE_GET of bytes in a buffer is LE_GET of the LE_PUT of a value.
-/

namespace Sys2Proof.Machine

/-! ### The codec at every width -/

/-- LE_PUT of a field of `n` bytes (R121 to R124). -/
def fieldPut (n : Nat) (v : BitVec (8 * n)) : Bytes := leBytes n v.toNat

/-- LE_GET of a field of `n` bytes (R125 to R129). -/
def fieldGet (n : Nat) (b : Bytes) (pos : Nat) : Except Error (BitVec (8 * n) × Nat) := do
  let (v, pos) ← readField b pos n
  return (BitVec.ofNat (8 * n) v, pos)

theorem lePut1_eq_fieldPut : lePut1 = fieldPut 1 := rfl
theorem lePut2_eq_fieldPut : lePut2 = fieldPut 2 := rfl
theorem lePut4_eq_fieldPut : lePut4 = fieldPut 4 := rfl
theorem lePut8_eq_fieldPut : lePut8 = fieldPut 8 := rfl
theorem leGet1_eq_fieldGet : leGet1 = fieldGet 1 := rfl
theorem leGet2_eq_fieldGet : leGet2 = fieldGet 2 := rfl
theorem leGet4_eq_fieldGet : leGet4 = fieldGet 4 := rfl
theorem leGet8_eq_fieldGet : leGet8 = fieldGet 8 := rfl

@[simp] theorem fieldPut_length (n : Nat) (v : BitVec (8 * n)) : (fieldPut n v).length = n := leBytes_length n _

theorem leNat_fieldPut (n : Nat) (v : BitVec (8 * n)) : leNat (fieldPut n v) = v.toNat := by
  rw [fieldPut, leNat_leBytes, Nat.mod_eq_of_lt v.isLt]

theorem fieldPut_injective (n : Nat) : Function.Injective (fieldPut n) := fun v v' h =>
  BitVec.eq_of_toNat_eq (by rw [← leNat_fieldPut, h, leNat_fieldPut])

theorem fieldGet_ok_iff {n : Nat} {b : Bytes} {pos : Nat} {v : BitVec (8 * n)} {q : Nat} :
    fieldGet n b pos = .ok (v, q) ↔ At b pos (fieldPut n v) ∧ q = pos + n :=
  readField_value_iff rfl

theorem fieldGet_truncated {n : Nat} {b : Bytes} {pos : Nat} (h : b.length < pos + n) :
    fieldGet n b pos = .error .truncatedInput :=
  readField_value_cut h

theorem fieldGet_of_room {n : Nat} {b : Bytes} {pos : Nat} (h : pos + n ≤ b.length) :
    fieldGet n b pos = .ok (BitVec.ofNat (8 * n) (memRead b pos n), pos + n) := by
  rw [fieldGet, readField_of_room h]
  rfl

/-- The bounds test is the one test LE_GET makes (R45, R128). -/
theorem fieldGet_error_iff {n : Nat} {b : Bytes} {pos : Nat} {e : Error} :
    fieldGet n b pos = .error e ↔ e = .truncatedInput ∧ b.length < pos + n := by
  constructor
  · intro he
    rcases Nat.lt_or_ge b.length (pos + n) with hcut | hroom
    · rw [fieldGet_truncated hcut] at he
      cases he
      exact ⟨rfl, hcut⟩
    · rw [fieldGet_of_room hroom] at he
      cases he
  · rintro ⟨rfl, hcut⟩
    exact fieldGet_truncated hcut

/-- R130 at every width. -/
theorem fieldCodec_laws (n : Nat) : LeLaws n (fieldPut n) (fieldGet n) := by
  refine ⟨fieldPut_length n, fun v pre post => ?_, fun b pos v q h => ?_, fun b pos e => fieldGet_error_iff,
    fun v v' h => fieldPut_injective n h⟩
  · exact fieldGet_ok_iff.mpr ⟨at_mid pre _ post, rfl⟩
  · obtain ⟨hat, hq⟩ := fieldGet_ok_iff.mp h
    have hbytes := hat.subBytes
    rw [fieldPut_length] at hbytes
    exact ⟨hq, hbytes.symm⟩

/-- Settles O11: the four widths are four cases of `fieldCodec_laws`. -/
theorem leCodecLaws : Obligations.LeCodecLaws := by
  unfold Obligations.LeCodecLaws
  rw [lePut1_eq_fieldPut, leGet1_eq_fieldGet, lePut2_eq_fieldPut, leGet2_eq_fieldGet, lePut4_eq_fieldPut,
    leGet4_eq_fieldGet, lePut8_eq_fieldPut, leGet8_eq_fieldGet]
  exact ⟨fieldCodec_laws 1, fieldCodec_laws 2, fieldCodec_laws 4, fieldCodec_laws 8⟩

/-! ### LE_PUT -/

theorem lePut4_eq_le4 (v : U32) : lePut4 v = le4 v := rfl

theorem lePut8_eq_le8 (v : U64) : lePut8 v = le8 v := rfl

theorem exec_lePut1 (v : Byte) (s : State) : exec (.lePut1 v) s = .next (s.deliver (.ok (.bytes (lePut1 v)))) :=
  finish_eq (.ok (.bytes (lePut1 v))) s

theorem exec_lePut2 (v : U16) (s : State) : exec (.lePut2 v) s = .next (s.deliver (.ok (.bytes (lePut2 v)))) :=
  finish_eq (.ok (.bytes (lePut2 v))) s

theorem exec_lePut4 (v : U32) (s : State) : exec (.lePut4 v) s = .next (s.deliver (.ok (.bytes (lePut4 v)))) :=
  finish_eq (.ok (.bytes (lePut4 v))) s

theorem exec_lePut8 (v : U64) (s : State) : exec (.lePut8 v) s = .next (s.deliver (.ok (.bytes (lePut8 v)))) :=
  finish_eq (.ok (.bytes (lePut8 v))) s

/-- Settles O9: each LE_PUT delivers its bytes, which are the ones written out. -/
theorem lePutWritesLowByteFirst : Obligations.LePutWritesLowByteFirst := by
  unfold Obligations.LePutWritesLowByteFirst
  refine ⟨fun s v => ?_, fun s v => ?_, fun s v => ?_, fun s v => ?_,
    fun v => rfl, fun v => rfl, fun v => rfl, fun v => rfl⟩
  · rw [← lePut1_eq v, exec_lePut1]
  · rw [← lePut2_eq_le2 v, exec_lePut2]
  · rw [← lePut4_eq_le4 v, exec_lePut4]
  · rw [← lePut8_eq_le8 v, exec_lePut8]

/-! ### LE_GET -/

/-- The low byte of a value is written first, then the rest of it. -/
theorem leBytes_append {w : Nat} (n : Nat) (hi : BitVec w) (x : Byte) :
    leBytes (n + 1) (hi ++ x).toNat = x :: leBytes n hi.toNat := by
  have hlow : BitVec.ofNat 8 (hi ++ x).toNat = x := by
    rw [BitVec.ofNat_toNat, BitVec.setWidth_append_eq_right]
  have hrest : (hi ++ x).toNat >>> 8 = hi.toNat := by
    rw [BitVec.toNat_append, Nat.shiftRight_or_distrib, Nat.shiftLeft_shiftRight,
      Nat.shiftRight_eq_zero _ _ x.isLt, Nat.or_zero]
  rw [leBytes, hlow, hrest]

theorem leBytes_one (x : Byte) : leBytes 1 x.toNat = [x] := lePut1_eq x

theorem lePut2_append (x1 x0 : Byte) : lePut2 (x1 ++ x0) = [x0, x1] := by
  show leBytes 2 (x1 ++ x0).toNat = _
  simp only [leBytes_append, leBytes_one]

theorem lePut4_append (x3 x2 x1 x0 : Byte) : lePut4 (x3 ++ x2 ++ x1 ++ x0) = [x0, x1, x2, x3] := by
  show leBytes 4 (x3 ++ x2 ++ x1 ++ x0).toNat = _
  simp only [leBytes_append, leBytes_one]

theorem lePut8_append (x7 x6 x5 x4 x3 x2 x1 x0 : Byte) :
    lePut8 (x7 ++ x6 ++ x5 ++ x4 ++ x3 ++ x2 ++ x1 ++ x0) = [x0, x1, x2, x3, x4, x5, x6, x7] := by
  show leBytes 8 (x7 ++ x6 ++ x5 ++ x4 ++ x3 ++ x2 ++ x1 ++ x0).toNat = _
  simp only [leBytes_append, leBytes_one]

/-- A decoding operation hands back the value its decoder gave. -/
theorem atCursor_map_ok {α : Type} {b : Bytes} {pos : Nat} {r : Except Error α} {a : α} (hp : pos ≤ b.length)
    (h : r = .ok a) (f : α → Ret) (s : State) : atCursor b pos (r.map f) s = .next (s.deliver (.ok (f a))) := by
  rw [h]
  exact atCursor_of_le hp _ s

/-- A decoding operation raises the error its decoder raised. -/
theorem atCursor_map_error {α : Type} {b : Bytes} {pos : Nat} {r : Except Error α} {e : Error} (hp : pos ≤ b.length)
    (h : r = .error e) (f : α → Ret) (s : State) : atCursor b pos (r.map f) s = .next (s.deliver (.error e)) := by
  rw [h]
  exact atCursor_of_le hp _ s

/-- Settles O10: bytes in a buffer are the LE_PUT of a value that stands at the cursor, which LE_GET reads; where fewer
remain it makes its bounds test and no other (`fieldGet_truncated`). -/
theorem leGetAssemblesLowByteFirst : Obligations.LeGetAssemblesLowByteFirst := by
  unfold Obligations.LeGetAssemblesLowByteFirst
  refine ⟨fun s pre post x0 => ?_, fun s pre post x0 x1 => ?_, fun s pre post x0 x1 x2 x3 => ?_,
    fun s pre post x0 x1 x2 x3 x4 x5 x6 x7 => ?_, fun s b pos hp => ?_⟩
  · rw [← lePut1_eq x0]
    have hat := at_mid pre (lePut1 x0) post
    exact atCursor_map_ok hat.1 (leGet1_at hat) _ s
  · rw [← lePut2_append]
    have hat := at_mid pre (lePut2 (x1 ++ x0)) post
    exact atCursor_map_ok hat.1 (leGet2_at hat) _ s
  · rw [← lePut4_append]
    have hat := at_mid pre (lePut4 (x3 ++ x2 ++ x1 ++ x0)) post
    exact atCursor_map_ok hat.1 (leGet4_at hat) _ s
  · rw [← lePut8_append]
    have hat := at_mid pre (lePut8 (x7 ++ x6 ++ x5 ++ x4 ++ x3 ++ x2 ++ x1 ++ x0)) post
    exact atCursor_map_ok hat.1 (leGet8_at hat) _ s
  · have hcut (n : Nat) (h : b.length - pos < n) : fieldGet n b pos = .error .truncatedInput :=
      fieldGet_truncated (by omega)
    exact ⟨fun h => atCursor_map_error hp (hcut 1 h) _ s, fun h => atCursor_map_error hp (hcut 2 h) _ s,
      fun h => atCursor_map_error hp (hcut 4 h) _ s, fun h => atCursor_map_error hp (hcut 8 h) _ s⟩

end Sys2Proof.Machine
end

