-- ==== Sys2Proof/Proofs/Header.lean ====
section
/-!
PROOFS of the family `42_header.md`. What HDR_ENC and TAG_ENC write is the layout of R61 and R64
(`hdrEncode_eq_wireHeader`, `tagEncode_eq_wireTag`), and what HDR_DEC and TAG_DEC read is known from `hdrDecode_ok_iff`
and `tagDecode_ok_iff`. On a buffer too short for that they must fail, and a chain of field reads fails in one way only
(`OnlyTruncates`), whichever field is the first that is not all there.
-/

namespace Sys2Proof.Machine

/-! ### HDR_ENC and TAG_ENC -/

theorem hdrEncode_eq_wireHeader (h : Header) : hdrEncode h = wireHeader h := by
  simp only [hdrEncode, wireHeader, lePut1_eq, lePut2_eq_le2, lePut4_eq_le4, lePut8_eq_le8, List.cons_append,
    List.nil_append]

theorem tagEncode_eq_wireTag (spaceHash32 : U32) (modality : Byte) :
    tagEncode spaceHash32 modality = wireTag spaceHash32 modality := by
  rw [tagEncode, wireTag, lePut1_eq, lePut4_eq_le4]

theorem exec_hdrEnc (h : Header) (s : State) :
    exec (.hdrEnc h.version h.msgType h.flags h.streamId h.frameSeq h.numSlices) s
      = .next (s.deliver (.ok (.bytes (hdrEncode h)))) :=
  finish_eq (.ok (.bytes (hdrEncode h))) s

theorem exec_tagEnc (spaceHash32 : U32) (modality : Byte) (s : State) :
    exec (.tagEnc spaceHash32 modality) s = .next (s.deliver (.ok (.bytes (tagEncode spaceHash32 modality)))) :=
  finish_eq (.ok (.bytes (tagEncode spaceHash32 modality))) s

/-- Settles O12: each delivers its bytes, which are the layout written out. -/
theorem headerAndTagAreLaidOut : Obligations.HeaderAndTagAreLaidOut := by
  unfold Obligations.HeaderAndTagAreLaidOut
  refine ⟨fun s version msgType flags streamId frameSeq numSlices => ?_, fun s spaceHash32 modality => ?_⟩
  · rw [exec_hdrEnc ⟨version, msgType, flags, streamId, frameSeq, numSlices⟩, hdrEncode_eq_wireHeader, wireHeader]
  · rw [exec_tagEnc, tagEncode_eq_wireTag, wireTag]

/-! ### Reads that fail -/

/-- The one error a decoding raises, if any, is TruncatedInput. -/
def OnlyTruncates {α : Type} (x : Except Error α) : Prop := ∀ e, x = .error e → e = .truncatedInput

theorem onlyTruncates_ok {α : Type} (a : α) : OnlyTruncates (.ok a) := fun _ h => by cases h

theorem onlyTruncates_fieldGet (n : Nat) (b : Bytes) (pos : Nat) : OnlyTruncates (fieldGet n b pos) :=
  fun _ h => (fieldGet_error_iff.mp h).1

theorem OnlyTruncates.bind {α β : Type} {x : Except Error α} {f : α → Except Error β} (hx : OnlyTruncates x)
    (hf : ∀ a, OnlyTruncates (f a)) : OnlyTruncates (x >>= f) := fun e h => by
  obtain he | ⟨a, -, he⟩ := bind_error_iff.mp h
  · exact hx e he
  · exact hf a e he

/-- A decoding that gives no value raises its one error. -/
theorem OnlyTruncates.eq_truncated {α : Type} {x : Except Error α} (hx : OnlyTruncates x) (hno : ∀ a, x ≠ .ok a) :
    x = .error .truncatedInput := by
  cases x with
  | ok a => exact absurd rfl (hno a)
  | error e => rw [hx e rfl]

theorem onlyTruncates_hdrDecode (b : Bytes) (pos : Nat) : OnlyTruncates (hdrDecode b pos) :=
  (onlyTruncates_fieldGet 1 b pos).bind fun (_, pos) =>
  (onlyTruncates_fieldGet 1 b pos).bind fun (_, pos) =>
  (onlyTruncates_fieldGet 2 b pos).bind fun (_, pos) =>
  (onlyTruncates_fieldGet 4 b pos).bind fun (_, pos) =>
  (onlyTruncates_fieldGet 8 b pos).bind fun (_, pos) =>
  (onlyTruncates_fieldGet 8 b pos).bind fun _ => onlyTruncates_ok _

theorem onlyTruncates_tagDecode (b : Bytes) (pos : Nat) : OnlyTruncates (tagDecode b pos) :=
  (onlyTruncates_fieldGet 4 b pos).bind fun (_, pos) =>
  (onlyTruncates_fieldGet 1 b pos).bind fun _ => onlyTruncates_ok _

theorem hdrDecode_truncated {b : Bytes} {pos : Nat} (hcut : b.length < pos + 24) :
    hdrDecode b pos = .error .truncatedInput := by
  refine (onlyTruncates_hdrDecode b pos).eq_truncated fun (h, q) hok => ?_
  obtain ⟨hat, -⟩ := hdrDecode_ok_iff.mp hok
  have hroom := hat.room
  rw [hdrEncode_length] at hroom
  omega

theorem tagDecode_truncated {b : Bytes} {pos : Nat} (hcut : b.length < pos + 5) :
    tagDecode b pos = .error .truncatedInput := by
  refine (onlyTruncates_tagDecode b pos).eq_truncated fun (tag, q) hok => ?_
  obtain ⟨hat, -⟩ := tagDecode_ok_iff.mp hok
  have hroom := hat.room
  rw [tagEncode_length] at hroom
  omega

/-! ### Reads that succeed -/

theorem hdrDecode_at {b : Bytes} {pos : Nat} {h : Header} (hat : At b pos (hdrEncode h)) :
    hdrDecode b pos = .ok (h, pos + 24) := hdrDecode_ok_iff.mpr ⟨hat, rfl⟩

theorem tagDecode_at {b : Bytes} {pos : Nat} {spaceHash32 : U32} {modality : Byte}
    (hat : At b pos (tagEncode spaceHash32 modality)) : tagDecode b pos = .ok ((spaceHash32, modality), pos + 5) :=
  tagDecode_ok_iff.mpr ⟨hat, rfl⟩

/-- Settles O13: bytes laid out as a header or a tag group are what the encoder writes, which its decoder reads; on a
buffer with no room for them the decoder only truncates. -/
theorem headerAndTagAreRead : Obligations.HeaderAndTagAreRead := by
  unfold Obligations.HeaderAndTagAreRead
  refine ⟨fun s pre post h => ?_, fun s b pos hp hcut => ?_, fun s pre post spaceHash32 modality => ?_,
    fun s b pos hp hcut => ?_⟩
  · rw [← hdrEncode_eq_wireHeader]
    have hat := at_mid pre (hdrEncode h) post
    exact atCursor_map_ok hat.1 (hdrDecode_at hat) _ s
  · exact atCursor_map_error hp (hdrDecode_truncated (by omega)) _ s
  · rw [← tagEncode_eq_wireTag]
    have hat := at_mid pre (tagEncode spaceHash32 modality) post
    exact atCursor_map_ok hat.1 (tagDecode_at hat) _ s
  · exact atCursor_map_error hp (tagDecode_truncated (by omega)) _ s

/-- Settles O14: HDR_DEC gives a header exactly when its encoding stands at the cursor (`hdrDecode_ok_iff`). -/
theorem headerLaws : Obligations.HeaderLaws := by
  unfold Obligations.HeaderLaws
  refine ⟨hdrEncode_length, fun h pre post => hdrDecode_at (at_mid pre (hdrEncode h) post), fun b pos h q hok => ?_⟩
  obtain ⟨hat, hq⟩ := hdrDecode_ok_iff.mp hok
  have hbytes := hat.subBytes
  rw [hdrEncode_length] at hbytes
  exact ⟨hq, hbytes.symm⟩

end Sys2Proof.Machine
end

