-- ==== Sys2Proof/Proofs/SliceTable.lean ====
section
/-!
PROOFS of the family `43_slice_table.md`. TBL_DEC gives a table exactly when the table's bytes stand at the cursor
(`tblDecode_ok_iff`), and its one bounds test, made before any entry is read, is the only way it fails
(`tblDecode_truncated`). So a decoding that gives a table began inside the buffer, and the law of R167 needs no bound on
the cursor.
-/

namespace Sys2Proof.Machine

/-! ### TBL_ENC -/

theorem tblEncode_eq_flatMap_le4 (lens : List U32) : tblEncode lens = lens.flatMap le4 :=
  congrArg (lens.flatMap ·) (funext lePut4_eq_le4)

theorem exec_tblEnc (lens : List U32) (s : State) :
    exec (.tblEnc lens) s = .next (s.deliver (.ok (.bytes (tblEncode lens)))) :=
  finish_eq (.ok (.bytes (tblEncode lens))) s

/-! ### TBL_DEC -/

/-- The bounds test of R166: `4 * n` is compared as a natural number. -/
theorem tblDecode_truncated {b : Bytes} {pos : Nat} {n : U64} (hcut : b.length < pos + 4 * n.toNat) :
    tblDecode b pos n = .error .truncatedInput := by
  rw [tblDecode, if_neg]
  rw [roomFor, decide_eq_true_eq]
  omega

theorem tblDecode_at {b : Bytes} {pos : Nat} {n : U64} {tbl : List U32} (hn : tbl.length = n.toNat)
    (hat : At b pos (tblEncode tbl)) : tblDecode b pos n = .ok (tbl, pos + 4 * n.toNat) :=
  (tblDecode_ok_iff hat.1).mpr ⟨hat, hn, rfl⟩

theorem tblDecode_cursor_le {b : Bytes} {pos q : Nat} {n : U64} {tbl : List U32}
    (hok : tblDecode b pos n = .ok (tbl, q)) : pos ≤ b.length := by
  by_contra hpast
  rw [tblDecode_truncated (by omega)] at hok
  cases hok

/-- Settles O15: the entries' bytes are what TBL_ENC writes, which TBL_DEC reads; without room for all of them the bounds
test fails. -/
theorem tblDecReadsEveryEntryOrRaises : Obligations.TblDecReadsEveryEntryOrRaises := by
  unfold Obligations.TblDecReadsEveryEntryOrRaises
  refine ⟨fun s pre post n tbl hn => ?_, fun s b pos n hp hcut => ?_⟩
  · rw [← tblEncode_eq_flatMap_le4]
    have hat := at_mid pre (tblEncode tbl) post
    exact atCursor_map_ok hat.1 (tblDecode_at hn hat) _ s
  · exact atCursor_map_error hp (tblDecode_truncated (by omega)) _ s

/-! ### The laws of the table (R167) -/

theorem tblDecode_tblEncode (lens : List U32) (pre post : Bytes) (hlt : lens.length < 2 ^ 64) :
    tblDecode (pre ++ tblEncode lens ++ post) pre.length (BitVec.ofNat 64 lens.length)
      = .ok (lens, pre.length + 4 * lens.length) := by
  have hcount : (BitVec.ofNat 64 lens.length).toNat = lens.length := by
    rw [BitVec.toNat_ofNat, Nat.mod_eq_of_lt hlt]
  rw [tblDecode_at hcount.symm (at_mid pre (tblEncode lens) post), hcount]

theorem tblEncode_of_tblDecode {b : Bytes} {pos q : Nat} {n : U64} {tbl : List U32}
    (hok : tblDecode b pos n = .ok (tbl, q)) :
    tbl.length = n.toNat ∧ q = pos + 4 * n.toNat ∧ tblEncode tbl = subBytes b pos (q - pos) := by
  obtain ⟨hat, hn, hq⟩ := (tblDecode_ok_iff (tblDecode_cursor_le hok)).mp hok
  have hbytes := hat.subBytes
  rw [tblEncode_length, hn] at hbytes
  exact ⟨hn, hq, by rw [hq, Nat.add_sub_cancel_left, hbytes]⟩

/-- Settles O16: what TBL_ENC delivers is the entries written out, and each direction of R167 follows from what stands
at the cursor. -/
theorem tableLaws : Obligations.TableLaws := by
  unfold Obligations.TableLaws
  refine ⟨fun s lens => ?_, fun lens => rfl, tblEncode_length, tblDecode_tblEncode,
    fun b pos n tbl q => tblEncode_of_tblDecode⟩
  rw [exec_tblEnc, tblEncode_eq_flatMap_le4]

end Sys2Proof.Machine
end

