-- ==== Sys2Proof/Proofs/PayloadLength.lean ====
section
/-!
PROOFS of the family `44_payload_length.md`. PLEN maps what ELEM_SIZE gives: an error stays, and an element size
`(num, den)` becomes the product of the dimensions times `num` over `den`, rounded up (`payloadLength_eq`). So each
clause about PLEN is the value of `elemSize` at a dtype byte and a fact about a product or a quotient of natural numbers.
-/

namespace Sys2Proof.Machine

/-! ### ELEM_SIZE -/

/-- Every byte but F16, I8 and Q4 is without an element size, SparseCoo among them (R177, R183). -/
theorem elemSize_unsupported {d : Byte} (h1 : d ≠ 0x01#8) (h2 : d ≠ 0x02#8) (h3 : d ≠ 0x03#8) (cfg : Config) :
    elemSize cfg d = .error .unsupportedDtype := by
  by_cases h16 : d = 0x10#8
  · rw [h16, elemSize_sparseCoo]
  · exact elemSize_unnamed (dtypeUnnamed_of_ne h1 h2 h3 h16) cfg

theorem exec_elemSize {s : State} {d : Byte} {r : Except Error (Nat × Nat)} (h : elemSize s.cfg d = r) :
    exec (.elemSize d) s = .next (s.deliver (r.map fun (num, den) => .elemSize num den)) :=
  finish_dtypeResult h

/-- Settles O17: what ELEM_SIZE gives at each byte. -/
theorem elemSizeFollowsTheDtypeTable : Obligations.ElemSizeFollowsTheDtypeTable := by
  unfold Obligations.ElemSizeFollowsTheDtypeTable
  exact fun s => ⟨exec_elemSize (elemSize_f16 s.cfg), exec_elemSize (elemSize_i8 s.cfg),
    fun hq => exec_elemSize (elemSize_q4_packed hq),
    fun hq => exec_elemSize (elemSize_q4_reject hq),
    fun _ h1 h2 h3 => exec_elemSize (elemSize_unsupported h1 h2 h3 s.cfg)⟩

/-! ### Products and quotients -/

theorem shapeProduct_eq_prod (shape : List U32) : shapeProduct shape = (shape.map BitVec.toNat).prod := by
  rw [shapeProduct, List.prod_eq_foldl, List.foldl_map]

theorem shapeProduct_eq_zero {shape : List U32} (h : 0#32 ∈ shape) : shapeProduct shape = 0 := by
  rw [shapeProduct_eq_prod]
  exact List.prod_eq_zero (List.mem_map_of_mem h)

theorem shapeProduct_perm {shape shape' : List U32} (h : shape.Perm shape') :
    shapeProduct shape' = shapeProduct shape := by
  rw [shapeProduct_eq_prod, shapeProduct_eq_prod, (h.map BitVec.toNat).prod_eq]

theorem ceilDiv_one (a : Nat) : ceilDiv a 1 = a := by
  rw [ceilDiv, Nat.add_sub_cancel, Nat.div_one]

theorem ceilDiv_two (a : Nat) : ceilDiv a 2 = (a + 1) / 2 := rfl

theorem ceilDiv_zero (b : Nat) : ceilDiv 0 b = 0 := by
  rw [ceilDiv, Nat.div_eq_zero_iff]
  omega

/-! ### PLEN -/

/-- The payload length of a shape whose elements take `num` bytes per `den` (R180). -/
def lengthOfElements (shape : List U32) : Nat × Nat → Nat
  | (num, den) => ceilDiv (shapeProduct shape * num) den

theorem payloadLength_eq (cfg : Config) (d : Byte) (shape : List U32) :
    payloadLength cfg d shape = (elemSize cfg d).map (lengthOfElements shape) := by
  rw [payloadLength]
  cases elemSize cfg d <;> rfl

theorem lengthOfElements_f16 (shape : List U32) :
    lengthOfElements shape (2, 1) = 2 * (shape.map BitVec.toNat).prod := by
  rw [lengthOfElements, ceilDiv_one, shapeProduct_eq_prod, Nat.mul_comm]

theorem lengthOfElements_i8 (shape : List U32) :
    lengthOfElements shape (1, 1) = (shape.map BitVec.toNat).prod := by
  rw [lengthOfElements, ceilDiv_one, shapeProduct_eq_prod, Nat.mul_one]

theorem lengthOfElements_q4 (shape : List U32) :
    lengthOfElements shape (1, 2) = ((shape.map BitVec.toNat).prod + 1) / 2 := by
  rw [lengthOfElements, ceilDiv_two, shapeProduct_eq_prod, Nat.mul_one]

theorem onShape_deliver {shape : List U32} (hlen : shape.length ≤ 255) (r : Result) (s : State) :
    onShape shape r s = .next (s.deliver r) := by
  rw [onShape, if_pos hlen, finish_eq]

section Exec
variable {s : State} {d : Byte} {shape : List U32} (hlen : shape.length ≤ 255)
include hlen

theorem exec_plen : exec (.plen d shape) s = .next (s.deliver ((payloadLength s.cfg d shape).map .length)) :=
  onShape_deliver hlen _ s

theorem exec_plen_ok {size : Nat × Nat} {n : Nat} (h : elemSize s.cfg d = .ok size)
    (hn : lengthOfElements shape size = n) : exec (.plen d shape) s = .next (s.deliver (.ok (.length n))) := by
  rw [exec_plen hlen, payloadLength_eq, h, ← hn]
  rfl

theorem exec_plen_error {e : Error} (h : elemSize s.cfg d = .error e) :
    exec (.plen d shape) s = .next (s.deliver (.error e)) := by
  rw [exec_plen hlen, payloadLength_eq, h]
  rfl

end Exec

/-- Settles O18: what ELEM_SIZE gives at each byte, and the payload length that element size makes. -/
theorem plenIsExact : Obligations.PlenIsExact := by
  unfold Obligations.PlenIsExact
  exact fun s shape hlen => ⟨exec_plen_ok hlen (elemSize_f16 s.cfg) (lengthOfElements_f16 shape),
    exec_plen_ok hlen (elemSize_i8 s.cfg) (lengthOfElements_i8 shape),
    fun hq => exec_plen_ok hlen (elemSize_q4_packed hq) (lengthOfElements_q4 shape),
    fun hq => exec_plen_error hlen (elemSize_q4_reject hq),
    fun _ h1 h2 h3 => exec_plen_error hlen (elemSize_unsupported h1 h2 h3 s.cfg)⟩

/-! ### Zero dimensions and the order of the dimensions -/

theorem elemSize_ok_of_supported {cfg : Config} {d : Byte} (h : supported cfg d = true) :
    ∃ size, elemSize cfg d = .ok size := by
  unfold supported at h
  split at h
  · next size hsize => exact ⟨size, hsize⟩
  · cases h

theorem lengthOfElements_eq_zero {shape : List U32} (h : 0#32 ∈ shape) (size : Nat × Nat) :
    lengthOfElements shape size = 0 := by
  rw [lengthOfElements, shapeProduct_eq_zero h, Nat.zero_mul, ceilDiv_zero]

theorem payloadLength_eq_zero {cfg : Config} {d : Byte} {shape : List U32} (hs : supported cfg d = true)
    (h : 0#32 ∈ shape) : payloadLength cfg d shape = .ok 0 := by
  obtain ⟨size, hsize⟩ := elemSize_ok_of_supported hs
  rw [payloadLength_eq, hsize, Except.map, lengthOfElements_eq_zero h]

/-- The order of the dimensions does not matter, whatever the dtype (R180). -/
theorem payloadLength_perm {shape shape' : List U32} (h : shape.Perm shape') (cfg : Config) (d : Byte) :
    payloadLength cfg d shape' = payloadLength cfg d shape := by
  simp only [payloadLength, shapeProduct_perm h]

/-- Settles O19: a zero dimension makes the product 0, and a permutation keeps it. -/
theorem plenIgnoresOrderAndVanishesAtZero : Obligations.PlenIgnoresOrderAndVanishesAtZero := by
  unfold Obligations.PlenIgnoresOrderAndVanishesAtZero
  exact fun cfg d _ hs => ⟨payloadLength_eq_zero hs, fun _ hperm => payloadLength_perm hperm cfg d⟩

end Sys2Proof.Machine
end

