-- ==== Sys2Proof/Proofs/Slice.lean ====
section
/-!
PROOFS of the family `45_slice.md`. What SLICE_ENC writes is the layout of R65 (`sliceEncode_eq_wireSlice`). SLICE_DEC
(R200) is two readings one after the other (`sliceDecode_eq`): the metadata, which fails in one way only (steps 1 to 3),
and the payload of a known dtype and shape, which makes the three checks left in the order of R201 (steps 4 to 7). The
laws of R204 follow from what stands at the cursor (`sliceDecode_ok_iff`, `sliceDecode_cut`).
-/

namespace Sys2Proof.Machine

/-! ### SLICE_ENC -/

theorem putU32s_eq_flatMap_le4 (vs : List U32) : putU32s vs = vs.flatMap le4 := tblEncode_eq_flatMap_le4 vs

theorem sliceEncode_eq_wireSlice (d : SliceDescriptor) : sliceEncode d = wireSlice d := by
  rw [sliceEncode, wireSlice, lePut1_eq, lePut1_eq, putU32s_eq_flatMap_le4, List.singleton_append]

theorem exec_sliceEnc {s : State} {d : SliceDescriptor} (h : SliceReady s.cfg d) :
    exec (.sliceEnc d) s = .next (s.deliver (.ok (.bytes (sliceEncode d)))) := by
  show execSliceEnc d s = _
  rw [execSliceEnc, if_pos (sliceReady_iff.mpr h), finish_eq]

/-- Settles O20: the bytes delivered are the layout written out, and their length is that of the encoding. -/
theorem sliceEncIsLaidOut : Obligations.SliceEncIsLaidOut := by
  unfold Obligations.SliceEncIsLaidOut
  intro s d h
  rw [exec_sliceEnc h, ← sliceEncode_eq_wireSlice, sliceEncode_length, sliceBytes, Nat.add_assoc]
  exact ⟨rfl, rfl⟩

/-! ### What the encoders refuse -/

theorem exec_sliceEnc_refused {s : State} {d : SliceDescriptor} (h : ¬ SliceReady s.cfg d) :
    exec (.sliceEnc d) s = .refused .illFormedSlice := by
  show execSliceEnc d s = _
  rw [execSliceEnc, if_neg (mt sliceReady_iff.mp h)]

theorem exec_frameEnc_refused {s : State} {f : Frame} (h : ¬ WF s.cfg f) :
    exec (.frameEnc f) s = .refused .illFormedFrame := by
  show execFrameEnc f s = _
  rw [execFrameEnc, if_neg (mt frameWF_iff.mp h)]

theorem exec_fmtHeader_encode_refused {s : State} {f : Frame} (hj : s.job = none) (h : ¬ WF s.cfg f) :
    exec (.fmtHeader (.encode f)) s = .refused .illFormedFrame := by
  simp only [exec, execFmtHeader, hj, if_neg (mt frameWF_iff.mp h)]

/-- Settles O21: each encoder makes the test of its precondition (`sliceReady_iff`, `frameWF_iff`) before it writes. -/
theorem encodersRefuseIllFormedOperands : Obligations.EncodersRefuseIllFormedOperands := by
  unfold Obligations.EncodersRefuseIllFormedOperands
  exact ⟨fun _ _ => exec_sliceEnc_refused, fun _ _ => exec_frameEnc_refused,
    fun _ _ => exec_fmtHeader_encode_refused⟩

/-! ### The laws of the slice codec (R204) -/

/-- The payload length of a slice SLICE_ENC takes fits its table entry. -/
theorem SliceReady.entry_toNat {cfg : Config} {d : SliceDescriptor} (h : SliceReady cfg d) :
    (BitVec.ofNat 32 d.payload.length).toNat = d.payload.length := by
  obtain ⟨-, -, -, hlt⟩ := h
  rw [BitVec.toNat_ofNat, Nat.mod_eq_of_lt hlt]

theorem sliceDecode_at {cfg : Config} {b : Bytes} {pos : Nat} {d : SliceDescriptor} (hd : SliceReady cfg d)
    (hat : At b pos (sliceEncode d)) :
    sliceDecode cfg b pos (BitVec.ofNat 32 d.payload.length) = .ok (d, pos + (sliceEncode d).length) :=
  sliceDecode_ok_iff.mpr ⟨hat, hd, hd.entry_toNat.symm, rfl⟩

theorem sliceEncode_of_sliceDecode {cfg : Config} {b : Bytes} {pos q : Nat} {entry : U32} {d : SliceDescriptor}
    (hok : sliceDecode cfg b pos entry = .ok (d, q)) :
    SliceReady cfg d ∧ d.payload.length = entry.toNat ∧ sliceEncode d = subBytes b pos (q - pos) := by
  obtain ⟨hat, hd, hentry, rfl⟩ := sliceDecode_ok_iff.mp hok
  exact ⟨hd, hentry, by rw [Nat.add_sub_cancel_left, hat.subBytes]⟩

/-- A buffer that holds only the first `k` bytes of `e` ends inside `e`. -/
theorem cut_take {e : Bytes} {k : Nat} (hk : k < e.length) (pre : Bytes) :
    Cut (pre ++ e.take k) pre.length e := by
  refine ⟨?_, ?_, ?_⟩
  · rw [List.length_append]
    exact Nat.le_add_right _ _
  · rw [List.drop_left]
    exact List.take_prefix k e
  · rw [List.length_append, List.length_take]
    omega

/-- Settles O22: SLICE_DEC gives a slice exactly when its encoding stands at the cursor (`sliceDecode_ok_iff`), and
truncates when the buffer ends inside it (`sliceDecode_cut`). -/
theorem sliceCodecLaws : Obligations.SliceCodecLaws := by
  unfold Obligations.SliceCodecLaws
  refine ⟨fun s d pre post hd => ?_, fun cfg b pos entry d q => sliceEncode_of_sliceDecode,
    fun cfg d pre k hd hk => sliceDecode_cut hd hd.entry_toNat.symm (cut_take hk pre)⟩
  have hat := at_mid pre (sliceEncode d) post
  exact atCursor_map_ok hat.1 (sliceDecode_at hd hat) _ s

/-! ### The two readings of SLICE_DEC -/

/-- Steps 1 to 3 of SLICE_DEC (R200): the dtype, the number of dimensions and the dimensions. -/
def sliceMetadata (b : Bytes) (pos : Nat) : Except Error ((Byte × Byte × List U32) × Nat) := do
  let (dtype, pos) ← leGet1 b pos
  let (k, pos) ← leGet1 b pos
  let (shape, pos) ← getU32s b pos k.toNat
  return ((dtype, k, shape), pos)

/-- Steps 4 to 7 of SLICE_DEC (R200): the payload of a slice of this dtype and shape. -/
def slicePayload (cfg : Config) (b : Bytes) (entry : U32) (dtype : Byte) (shape : List U32) (pos : Nat) :
    Except Error (SliceDescriptor × Nat) := do
  let size ← payloadLength cfg dtype shape
  if size ≠ entry.toNat then .error .sizeMismatch
  else if roomFor b pos size then return (⟨dtype, shape, subBytes b pos size⟩, pos + size)
  else .error .truncatedInput

theorem sliceDecode_eq (cfg : Config) (b : Bytes) (pos : Nat) (entry : U32) :
    sliceDecode cfg b pos entry = (do
      let ((dtype, _, shape), pos) ← sliceMetadata b pos
      slicePayload cfg b entry dtype shape pos) := by
  simp only [sliceDecode, sliceMetadata, slicePayload, bind_assoc, pure_bind]

/-! ### The metadata -/

theorem onlyTruncates_getU32s (b : Bytes) (pos k : Nat) : OnlyTruncates (getU32s b pos k) := by
  induction k generalizing pos with
  | zero => exact onlyTruncates_ok _
  | succ k ih =>
    exact (onlyTruncates_fieldGet 4 b pos).bind fun (_, pos) => (ih pos).bind fun _ => onlyTruncates_ok _

theorem onlyTruncates_sliceMetadata (b : Bytes) (pos : Nat) : OnlyTruncates (sliceMetadata b pos) :=
  (onlyTruncates_fieldGet 1 b pos).bind fun (_, pos) =>
  (onlyTruncates_fieldGet 1 b pos).bind fun (k, pos) =>
  (onlyTruncates_getU32s b pos k.toNat).bind fun _ => onlyTruncates_ok _

/-- The metadata is read exactly when its bytes stand at the cursor. -/
theorem sliceMetadata_ok_iff {b : Bytes} {pos q : Nat} {dtype k : Byte} {shape : List U32} :
    sliceMetadata b pos = .ok ((dtype, k, shape), q) ↔
      At b pos ([dtype, k] ++ putU32s shape) ∧ shape.length = k.toNat ∧ q = pos + 2 + 4 * k.toNat := by
  have hbytes : [dtype, k] ++ putU32s shape = lePut1 dtype ++ (lePut1 k ++ putU32s shape) := by
    simp only [lePut1_eq, List.cons_append, List.nil_append]
  simp only [sliceMetadata, hbytes, at_append, lePut1_length, bind_ok_iff, Prod.exists, leGet1_ok_iff]
  constructor
  · rintro ⟨_, _, ⟨hdtype, rfl⟩, _, _, ⟨hk, rfl⟩, _, _, hdims, heq⟩
    cases heq
    obtain ⟨hshape, hlen, rfl⟩ := (getU32s_ok_iff hk.room).mp hdims
    exact ⟨⟨hdtype, hk, hshape⟩, hlen, rfl⟩
  · rintro ⟨⟨hdtype, hk, hshape⟩, hlen, rfl⟩
    exact ⟨_, _, ⟨hdtype, rfl⟩, _, _, ⟨hk, rfl⟩, _, _, (getU32s_ok_iff hk.room).mpr ⟨hshape, hlen, rfl⟩, rfl⟩

/-- The buffer ends before the two fixed bytes of the metadata. -/
theorem sliceMetadata_truncated {b : Bytes} {pos : Nat} (hcut : b.length < pos + 2) :
    sliceMetadata b pos = .error .truncatedInput := by
  refine (onlyTruncates_sliceMetadata b pos).eq_truncated fun ((dtype, k, shape), q) hok => ?_
  obtain ⟨hat, -⟩ := sliceMetadata_ok_iff.mp hok
  have hroom := hat.room
  rw [List.length_append, List.length_cons, List.length_singleton] at hroom
  omega

/-- The buffer ends before the last of the `k` dimensions: what is read there would begin with the same two bytes. -/
theorem sliceMetadata_dims_truncated {rest : Bytes} {k : Byte} (hcut : rest.length < 4 * k.toNat) (pre : Bytes)
    (dtype : Byte) : sliceMetadata (pre ++ [dtype, k] ++ rest) pre.length = .error .truncatedInput := by
  refine (onlyTruncates_sliceMetadata _ _).eq_truncated fun ((dtype', k', shape), q) hok => ?_
  obtain ⟨⟨-, hprefix⟩, hlen, -⟩ := sliceMetadata_ok_iff.mp hok
  rw [List.append_assoc, List.drop_left] at hprefix
  simp only [List.cons_append, List.nil_append, List.cons_prefix_cons] at hprefix
  obtain ⟨-, rfl, hdims⟩ := hprefix
  have hle := hdims.length_le
  rw [putU32s_length] at hle
  omega

theorem sliceDecode_of_metadata_error {b : Bytes} {pos : Nat} {e : Error} (h : sliceMetadata b pos = .error e)
    (cfg : Config) (entry : U32) : sliceDecode cfg b pos entry = .error e := by
  rw [sliceDecode_eq, h, error_bind]

theorem sliceDecode_of_metadata_at {b : Bytes} {pos : Nat} {dtype k : Byte} {shape : List U32}
    (hat : At b pos ([dtype, k] ++ putU32s shape)) (hlen : shape.length = k.toNat) (cfg : Config) (entry : U32) :
    sliceDecode cfg b pos entry = slicePayload cfg b entry dtype shape (pos + 2 + 4 * k.toNat) := by
  rw [sliceDecode_eq, sliceMetadata_ok_iff.mpr ⟨hat, hlen, rfl⟩, ok_bind]

/-! ### The checks after the metadata (R201 to R203) -/

theorem elemSize_error {cfg : Config} {d : Byte} {e : Error} (h : elemSize cfg d = .error e) :
    e = .unsupportedDtype := by
  unfold elemSize at h
  split at h
  case h_1 | h_2 => cases h
  case h_3 =>
    split at h
    · cases h
    · cases h; rfl
  case h_4 =>
    split at h
    cases h; rfl
  case h_5 => cases h; rfl

theorem payloadLength_error {cfg : Config} {d : Byte} {shape : List U32} {e : Error}
    (h : payloadLength cfg d shape = .error e) : e = .unsupportedDtype := by
  rw [payloadLength_eq] at h
  cases hsize : elemSize cfg d with
  | ok size => rw [hsize] at h; cases h
  | error e' =>
    rw [hsize] at h
    cases h
    exact elemSize_error hsize

section Payload
variable {cfg : Config} {b : Bytes} {entry : U32} {dtype : Byte} {shape : List U32} {pos size : Nat}

theorem slicePayload_unsupported {e : Error} (h : payloadLength cfg dtype shape = .error e) :
    slicePayload cfg b entry dtype shape pos = .error .unsupportedDtype := by
  rw [slicePayload, h, error_bind, payloadLength_error h]

theorem slicePayload_mismatch (h : payloadLength cfg dtype shape = .ok size) (hne : size ≠ entry.toNat) :
    slicePayload cfg b entry dtype shape pos = .error .sizeMismatch := by
  rw [slicePayload, h, ok_bind, if_pos hne]

theorem slicePayload_truncated (h : payloadLength cfg dtype shape = .ok size) (heq : size = entry.toNat)
    (hcut : b.length < pos + size) : slicePayload cfg b entry dtype shape pos = .error .truncatedInput := by
  have hroom : ¬ roomFor b pos size = true := by
    rw [roomFor, decide_eq_true_eq]
    omega
  rw [slicePayload, h, ok_bind, if_neg (not_not_intro heq), if_neg hroom]

end Payload

/-- A slice whose metadata is all there raises what its payload raises. -/
theorem exec_sliceDec_payload_error {s : State} {pre rest : Bytes} {dtype k : Byte} {shape : List U32} {entry : U32}
    {e : Error} (hlen : shape.length = k.toNat)
    (h : slicePayload s.cfg (pre ++ [dtype, k] ++ shape.flatMap le4 ++ rest) entry dtype shape
      (pre.length + 2 + 4 * k.toNat) = .error e) :
    exec (.sliceDec (pre ++ [dtype, k] ++ shape.flatMap le4 ++ rest) pre.length entry) s
      = .next (s.deliver (.error e)) := by
  have hat : At (pre ++ [dtype, k] ++ shape.flatMap le4 ++ rest) pre.length ([dtype, k] ++ putU32s shape) := by
    rw [← putU32s_eq_flatMap_le4, List.append_assoc pre]
    exact at_mid pre _ rest
  exact atCursor_map_error hat.1 ((sliceDecode_of_metadata_at hat hlen s.cfg entry).trans h) _ s

/-- Settles O23: the metadata is read first, and what follows it fails at the first of its checks that does not hold. -/
theorem sliceDecChecksInOrder : Obligations.SliceDecChecksInOrder := by
  unfold Obligations.SliceDecChecksInOrder
  refine ⟨fun s b pos entry hp hcut => ?_, fun s pre rest dtype k entry hcut => ?_,
    fun s pre rest dtype k shape entry hlen =>
      ⟨fun e he => ?_, fun size hsize hne => ?_, fun size hsize heq hcut => ?_⟩⟩
  · exact atCursor_map_error hp (sliceDecode_of_metadata_error (sliceMetadata_truncated (by omega)) s.cfg entry) _ s
  · have hp := (at_mid pre [dtype, k] rest).1
    exact atCursor_map_error hp
      (sliceDecode_of_metadata_error (sliceMetadata_dims_truncated hcut pre dtype) s.cfg entry) _ s
  · exact exec_sliceDec_payload_error hlen (slicePayload_unsupported he)
  · exact exec_sliceDec_payload_error hlen (slicePayload_mismatch hsize hne)
  · refine exec_sliceDec_payload_error hlen (slicePayload_truncated hsize heq ?_)
    rw [← putU32s_eq_flatMap_le4]
    simp only [List.length_append, List.length_cons, List.length_nil, putU32s_length, hlen]
    omega

end Sys2Proof.Machine
end

