-- ==== Sys2Proof/Proofs/Frame.lean ====
section
/-!
PROOFS of the family `46_frame_integrity.md`. FRAME_DEC (R225) is a walk over header, table, tag group and slices, and
VERIFY of the trailer where the walk ends (`frameDecode_eq`). The walk succeeds exactly on a buffer that begins with
what FRAME_ENC writes before the trailer (`frameWalk_ok_iff`), and VERIFY accepts exactly the checksum of the bytes
before it, so FRAME_DEC gives a Frame for nothing but what FRAME_ENC writes of it (`frameDecode_ok_iff`). Round trips,
cut frames and wrong trailers follow. All frames have one CRC32, trailer included, so no single bit turns a frame into a
frame; a bit of carried bytes leaves another frame's bytes with a wrong trailer (`flipBit_trailed`).

A frame operation done part by part has one result in the end, that of FRAME_DEC or FRAME_ENC (`jobResult`): a part that
goes on keeps it (`exec_part_extends`), and a part that ends the operation hands it back (`exec_part_result`).
-/

namespace Sys2Proof.Machine

/-! ### The state -/

theorem deliver_inj {s : State} {r r' : Result} : s.deliver r = s.deliver r' ↔ r = r' := by
  refine ⟨fun h => ?_, congrArg s.deliver⟩
  have hresults := congrArg State.results h
  rw [deliver_results, deliver_results, List.append_cancel_left_eq] at hresults
  exact List.singleton_inj.mp hresults

theorem endJob_of_idle {s : State} (hj : s.job = none) : s.endJob = s := by
  rw [State.endJob, ← hj]

theorem endJob_withJob {s : State} (hj : s.job = none) (j : Job) : (s.withJob j).endJob = s := endJob_of_idle hj

theorem withRequests_self {s : State} (hr : s.requests = []) : s.withRequests [] = s := by
  rw [State.withRequests, ← hr]

theorem withJob_inj {s : State} {j j' : Job} : s.withJob j = s.withJob j' ↔ j = j' := by
  refine ⟨fun h => ?_, congrArg s.withJob⟩
  have hjob := congrArg State.job h
  exact Option.some.inj hjob

theorem withJob_ne_endJob (s : State) (j : Job) (r : Result) : s.withJob j ≠ s.endJob.deliver r := fun h => by
  have hjob := congrArg State.job h
  cases hjob

/-! ### Bytes -/

/-- Any `n` bytes are a field of that width. -/
theorem exists_fieldPut {n : Nat} {e : Bytes} (h : e.length = n) : ∃ v, fieldPut n v = e := by
  subst h
  refine ⟨BitVec.ofNat _ (leNat e), ?_⟩
  rw [fieldPut, BitVec.toNat_ofNat, Nat.mod_eq_of_lt (leNat_lt e), leBytes_leNat]

/-- Any four bytes are a stored checksum. -/
theorem exists_le4 {e : Bytes} (h : e.length = 4) : ∃ v, le4 v = e := exists_fieldPut h

theorem exists_byte {e : Bytes} (h : e.length = 1) : ∃ v, [v] = e := by
  obtain ⟨v, rfl⟩ := List.length_eq_one_iff.mp h
  exact ⟨v, rfl⟩

theorem exists_append_of_length {e : Bytes} {m n : Nat} (h : e.length = m + n) :
    ∃ x y, e = x ++ y ∧ x.length = m ∧ y.length = n :=
  ⟨e.take m, e.drop m, (List.take_append_drop m e).symm, by rw [List.length_take]; omega,
    by rw [List.length_drop]; omega⟩

theorem modify_append_of_lt (g : Byte → Byte) {e : Bytes} {i : Nat} (h : i < e.length) (post : Bytes) :
    (e ++ post).modify i g = e.modify i g ++ post := by
  rw [List.modify_eq_take_cons_drop h, List.modify_eq_take_cons_drop (by rw [List.length_append]; omega)]
  simp [h, List.take_append_of_le_length h.le, List.drop_append_of_le_length (show i + 1 ≤ e.length from h)]

theorem modify_append_add (g : Byte → Byte) (pre rest : Bytes) (i : Nat) :
    (pre ++ rest).modify (pre.length + i) g = pre ++ rest.modify i g := by
  induction pre with
  | nil => simp
  | cons x pre ih => rw [List.length_cons, Nat.add_right_comm, List.cons_append, List.modify_succ_cons, ih]; rfl

/-! ### What FRAME_ENC writes -/

theorem tableEntry_of_ready {cfg : Config} {d : SliceDescriptor} (h : SliceReady cfg d) :
    tableEntry cfg d = BitVec.ofNat 32 d.payload.length := by
  obtain ⟨-, -, hlen, -⟩ := h
  rw [tableEntry, hlen]

theorem frameBody_eq_wireBody {cfg : Config} {f : Frame} (h : WF cfg f) : frameBody cfg f = wireBody f := by
  obtain ⟨-, hready⟩ := h
  have htbl : f.slices.map (tableEntry cfg) = f.slices.map fun d => BitVec.ofNat 32 d.payload.length :=
    List.map_congr_left fun d hd => tableEntry_of_ready (hready d hd)
  rw [frameBody, wireBody, hdrEncode_eq_wireHeader, frameHeader, tagEncode_eq_wireTag, tblEncode_eq_flatMap_le4, htbl,
    List.flatMap_map, funext sliceEncode_eq_wireSlice]

theorem frameEncode_eq_wire {cfg : Config} {f : Frame} (h : WF cfg f) :
    frameEncode cfg f = wireBody f ++ le4 (crc32 (wireBody f)) := by
  rw [frameEncode, frameBody_eq_wireBody h, lePut4_eq_le4]

theorem exec_frameEnc {s : State} {f : Frame} (h : WF s.cfg f) :
    exec (.frameEnc f) s = .next (s.deliver (.ok (.bytes (frameEncode s.cfg f)))) := by
  show execFrameEnc f s = _
  rw [execFrameEnc, if_pos (frameWF_iff.mpr h), finish_eq]

/-- Settles O24: what FRAME_ENC delivers is the layout written out. -/
theorem frameEncIsLaidOut : Obligations.FrameEncIsLaidOut := by
  unfold Obligations.FrameEncIsLaidOut
  intro s f h
  rw [exec_frameEnc h, frameEncode_eq_wire h]

/-! ### VERIFY -/

theorem endsAt_iff {cfg : Config} {b : Bytes} {q : Nat} : endsAt cfg b q = true ↔ q = b.length := by
  simp only [endsAt, decide_eq_true_eq]

/-- The trailer read, it is accepted at the end of the buffer when it holds the checksum (R220, R223). -/
theorem checkTrailer_of_stored {cfg : Config} {b : Bytes} {p q : Nat} {computed stored : U32}
    (h : leGet4 b p = .ok (stored, q)) :
    checkTrailer cfg b p computed
      = if q = b.length ∧ computed = stored then .ok stored else .error .integrityError := by
  rw [checkTrailer, h, ok_bind]
  by_cases hq : q = b.length
  · by_cases hc : computed = stored
    · simp [endsAt_iff, hq, hc, pure, Except.pure]
    · simp [endsAt_iff, hq, hc]
  · simp [endsAt_iff, hq]

theorem checkTrailer_of_error {cfg : Config} {b : Bytes} {p : Nat} {computed : U32} {e : Error}
    (h : leGet4 b p = .error e) : checkTrailer cfg b p computed = .error e := by
  rw [checkTrailer, h, error_bind]

/-- VERIFY makes the trailer's tests with the CRC32 of the bytes before it: the bounds test it begins with is the one of
the trailer's read. -/
theorem verify_eq_checkTrailer (cfg : Config) (b : Bytes) (p : Nat) :
    verify cfg b p = checkTrailer cfg b p (crc32 (b.take p)) := by
  rw [verify]
  split
  · rfl
  · next hroom =>
    rw [roomFor, decide_eq_true_eq, Nat.not_le] at hroom
    rw [checkTrailer_of_error (fieldGet_truncated hroom)]

/-- VERIFY of a trailer that is there. -/
theorem verify_of_at {cfg : Config} {b : Bytes} {p : Nat} {stored : U32} (hat : At b p (le4 stored)) :
    verify cfg b p
      = if p + 4 = b.length ∧ crc32 (b.take p) = stored then .ok stored else .error .integrityError := by
  rw [verify_eq_checkTrailer, checkTrailer_of_stored (leGet4_at hat)]

theorem verify_of_short {cfg : Config} {b : Bytes} {p : Nat} (h : b.length < p + 4) :
    verify cfg b p = .error .truncatedInput := by
  rw [verify_eq_checkTrailer, checkTrailer_of_error (fieldGet_truncated h)]

/-- VERIFY of bytes, a trailer and what follows it. -/
theorem verify_append (cfg : Config) (covered post : Bytes) (stored : U32) :
    verify cfg (covered ++ le4 stored ++ post) covered.length
      = if post = [] ∧ crc32 covered = stored then .ok stored else .error .integrityError := by
  have hend : covered.length + 4 = (covered ++ le4 stored ++ post).length ↔ post = [] := by
    rw [List.length_append, List.length_append, show (le4 stored).length = 4 from rfl, left_eq_add,
      List.length_eq_zero_iff]
  have htake : (covered ++ le4 stored ++ post).take covered.length = covered := by
    rw [List.append_assoc, List.take_left]
  simp only [verify_of_at (at_mid covered (le4 stored) post), hend, htake]

theorem verify_checksum (cfg : Config) (covered : Bytes) :
    verify cfg (covered ++ le4 (crc32 covered)) covered.length = .ok (crc32 covered) := by
  have h := verify_append cfg covered [] (crc32 covered)
  rwa [List.append_nil, if_pos ⟨rfl, rfl⟩] at h

/-- VERIFY accepts nothing but the checksum of the bytes before it. -/
theorem verify_append_ok {cfg : Config} {covered rest : Bytes} {crc : U32}
    (h : verify cfg (covered ++ rest) covered.length = .ok crc) : rest = le4 crc ∧ crc = crc32 covered := by
  rcases Nat.lt_or_ge rest.length 4 with hshort | hroom
  · rw [verify_of_short (by rw [List.length_append]; omega)] at h
    cases h
  · obtain ⟨stored, hstored⟩ := exists_le4 (e := rest.take 4) (by rw [List.length_take]; omega)
    obtain ⟨post, rfl⟩ : ∃ post, rest = le4 stored ++ post :=
      ⟨rest.drop 4, by rw [hstored, List.take_append_drop]⟩
    rw [← List.append_assoc, verify_append] at h
    split at h
    · next hgood =>
      cases h
      obtain ⟨rfl, hcrc⟩ := hgood
      exact ⟨List.append_nil _, hcrc.symm⟩
    · cases h

/-- Settles O26: the bounds test, and the two tests of a trailer that is there. -/
theorem verifyOutcomes : Obligations.VerifyOutcomes := by
  unfold Obligations.VerifyOutcomes
  refine ⟨fun s b p hp hcut => ?_, fun s covered post stored => ⟨fun hbad => ?_, fun hgood => ?_⟩⟩
  · exact atCursor_map_error hp (verify_of_short (by omega)) _ s
  · refine atCursor_map_error (at_mid covered (le4 stored) post).1 ?_ _ s
    rw [verify_append, if_neg (by tauto)]
  · refine atCursor_map_ok (at_mid covered (le4 stored) post).1 ?_ _ s
    rw [verify_append, if_pos hgood]

/-! ### The walk of FRAME_DEC before its last stage -/

/-- Stages 1 to 4 of FRAME_DEC (R225): the Frame they read and where its trailer begins. -/
def frameWalk (cfg : Config) (b : Bytes) : Except Error (Frame × Nat) := do
  let (h, pos) ← hdrDecode b 0
  let (tbl, pos) ← tblDecode b pos h.numSlices
  let (tag, pos) ← tagDecode b pos
  let (slices, pos) ← decodeSlices cfg b pos tbl
  return (frameOf h tag.1 tag.2 slices, pos)

theorem frameDecode_eq (cfg : Config) (b : Bytes) :
    frameDecode cfg b = (do
      let (f, pos) ← frameWalk cfg b
      let crc ← verify cfg b pos
      return (f, crc)) := by
  simp only [frameDecode, frameWalk, bind_assoc, pure_bind]

theorem frameHeader_frameOf {h : Header} {slices : List SliceDescriptor} (hn : slices.length = h.numSlices.toNat)
    (spaceHash32 : U32) (modality : Byte) : frameHeader (frameOf h spaceHash32 modality slices) = h := by
  simp only [frameHeader, frameOf, hn, BitVec.ofNat_toNat, BitVec.setWidth_eq]

/-- The header's count is that of the table's entries (R217). -/
theorem frameTable_length {cfg : Config} {f : Frame} (hw : WF cfg f) :
    (f.slices.map (tableEntry cfg)).length = (frameHeader f).numSlices.toNat := by
  obtain ⟨hlt, -⟩ := hw
  simp only [frameHeader, List.length_map, BitVec.toNat_ofNat, Nat.mod_eq_of_lt hlt]

theorem frameTable_at {cfg : Config} {b : Bytes} {f : Frame} (hw : WF cfg f)
    (hat : At b 24 (tblEncode (f.slices.map (tableEntry cfg)))) :
    tblDecode b 24 (frameHeader f).numSlices = .ok (f.slices.map (tableEntry cfg), 24 + 4 * f.slices.length) := by
  rw [tblDecode_at (frameTable_length hw) hat, ← frameTable_length hw, List.length_map]

/-- Where the table, the tag group and the slices of a frame begin (R60). -/
theorem at_frameBody_iff {cfg : Config} {b : Bytes} {f : Frame} :
    At b 0 (frameBody cfg f) ↔
      At b 0 (hdrEncode (frameHeader f)) ∧ At b 24 (tblEncode (f.slices.map (tableEntry cfg)))
        ∧ At b (24 + 4 * f.slices.length) (tagEncode f.spaceHash32 f.modality)
        ∧ At b (24 + 4 * f.slices.length + 5) (f.slices.flatMap sliceEncode) := by
  simp only [frameBody, at_append, List.length_append, hdrEncode_length, tblEncode_length, List.length_map,
    tagEncode_length, Nat.zero_add, and_assoc]

/-- The walk gives a Frame exactly when it is well-formed and what FRAME_ENC writes before the trailer begins the
buffer. -/
theorem frameWalk_ok_iff {cfg : Config} {b : Bytes} {f : Frame} {q : Nat} :
    frameWalk cfg b = .ok (f, q) ↔ WF cfg f ∧ At b 0 (frameBody cfg f) ∧ q = (frameBody cfg f).length := by
  have hlen : (frameBody cfg f).length = 24 + 4 * f.slices.length + 5 + (f.slices.flatMap sliceEncode).length := by
    simp only [frameBody, List.length_append, hdrEncode_length, tblEncode_length, List.length_map, tagEncode_length]
  rw [at_frameBody_iff, hlen]
  simp only [frameWalk, bind_ok_iff, Prod.exists]
  constructor
  · rintro ⟨h, p, hhdr, tbl, p', htbl, x, y, p'', htag, ds, _, hds, heq⟩
    cases heq
    have hp := (hdrDecode_le hhdr).2
    have hp'' := (tagDecode_le htag).2
    obtain ⟨hatHdr, rfl⟩ := hdrDecode_ok_iff.mp hhdr
    obtain ⟨hatTbl, hn, rfl⟩ := (tblDecode_ok_iff hp).mp htbl
    obtain ⟨hatTag, rfl⟩ := tagDecode_ok_iff.mp htag
    obtain ⟨hatSlices, hready, rfl, rfl⟩ := (decodeSlices_ok_iff hp'').mp hds
    rw [List.length_map] at hn
    rw [frameHeader_frameOf hn]
    simp only [← hn, Nat.zero_add] at hatTbl hatTag hatSlices ⊢
    exact ⟨⟨hn ▸ h.numSlices.isLt, hready⟩, ⟨hatHdr, hatTbl, hatTag, hatSlices⟩, rfl⟩
  · rintro ⟨hw, ⟨hhdr, htbl, htag, hds⟩, rfl⟩
    exact ⟨_, _, hdrDecode_at hhdr, _, _, frameTable_at hw htbl, _, _, _, tagDecode_at htag, _, _,
      (decodeSlices_ok_iff hds.1).mpr ⟨hds, hw.2, rfl, rfl⟩, rfl⟩

/-- The walk of a buffer that ends before the trailer raises TruncatedInput: at the stage whose bytes are cut. -/
theorem frameWalk_cut {cfg : Config} {b : Bytes} {f : Frame} (hw : WF cfg f) (hc : Cut b 0 (frameBody cfg f)) :
    frameWalk cfg b = .error .truncatedInput := by
  simp only [frameBody, cut_append, at_append, List.length_append, hdrEncode_length, tblEncode_length, List.length_map,
    tagEncode_length, Nat.zero_add] at hc
  obtain ((hhdr | ⟨hhdr, htbl⟩) | ⟨⟨hhdr, htbl⟩, htag⟩) | ⟨⟨⟨hhdr, htbl⟩, htag⟩, hds⟩ := hc
  · rw [frameWalk, hdrDecode_cut hhdr, error_bind]
  · simp only [frameWalk, hdrDecode_at hhdr, ok_bind, tblDecode_cut (frameTable_length hw) htbl, error_bind]
  · simp only [frameWalk, hdrDecode_at hhdr, ok_bind, frameTable_at hw htbl, tagDecode_cut htag, error_bind]
  · simp only [frameWalk, hdrDecode_at hhdr, ok_bind, frameTable_at hw htbl, tagDecode_at htag,
      decodeSlices_cut hw.2 hds, error_bind]

/-! ### FRAME_DEC of what FRAME_ENC writes -/

theorem frameDecode_of_walk {cfg : Config} {b : Bytes} {f : Frame} {q : Nat} (h : frameWalk cfg b = .ok (f, q)) :
    frameDecode cfg b = (verify cfg b q).map fun crc => (f, crc) := by
  rw [frameDecode_eq, h, ok_bind]
  dsimp only
  cases verify cfg b q <;> rfl

/-- The walk succeeds on what FRAME_ENC writes before the trailer, whatever follows, and VERIFY decides. -/
theorem frameDecode_of_body {cfg : Config} {f : Frame} (hw : WF cfg f) (rest : Bytes) :
    frameDecode cfg (frameBody cfg f ++ rest) =
      (verify cfg (frameBody cfg f ++ rest) (frameBody cfg f).length).map fun crc => (f, crc) :=
  frameDecode_of_walk (frameWalk_ok_iff.mpr ⟨hw, at_mid [] _ rest, rfl⟩)

/-- FRAME_DEC gives a Frame exactly when the buffer is what FRAME_ENC writes of it (R229, R231). -/
theorem frameDecode_ok_iff {cfg : Config} {b : Bytes} {f : Frame} {crc : U32} :
    frameDecode cfg b = .ok (f, crc) ↔ WF cfg f ∧ b = frameEncode cfg f ∧ crc = crc32 (frameBody cfg f) := by
  constructor
  · intro h
    rw [frameDecode_eq] at h
    simp only [bind_ok_iff, Prod.exists] at h
    obtain ⟨f', q, hwalk, crc', hverify, heq⟩ := h
    cases heq
    obtain ⟨hw, ⟨-, rest, hrest⟩, rfl⟩ := frameWalk_ok_iff.mp hwalk
    obtain rfl : frameBody cfg f ++ rest = b := hrest
    obtain ⟨rfl, rfl⟩ := verify_append_ok hverify
    exact ⟨hw, rfl, rfl⟩
  · rintro ⟨hw, rfl, rfl⟩
    rw [frameEncode, frameDecode_of_body hw, lePut4_eq_le4, verify_checksum]
    rfl

/-- What a FRAME_DEC hands back. -/
def frameResult (r : Except Error (Frame × U32)) : Result := r.map fun (f, crc) => .frame f crc

theorem exec_frameDec (b : Bytes) (s : State) :
    exec (.frameDec b) s = .next (s.deliver (frameResult (decodeBuffer s.cfg b))) := finish_eq _ s

theorem decodeBuffer_of_accepted {cfg : Config} {b : Bytes} (h : bufferAccepted cfg b = true) :
    decodeBuffer cfg b = frameDecode cfg b := by
  rw [decodeBuffer_eq, if_pos h]

theorem decodeBuffer_ok {cfg : Config} {b : Bytes} {r : Frame × U32} (h : decodeBuffer cfg b = .ok r) :
    frameDecode cfg b = .ok r := by
  rw [decodeBuffer_eq] at h
  split at h
  · exact h
  · cases h

theorem frameResult_ok {r : Except Error (Frame × U32)} {f : Frame} {crc : U32}
    (h : frameResult r = .ok (.frame f crc)) : r = .ok (f, crc) := by
  cases r with
  | error e => cases h
  | ok x => cases h; rfl

/-- FRAME_DEC that hands back a Frame had what FRAME_ENC writes of it. -/
theorem exec_frameDec_ok {s : State} {b : Bytes} {f : Frame} {crc : U32}
    (h : exec (.frameDec b) s = .next (s.deliver (.ok (.frame f crc)))) :
    WF s.cfg f ∧ b = frameEncode s.cfg f ∧ crc = crc32 (frameBody s.cfg f) := by
  rw [exec_frameDec, Host.Outcome.next.injEq, deliver_inj] at h
  exact frameDecode_ok_iff.mp (decodeBuffer_ok (frameResult_ok h))

theorem exec_frameDec_error {s : State} {b : Bytes} {e : Error} (hb : bufferAccepted s.cfg b = true)
    (h : frameDecode s.cfg b = .error e) : exec (.frameDec b) s = .next (s.deliver (.error e)) := by
  rw [exec_frameDec, decodeBuffer_of_accepted hb, h]
  rfl

theorem frameEncode_take (cfg : Config) (f : Frame) :
    (frameEncode cfg f).take ((frameEncode cfg f).length - 4) = frameBody cfg f := by
  rw [frameEncode, List.length_append, lePut4_length, Nat.add_sub_cancel, List.take_left]

/-- Settles O28: the buffer is what FRAME_ENC writes of the Frame (`frameDecode_ok_iff`). -/
theorem frameDecInvertsFrameEnc : Obligations.FrameDecInvertsFrameEnc := by
  unfold Obligations.FrameDecInvertsFrameEnc
  intro s f hw hb
  rw [exec_frameDec, decodeBuffer_of_accepted hb, frameDecode_ok_iff.mpr ⟨hw, rfl, rfl⟩, frameEncode_take]
  rfl

/-- Settles O29: FRAME_DEC gives a Frame for no buffer but what FRAME_ENC writes of it (`frameDecode_ok_iff`). -/
theorem frameEncInvertsFrameDec : Obligations.FrameEncInvertsFrameDec := by
  unfold Obligations.FrameEncInvertsFrameDec
  intro s b f crc h
  obtain ⟨hw, rfl, -⟩ := exec_frameDec_ok h
  exact ⟨hw, exec_frameEnc hw⟩

/-- A cut frame ends before the trailer, where the walk truncates, or inside it, where VERIFY does. -/
theorem frameDecode_take {cfg : Config} {f : Frame} {j : Nat} (hw : WF cfg f) (hj : j < (frameEncode cfg f).length) :
    frameDecode cfg ((frameEncode cfg f).take j) = .error .truncatedInput := by
  have hcut : Cut ((frameEncode cfg f).take j) 0 (frameBody cfg f ++ lePut4 (crc32 (frameBody cfg f))) :=
    cut_take hj []
  obtain hbody | ⟨hbody, -, -, hlen⟩ := cut_append.mp hcut
  · rw [frameDecode_eq, frameWalk_cut hw hbody, error_bind]
  · rw [lePut4_length, Nat.zero_add] at hlen
    rw [frameDecode_of_walk (frameWalk_ok_iff.mpr ⟨hw, hbody, rfl⟩), verify_of_short hlen]
    rfl

/-- Settles O30: the stage whose bytes are cut, or VERIFY, raises. -/
theorem truncatedFramesRaiseTruncatedInput : Obligations.TruncatedFramesRaiseTruncatedInput := by
  unfold Obligations.TruncatedFramesRaiseTruncatedInput
  exact fun s f j hw hj hb => exec_frameDec_error hb (frameDecode_take hw hj)

/-! ### Wrong trailers and changed bits -/

theorem frameDecode_wrongTrailer {cfg : Config} {f : Frame} {stored : U32} {post : Bytes} (hw : WF cfg f)
    (hbad : post ≠ [] ∨ crc32 (wireBody f) ≠ stored) :
    frameDecode cfg (wireBody f ++ le4 stored ++ post) = .error .integrityError := by
  rw [← frameBody_eq_wireBody hw] at hbad ⊢
  rw [List.append_assoc, frameDecode_of_body hw, ← List.append_assoc, verify_append, if_neg (by tauto)]
  rfl

/-- Settles O34: the walk succeeds and VERIFY refuses the trailer. -/
theorem wrongTrailersRaiseIntegrityError : Obligations.WrongTrailersRaiseIntegrityError := by
  unfold Obligations.WrongTrailersRaiseIntegrityError
  exact fun s f stored post hw hb hbad => exec_frameDec_error hb (frameDecode_wrongTrailer hw hbad)

/-- Every frame has one CRC32, trailer included (R108 clause 5). -/
theorem crc32_frameEncode (cfg : Config) (f : Frame) :
    crc32 (frameEncode cfg f) = 0x2144DF1C#32 := by
  obtain ⟨-, hres⟩ := crcResidueIsConstant (frameBody cfg f)
  rw [frameEncode, lePut4_eq_le4, hres]

/-- No single bit turns a frame into a frame: the two would have different CRC32s. -/
theorem flipBit_frameEncode_ne {cfg : Config} {f f' : Frame} {i k : Nat} (hi : i < (frameEncode cfg f).length)
    (hk : k < 8) : flipBit (frameEncode cfg f) i k ≠ frameEncode cfg f' := by
  intro heq
  refine crcDetectsSingleBitChanges _ i k hi hk ?_
  rw [heq, crc32_frameEncode, crc32_frameEncode]

/-- Settles O31: FRAME_DEC gives a Frame for nothing but a frame, and the changed buffer is none. -/
theorem singleBitChangesAreDetected : Obligations.SingleBitChangesAreDetected := by
  unfold Obligations.SingleBitChangesAreDetected
  intro s f i k hw hi hk
  rw [exec_frameDec]
  cases h : decodeBuffer s.cfg (flipBit (frameEncode s.cfg f) i k) with
  | error e => exact ⟨e, rfl⟩
  | ok r =>
    obtain ⟨-, heq, -⟩ := frameDecode_ok_iff.mp (decodeBuffer_ok h)
    exact absurd heq (flipBit_frameEncode_ne hi hk)

/-! ### Changed bits of carried bytes (R233) -/

/-- A changed bit inside a carried field that takes every byte sequence of its length leaves another value of the
field. -/
theorem CarriedAt.exists_flipBit {α : Type} {a n : Nat} {field body : α → Bytes} (h : CarriedAt a field body)
    (hlen : ∀ v, (field v).length = n) (hall : ∀ e : Bytes, e.length = n → ∃ v, field v = e) {i : Nat}
    (hi : a ≤ i ∧ i < a + n) (k : Nat) (v : α) : ∃ v', flipBit (body v) i k = body v' := by
  obtain ⟨pre, post, rfl, hbody⟩ := h
  obtain ⟨m, rfl⟩ := Nat.exists_eq_add_of_le hi.1
  obtain ⟨v', hv'⟩ := hall (flipBit (field v) m k) (by rw [flipBit, List.length_modify, hlen])
  refine ⟨v', ?_⟩
  rw [hbody, hbody, hv', flipBit, List.append_assoc, modify_append_add, modify_append_of_lt _ (by rw [hlen]; omega),
    List.append_assoc]
  rfl

/-- The fields of a header before `num_slices`, and their 16 bytes (R61). -/
abbrev HeadFields := Byte × Byte × U16 × U32 × U64

def headBytes : HeadFields → Bytes
  | (version, msgType, flags, streamId, frameSeq) =>
    [version] ++ ([msgType] ++ (le2 flags ++ (le4 streamId ++ le8 frameSeq)))

def withHead (f : Frame) : HeadFields → Frame
  | (version, msgType, flags, streamId, frameSeq) =>
    { f with version := version, msgType := msgType, flags := flags, streamId := streamId, frameSeq := frameSeq }

theorem exists_headBytes {e : Bytes} (h : e.length = 16) : ∃ v, headBytes v = e := by
  obtain ⟨e1, e, rfl, h1, h⟩ := exists_append_of_length (m := 1) (n := 15) h
  obtain ⟨e2, e, rfl, h2, h⟩ := exists_append_of_length (m := 1) (n := 14) h
  obtain ⟨e3, e, rfl, h3, h⟩ := exists_append_of_length (m := 2) (n := 12) h
  obtain ⟨e4, e5, rfl, h4, h5⟩ := exists_append_of_length (m := 4) (n := 8) h
  obtain ⟨version, rfl⟩ := exists_byte h1
  obtain ⟨msgType, rfl⟩ := exists_byte h2
  obtain ⟨flags, rfl⟩ := exists_fieldPut h3
  obtain ⟨streamId, rfl⟩ := exists_fieldPut h4
  obtain ⟨frameSeq, rfl⟩ := exists_fieldPut h5
  exact ⟨(version, msgType, flags, streamId, frameSeq), rfl⟩

theorem exists_wireTag {e : Bytes} (h : e.length = 5) : ∃ v : U32 × Byte, wireTag v.1 v.2 = e := by
  obtain ⟨e1, e2, rfl, h1, h2⟩ := exists_append_of_length (m := 4) (n := 1) h
  obtain ⟨spaceHash32, rfl⟩ := exists_fieldPut h1
  obtain ⟨modality, rfl⟩ := exists_byte h2
  exact ⟨(spaceHash32, modality), rfl⟩

/-- What FRAME_ENC writes, with any trailer. -/
def trailed (f : Frame) (stored : U32) : Bytes := wireBody f ++ le4 stored

/-- The header and the table of a frame, each entry the length of its slice's payload (R61, R63). -/
def wireTable (f : Frame) : Bytes :=
  wireHeader (frameHeader f) ++ f.slices.flatMap fun d => le4 (BitVec.ofNat 32 d.payload.length)

theorem wireTable_length (f : Frame) : (wireTable f).length = 24 + 4 * f.slices.length := by
  have htbl := tblEncode_length (f.slices.map fun d => BitVec.ofNat 32 d.payload.length)
  rw [tblEncode_eq_flatMap_le4, List.flatMap_map, List.length_map] at htbl
  rw [wireTable, List.length_append, htbl, ← hdrEncode_eq_wireHeader, hdrEncode_length]

theorem trailed_eq (f : Frame) (stored : U32) :
    trailed f stored
      = wireTable f ++ wireTag f.spaceHash32 f.modality ++ f.slices.flatMap wireSlice ++ le4 stored := rfl

theorem trailed_head_carried (f : Frame) (stored : U32) :
    CarriedAt 0 headBytes fun v => trailed (withHead f v) stored := by
  refine ⟨[], le8 (BitVec.ofNat 64 f.slices.length)
    ++ f.slices.flatMap (fun d => le4 (BitVec.ofNat 32 d.payload.length))
    ++ wireTag f.spaceHash32 f.modality ++ f.slices.flatMap wireSlice ++ le4 stored, rfl, fun v => ?_⟩
  simp [trailed, withHead, wireBody, wireHeader, headBytes]

theorem trailed_tag_carried (f : Frame) (stored : U32) :
    CarriedAt (24 + 4 * f.slices.length) (fun v : U32 × Byte => wireTag v.1 v.2)
      fun v => trailed { f with spaceHash32 := v.1, modality := v.2 } stored :=
  ⟨wireTable f, f.slices.flatMap wireSlice ++ le4 stored, wireTable_length f, fun _ => List.append_assoc _ _ _⟩

theorem trailed_trailer_carried (f : Frame) : CarriedAt (wireBody f).length le4 (trailed f) :=
  ⟨wireBody f, [], rfl, fun _ => (List.append_nil _).symm⟩

/-- A payload as long as that of `d`. -/
abbrev PayloadOf (d : SliceDescriptor) := {p : Bytes // p.length = d.payload.length}

/-- The Frame with the payload of the slice between `before` and `after` replaced. -/
def withPayload (f : Frame) (before after : List SliceDescriptor) (d : SliceDescriptor) (p : PayloadOf d) : Frame :=
  { f with slices := before ++ [{ d with payload := p.val }] ++ after }

theorem withPayload_self {f : Frame} {before after : List SliceDescriptor} {d : SliceDescriptor}
    (hf : f.slices = before ++ [d] ++ after) : withPayload f before after d ⟨d.payload, rfl⟩ = f := by
  rw [withPayload, ← hf]

theorem wireTable_withPayload {f : Frame} {before after : List SliceDescriptor} {d : SliceDescriptor}
    (hf : f.slices = before ++ [d] ++ after) (p : PayloadOf d) :
    wireTable (withPayload f before after d p) = wireTable f := by
  simp [wireTable, withPayload, frameHeader, hf, p.property]

theorem withPayload_wf {cfg : Config} {f : Frame} {before after : List SliceDescriptor} {d : SliceDescriptor}
    (hf : f.slices = before ++ [d] ++ after) (hw : WF cfg f) (p : PayloadOf d) :
    WF cfg (withPayload f before after d p) := by
  simpa [WF, withPayload, hf, SliceReady, p.property, or_imp, forall_and] using hw

/-- The metadata of a slice (R65). -/
def wireMetadata (d : SliceDescriptor) : Bytes := [d.dtype, BitVec.ofNat 8 d.shape.length] ++ d.shape.flatMap le4

theorem wireMetadata_length (d : SliceDescriptor) : (wireMetadata d).length = 2 + 4 * d.shape.length := by
  rw [wireMetadata, ← putU32s_eq_flatMap_le4, List.length_append, putU32s_length]
  rfl

theorem trailed_payload_carried {f : Frame} {before after : List SliceDescriptor} {d : SliceDescriptor}
    (hf : f.slices = before ++ [d] ++ after) (stored : U32) :
    CarriedAt (29 + 4 * f.slices.length + (before.flatMap wireSlice).length + (2 + 4 * d.shape.length))
      (Subtype.val : PayloadOf d → Bytes) fun p => trailed (withPayload f before after d p) stored := by
  refine ⟨wireTable f ++ wireTag f.spaceHash32 f.modality ++ before.flatMap wireSlice ++ wireMetadata d,
    after.flatMap wireSlice ++ le4 stored, ?_, fun p => ?_⟩
  · simp only [List.length_append, wireTable_length, ← tagEncode_eq_wireTag, tagEncode_length, wireMetadata_length]
    omega
  · dsimp only
    rw [trailed_eq, wireTable_withPayload hf]
    simp [withPayload, wireSlice, wireMetadata]

/-- The bit lies where the error is IntegrityError: in `version` to `frame_seq`, in the tag group, in a payload byte of
some slice, or in the trailer (R233 clause 2). -/
def InCarriedBytes (f : Frame) (i : Nat) : Prop :=
  i < 16
    ∨ (24 + 4 * f.slices.length ≤ i ∧ i < 29 + 4 * f.slices.length)
    ∨ (∃ before d after, f.slices = before ++ [d] ++ after
        ∧ 29 + 4 * f.slices.length + (before.flatMap wireSlice).length + 2 + 4 * d.shape.length ≤ i
        ∧ i < 29 + 4 * f.slices.length + (before.flatMap wireSlice).length + (wireSlice d).length)
    ∨ (wireBody f).length ≤ i

/-- A changed bit in carried bytes leaves what FRAME_ENC writes of another well-formed Frame, with some trailer. -/
theorem flipBit_trailed {cfg : Config} {f : Frame} (hw : WF cfg f) (stored : U32) {i k : Nat}
    (hi : i < (trailed f stored).length) (hc : InCarriedBytes f i) :
    ∃ f' stored', WF cfg f' ∧ flipBit (trailed f stored) i k = trailed f' stored' := by
  obtain hhead | htag | ⟨before, d, after, hf, hlo, hhi⟩ | htrailer := hc
  · obtain ⟨v, hv⟩ := (trailed_head_carried f stored).exists_flipBit (fun _ => rfl) (fun _ => exists_headBytes)
      (n := 16) ⟨Nat.zero_le i, by omega⟩ k (f.version, f.msgType, f.flags, f.streamId, f.frameSeq)
    exact ⟨withHead f v, stored, hw, hv⟩
  · obtain ⟨v, hv⟩ := (trailed_tag_carried f stored).exists_flipBit (fun _ => rfl) (fun _ => exists_wireTag)
      (n := 5) ⟨htag.1, by omega⟩ k (f.spaceHash32, f.modality)
    exact ⟨{ f with spaceHash32 := v.1, modality := v.2 }, stored, hw, hv⟩
  · have hlen : (wireSlice d).length = (2 + 4 * d.shape.length) + d.payload.length := by
      rw [← wireMetadata_length, ← List.length_append]
      rfl
    obtain ⟨p, hp⟩ := (trailed_payload_carried hf stored).exists_flipBit (fun p => p.property)
      (fun e he => ⟨⟨e, he⟩, rfl⟩) (i := i) (by omega) k ⟨d.payload, rfl⟩
    simp only [withPayload_self hf] at hp
    exact ⟨_, _, withPayload_wf hf hw p, hp⟩
  · obtain ⟨v, hv⟩ := (trailed_trailer_carried f).exists_flipBit (fun _ => rfl) (fun _ => exists_le4)
      (n := 4) ⟨htrailer, by rwa [trailed, List.length_append] at hi⟩ k stored
    exact ⟨f, v, hw, hv⟩

/-- Settles O32: the changed buffer walks as another frame, and its trailer is wrong, since no single bit turns a frame
into a frame. -/
theorem singleBitChangesOfCarriedBytesRaiseIntegrityError :
    Obligations.SingleBitChangesOfCarriedBytesRaiseIntegrityError := by
  unfold Obligations.SingleBitChangesOfCarriedBytesRaiseIntegrityError
  intro s f i k hw hi hk hb hregion
  have henc := frameEncode_eq_wire hw
  have hc : InCarriedBytes f i := by
    have hlen : (frameEncode s.cfg f).length - 4 = (wireBody f).length := by
      rw [henc, List.length_append]
      rfl
    rwa [hlen] at hregion
  obtain ⟨f', stored, hw', hflip⟩ := flipBit_trailed (k := k) hw (crc32 (wireBody f)) (by rwa [henc] at hi) hc
  have hbuf : flipBit (frameEncode s.cfg f) i k = wireBody f' ++ le4 stored ++ [] := by
    rw [henc, List.append_nil]
    exact hflip
  have hwrong : crc32 (wireBody f') ≠ stored := by
    rintro rfl
    refine flipBit_frameEncode_ne (cfg := s.cfg) (f' := f') hi hk ?_
    rw [hbuf, List.append_nil, frameEncode_eq_wire hw']
  rw [hbuf] at hb ⊢
  exact exec_frameDec_error hb (frameDecode_wrongTrailer hw' (.inr hwrong))

/-! ### The parts of a decoding -/

theorem exec_header_decode {s : State} (hj : s.job = none) (b : Bytes) :
    exec (.fmtHeader (.decode b)) s = goOn (decodeHeader s.cfg b) s := by
  simp only [exec, execFmtHeader, hj]

theorem exec_header_encode {s : State} {f : Frame} (hj : s.job = none) (hw : WF s.cfg f) :
    exec (.fmtHeader (.encode f)) s = .next (s.withJob (.encode (encodeHeader f))) := by
  simp only [exec, execFmtHeader, hj, if_pos (frameWF_iff.mpr hw), goOn]

theorem sliceOrTrailer_decide (p : Prop) [Decidable p] :
    sliceOrTrailer (decide p) = if p then .slice else .trailer := by
  by_cases hp : p <;> simp [sliceOrTrailer, hp]

/-- After the tag group: a slice, or the trailer when there is none. -/
theorem sliceOrTrailer_length {α : Type} (l : List α) :
    sliceOrTrailer (decide (0 < l.length)) = if l = [] then .trailer else .slice := by
  cases l <;> rfl

theorem decodeTrailer_of_stored {cfg : Config} {j : DecodeJob} {stored : U32} {q : Nat}
    (h : leGet4 j.b j.pos = .ok (stored, q)) :
    decodeTrailer cfg j = if q = j.b.length ∧ crcFinal j.acc = stored
      then .ok (.frame (frameOf j.header j.spaceHash32 j.modality j.slices) stored) else .error .integrityError := by
  rw [decodeTrailer, checkTrailer_of_stored h]
  split <;> rfl

theorem decodeTrailer_of_error {cfg : Config} {j : DecodeJob} {e : Error} (h : leGet4 j.b j.pos = .error e) :
    decodeTrailer cfg j = .error e := by
  rw [decodeTrailer, checkTrailer_of_error h, error_bind]

/-- Settles O40: each part goes on with what its stage gives, and the trailer's tests hold. -/
theorem decodingPartsReadTheirStage : Obligations.DecodingPartsReadTheirStage := by
  unfold Obligations.DecodingPartsReadTheirStage
  refine ⟨fun s b h q hj hb hh => ?_, fun s j tbl q hj hn ht => ?_, fun s j spaceHash32 modality q hj hn hg => ?_,
    fun s j entry d q hj hn he hd => ?_, fun s j q hj hn hg hq => ?_⟩
  · rw [exec_header_decode hj, decodeHeader, acceptBuffer_of_accepted hb, ok_bind, hh]
    rfl
  · rw [exec_table_decode hj hn, decodeTable, ht]
    rfl
  · rw [exec_tag_decode hj hn, decodeTag, hg, ← sliceOrTrailer_length]
    rfl
  · rw [exec_slice_decode hj hn he, decodeSlice, hd, ← sliceOrTrailer_decide]
    rfl
  · rw [exec_trailer_decode hj hn, decodeTrailer_of_stored hg, if_pos ⟨hq, rfl⟩]

theorem ofDecoderError_code (e : DecoderError) : 1 ≤ (ofDecoderError e).code ∧ (ofDecoderError e).code ≤ 4 := by
  cases e <;> decide

theorem bufferAccepted_of_overlong {cfg : Config} {b : Bytes} {m : Nat} (hm : cfg.maxBufferLen = some m)
    (hlt : m < b.length) : bufferAccepted cfg b = false := by
  simp only [bufferAccepted, hm, decide_eq_false (Nat.not_le_of_lt hlt)]

/-- Settles O41: a stage that raises ends the operation with its error, and so do the trailer's tests. -/
theorem partErrorsEndTheOperation : Obligations.PartErrorsEndTheOperation := by
  unfold Obligations.PartErrorsEndTheOperation
  refine ⟨fun s b hj hb hcut => ?_, fun s b m hj hm hlt => ⟨overlongError s.cfg b, ?_, ofDecoderError_code _⟩,
    fun s j e hj => ⟨fun hn ht => ?_, fun hn hg => ?_, fun entry hn he hd => ?_, fun hn hg => ?_,
      fun stored q hn hg hbad => ?_⟩⟩
  · rw [exec_header_decode hj, decodeHeader, acceptBuffer_of_accepted hb, ok_bind, hdrDecode_truncated (by omega),
      error_bind, goOn_eq, endJob_of_idle hj]
  · rw [exec_header_decode hj, decodeHeader, acceptBuffer_of_overlong (bufferAccepted_of_overlong hm hlt), error_bind,
      goOn_eq, endJob_of_idle hj]
  · rw [exec_table_decode hj hn, decodeTable, ht, error_bind, goOn_eq]
  · rw [exec_tag_decode hj hn, decodeTag, hg, error_bind, goOn_eq]
  · rw [exec_slice_decode hj hn he, decodeSlice, hd, error_bind, goOn_eq]
  · obtain ⟨rfl, -⟩ := fieldGet_error_iff.mp hg
    rw [exec_trailer_decode hj hn, decodeTrailer_of_error hg]
  · rw [exec_trailer_decode hj hn, decodeTrailer_of_stored hg, if_neg]
    rintro ⟨hq, hcrc⟩
    exact hbad.elim (absurd hq) (absurd hcrc.symm)

/-! ### The parts of an encoding -/

/-- Settles O42: each part goes on with its bytes appended and absorbed, and the trailer hands all of it back. -/
theorem encodingPartsAppendTheirBytes : Obligations.EncodingPartsAppendTheirBytes := by
  unfold Obligations.EncodingPartsAppendTheirBytes
  refine ⟨fun s f hj hw => ?_, fun s j hj hn => ?_, fun s j hj hn => ?_, fun s j d rest hj hn hd => ?_,
    fun s j hj hn => ?_⟩
  · rw [exec_header_encode hj hw]
    rfl
  · rw [exec_table_encode hj hn]
    rfl
  · rw [exec_tag_encode hj hn, ← sliceOrTrailer_length]
    rfl
  · rw [exec_slice_encode hj hn hd, ← sliceOrTrailer_length]
    rfl
  · rw [exec_trailer_encode hj hn, encodeTrailer, lePut4_eq_le4]

/-! ### What a part leaves unchanged -/

/-- The working variables of a frame operation that goes on: the same buffer and header or the same Frame, the cursor no
further back, slices and output only longer. -/
def Extends : Job → Job → Prop
  | .decode j, .decode j' => j'.b = j.b ∧ j'.header = j.header ∧ j.pos ≤ j'.pos ∧ j.slices <+: j'.slices
  | .encode j, .encode j' => j'.frame = j.frame ∧ j.out <+: j'.out
  | _, _ => False

theorem decodeTable_extends {j : DecodeJob} {k : Job} (hk : decodeTable j = .ok k) : Extends (.decode j) k := by
  simp only [decodeTable, bind_ok_iff, Prod.exists] at hk
  obtain ⟨tbl, q, ht, heq⟩ := hk
  cases heq
  exact ⟨rfl, rfl, (tblDecode_le (tblDecode_cursor_le ht) ht).1, List.prefix_refl _⟩

theorem decodeTag_extends {j : DecodeJob} {k : Job} (hk : decodeTag j = .ok k) : Extends (.decode j) k := by
  simp only [decodeTag, bind_ok_iff, Prod.exists] at hk
  obtain ⟨_, _, q, hg, heq⟩ := hk
  cases heq
  exact ⟨rfl, rfl, (tagDecode_le hg).1, List.prefix_refl _⟩

theorem decodeSlice_extends {cfg : Config} {j : DecodeJob} {entry : U32} {k : Job}
    (hk : decodeSlice cfg j entry = .ok k) : Extends (.decode j) k := by
  simp only [decodeSlice, bind_ok_iff, Prod.exists] at hk
  obtain ⟨d, q, hd, heq⟩ := hk
  cases heq
  exact ⟨rfl, rfl, (sliceDecode_le hd).1, List.prefix_append _ _⟩

/-- A line of FRAME_ENC that appends bytes. -/
theorem encode_extends {j j' : EncodeJob} {x : Bytes} (hf : j'.frame = j.frame) (ho : j'.out = j.out ++ x) :
    Extends (.encode j) (.encode j') := ⟨hf, ho ▸ List.prefix_append _ _⟩

/-- A stage that goes on gave the new working variables. -/
theorem goOn_withJob {x : Except Error Job} {s : State} {j : Job} (h : goOn x s = .next (s.withJob j)) :
    x = .ok j := by
  obtain ⟨j', hx, ht⟩ | ⟨e, -, ht⟩ := goOn_next h
  · rw [hx, withJob_inj.mp ht]
  · exact absurd ht (withJob_ne_endJob s j _)

/-- A stage that ends the operation raised the error that is handed back. -/
theorem goOn_endJob {x : Except Error Job} {s : State} {r : Result} (h : goOn x s = .next (s.endJob.deliver r)) :
    ∃ e, x = .error e ∧ r = .error e := by
  obtain ⟨j, -, ht⟩ | ⟨e, hx, ht⟩ := goOn_next h
  · exact absurd ht.symm (withJob_ne_endJob s j r)
  · exact ⟨e, hx, deliver_inj.mp ht⟩

/-- A part that goes on extends the working variables. -/
theorem exec_part_extends {i : Instr} {s : State} {j j' : Job} (hi : atomic i = false) (hj : s.job = some j)
    (h : exec i s = .next (s.withJob j')) : Extends j j' := by
  cases i with
  | fmtHeader job =>
    obtain ⟨hnone, -⟩ := execFmtHeader_next h
    cases hj.symm.trans hnone
  | fmtTable =>
    obtain ⟨k, hk, -, hg⟩ | ⟨k, hk, -, ht⟩ := execFmtTable_next h
    · cases hj.symm.trans hk
      exact decodeTable_extends (goOn_withJob hg)
    · cases hj.symm.trans hk
      rw [withJob_inj.mp ht]
      exact encode_extends rfl rfl
  | fmtTag =>
    obtain ⟨k, hk, -, hg⟩ | ⟨k, hk, -, ht⟩ := execFmtTag_next h
    · cases hj.symm.trans hk
      exact decodeTag_extends (goOn_withJob hg)
    · cases hj.symm.trans hk
      rw [withJob_inj.mp ht]
      exact encode_extends rfl rfl
  | fmtSlice =>
    obtain ⟨k, entry, hk, -, -, hg⟩ | ⟨k, d, rest, hk, -, -, ht⟩ := execFmtSlice_next h
    · cases hj.symm.trans hk
      exact decodeSlice_extends (goOn_withJob hg)
    · cases hj.symm.trans hk
      rw [withJob_inj.mp ht]
      exact encode_extends rfl rfl
  | fmtTrailer =>
    obtain ⟨_, -, -, ht⟩ | ⟨_, -, -, ht⟩ := execFmtTrailer_next h <;> exact absurd ht (withJob_ne_endJob s j' _)
  | _ => cases hi

theorem Extends.of_decode {j : DecodeJob} {k : Job} (h : Extends (.decode j) k) :
    ∃ j', k = .decode j' ∧ j'.b = j.b ∧ j'.header = j.header ∧ j.pos ≤ j'.pos ∧ j.slices <+: j'.slices := by
  cases k with
  | decode j' => exact ⟨j', rfl, h⟩
  | encode j' => exact h.elim

theorem Extends.of_encode {j : EncodeJob} {k : Job} (h : Extends (.encode j) k) :
    ∃ j', k = .encode j' ∧ j'.frame = j.frame ∧ j.out <+: j'.out := by
  cases k with
  | decode j' => exact h.elim
  | encode j' => exact ⟨j', rfl, h⟩

/-- Settles O48: a part goes on with working variables that extend the ones before, or ends with one result. -/
theorem partsLeaveTheRestUnchanged : Obligations.PartsLeaveTheRestUnchanged := by
  unfold Obligations.PartsLeaveTheRestUnchanged
  intro i s t hi h
  obtain ⟨k, rfl⟩ | ⟨r, rfl⟩ := exec_part_next hi h
  · refine ⟨rfl, rfl, .inl ⟨rfl, Option.some_ne_none k⟩, fun j hj _ => ?_, fun j hj _ => ?_⟩
    · obtain ⟨j', rfl, hext⟩ := (exec_part_extends hi hj h).of_decode
      exact ⟨j', rfl, hext⟩
    · obtain ⟨j', rfl, hext⟩ := (exec_part_extends hi hj h).of_encode
      exact ⟨j', rfl, hext⟩
  · exact ⟨rfl, rfl, .inr ⟨⟨r, rfl⟩, rfl⟩, fun _ _ hne => absurd rfl hne, fun _ _ hne => absurd rfl hne⟩

/-! ### What the parts together hand back -/

/-- What a frame operation in flight hands back in the end: what FRAME_DEC of its buffer or FRAME_ENC of its Frame does
(R217, R225). -/
def jobResult (cfg : Config) : Job → Result
  | .decode j => frameResult (frameDecode cfg j.b)
  | .encode j => .ok (.bytes (frameEncode cfg j.frame))

theorem Extends.jobResult_eq {j j' : Job} (h : Extends j j') (cfg : Config) : jobResult cfg j' = jobResult cfg j := by
  cases j with
  | decode j =>
    obtain ⟨j', rfl, hb, -⟩ := h.of_decode
    rw [jobResult, jobResult, hb]
  | encode j =>
    obtain ⟨j', rfl, hf, -⟩ := h.of_encode
    rw [jobResult, jobResult, hf]

section Stages
variable {cfg : Config} {b : Bytes} {h : Header} {tbl : List U32} {spaceHash32 : U32} {modality : Byte}
  {slices : List SliceDescriptor} {p q r : Nat} {e : Error}

theorem frameDecode_header_error (hh : hdrDecode b 0 = .error e) : frameDecode cfg b = .error e := by
  rw [frameDecode, hh, error_bind]

theorem frameDecode_table_error (hh : hdrDecode b 0 = .ok (h, p)) (ht : tblDecode b p h.numSlices = .error e) :
    frameDecode cfg b = .error e := by
  simp only [frameDecode, hh, ok_bind, ht, error_bind]

theorem frameDecode_tag_error (hh : hdrDecode b 0 = .ok (h, p)) (ht : tblDecode b p h.numSlices = .ok (tbl, q))
    (hg : tagDecode b q = .error e) : frameDecode cfg b = .error e := by
  simp only [frameDecode, hh, ok_bind, ht, hg, error_bind]

theorem frameDecode_slices_error (hh : hdrDecode b 0 = .ok (h, p)) (ht : tblDecode b p h.numSlices = .ok (tbl, q))
    (hg : tagDecode b q = .ok ((spaceHash32, modality), r)) (hs : decodeSlices cfg b r tbl = .error e) :
    frameDecode cfg b = .error e := by
  simp only [frameDecode, hh, ok_bind, ht, hg, hs, error_bind]

theorem frameDecode_of_stages {pos : Nat} (hh : hdrDecode b 0 = .ok (h, p))
    (ht : tblDecode b p h.numSlices = .ok (tbl, q)) (hg : tagDecode b q = .ok ((spaceHash32, modality), r))
    (hs : decodeSlices cfg b r tbl = .ok (slices, pos)) :
    frameDecode cfg b = (verify cfg b pos).map fun crc => (frameOf h spaceHash32 modality slices, crc) := by
  refine frameDecode_of_walk ?_
  simp only [frameWalk, hh, ok_bind, ht, hg, hs]
  rfl

/-- Stage 4 of FRAME_DEC raises what the first slice that fails raises. -/
theorem decodeSlices_append_error {es rest : List U32} {entry : U32}
    (hs : decodeSlices cfg b p es = .ok (slices, q)) (hd : sliceDecode cfg b q entry = .error e) :
    decodeSlices cfg b p (es ++ entry :: rest) = .error e := by
  induction es generalizing p slices with
  | nil =>
    cases hs
    rw [List.nil_append, decodeSlices, hd, error_bind]
  | cons e' es ih =>
    simp only [decodeSlices, bind_ok_iff, Prod.exists] at hs
    obtain ⟨d, p', hd', ds, _, hds, heq⟩ := hs
    cases heq
    simp only [List.cons_append, decodeSlices, hd', ok_bind, ih hds, error_bind]

end Stages

theorem frameResult_error {r : Except Error (Frame × U32)} {e : Error} (h : r = .error e) :
    frameResult r = .error e := by
  rw [h]
  rfl

/-- The table's part raises what FRAME_DEC of its buffer does. -/
theorem decodeTable_error {cfg : Config} {j : DecodeJob} {e : Error} (hj : DecodeInv cfg j) (hn : j.next = .table)
    (h : decodeTable j = .error e) : frameDecode cfg j.b = .error e := by
  obtain ⟨⟨-, -, -, hh⟩, hpos, -⟩ := (decodeInv_table hn).mp hj
  obtain ht | ⟨_, -, heq⟩ := bind_error_iff.mp h
  · rw [hpos] at ht
    exact frameDecode_table_error hh ht
  · cases heq

/-- The tag group's part raises what FRAME_DEC of its buffer does. -/
theorem decodeTag_error {cfg : Config} {j : DecodeJob} {e : Error} (hj : DecodeInv cfg j) (hn : j.next = .tag)
    (h : decodeTag j = .error e) : frameDecode cfg j.b = .error e := by
  obtain ⟨⟨-, -, -, hh⟩, ht, -⟩ := (decodeInv_tag hn).mp hj
  obtain hg | ⟨_, -, heq⟩ := bind_error_iff.mp h
  · exact frameDecode_tag_error hh ht hg
  · cases heq

/-- A slice's part raises what FRAME_DEC of its buffer does: the slices before it have been read. -/
theorem decodeSlice_error {cfg : Config} {j : DecodeJob} {entry : U32} {e : Error} (hj : DecodeInv cfg j)
    (hn : j.next = .slice) (hentry : j.tbl[j.slices.length]? = some entry) (h : decodeSlice cfg j entry = .error e) :
    frameDecode cfg j.b = .error e := by
  obtain ⟨⟨-, -, -, hh⟩, hlt, p, q, ht, hg, hs⟩ := (decodeInv_slice hn).mp hj
  obtain ⟨_, rfl⟩ := List.getElem?_eq_some_iff.mp hentry
  obtain hd | ⟨_, -, heq⟩ := bind_error_iff.mp h
  · have hall := decodeSlices_append_error (rest := j.tbl.drop (j.slices.length + 1)) hs hd
    rw [← List.drop_eq_getElem_cons hlt, List.take_append_drop] at hall
    exact frameDecode_slices_error hh ht hg hall
  · cases heq

/-- The trailer's part of a decoding hands back what FRAME_DEC of its buffer does. -/
theorem decodeTrailer_eq_jobResult {cfg : Config} {j : DecodeJob} (hj : DecodeInv cfg j) (hn : j.next = .trailer) :
    decodeTrailer cfg j = jobResult cfg (.decode j) := by
  obtain ⟨⟨-, -, hacc, hh⟩, hlen, p, q, ht, hg, hs⟩ := (decodeInv_trailer hn).mp hj
  rw [hlen, List.take_length] at hs
  rw [jobResult, frameDecode_of_stages hh ht hg hs, verify_eq_checkTrailer, decodeTrailer, hacc, ← crc32]
  cases checkTrailer cfg j.b j.pos (crc32 (j.b.take j.pos)) <;> rfl

/-- The trailer's part of an encoding hands back what FRAME_ENC of its Frame does. -/
theorem encodeTrailer_eq_jobResult {cfg : Config} {j : EncodeJob} (hj : EncodeInv cfg j) (hn : j.next = .trailer) :
    encodeTrailer j = jobResult cfg (.encode j) := by
  simp only [EncodeInv, hn] at hj
  obtain ⟨-, hacc, -, -, hout⟩ := hj
  rw [encodeTrailer, jobResult, frameEncode, hacc, hout, crc32]

/-- A part that ends a frame operation hands back what FRAME_DEC or FRAME_ENC does: the error of the stage, which is the
first to fail, or the trailer's result. -/
theorem exec_part_result {i : Instr} {s : State} {j : Job} {r : Result} (hi : atomic i = false) (hs : s.Inv)
    (hj : s.job = some j) (h : exec i s = .next (s.endJob.deliver r)) : r = jobResult s.cfg j := by
  have hinv := hs.job hj
  cases i with
  | fmtHeader job =>
    obtain ⟨hnone, -⟩ := execFmtHeader_next h
    cases hj.symm.trans hnone
  | fmtTable =>
    obtain ⟨k, hk, hn, hg⟩ | ⟨_, -, -, ht⟩ := execFmtTable_next h
    · cases hj.symm.trans hk
      obtain ⟨e, he, rfl⟩ := goOn_endJob hg
      exact (frameResult_error (decodeTable_error hinv hn he)).symm
    · exact absurd ht.symm (withJob_ne_endJob s _ r)
  | fmtTag =>
    obtain ⟨k, hk, hn, hg⟩ | ⟨_, -, -, ht⟩ := execFmtTag_next h
    · cases hj.symm.trans hk
      obtain ⟨e, he, rfl⟩ := goOn_endJob hg
      exact (frameResult_error (decodeTag_error hinv hn he)).symm
    · exact absurd ht.symm (withJob_ne_endJob s _ r)
  | fmtSlice =>
    obtain ⟨k, entry, hk, hn, hentry, hg⟩ | ⟨_, _, _, -, -, -, ht⟩ := execFmtSlice_next h
    · cases hj.symm.trans hk
      obtain ⟨e, he, rfl⟩ := goOn_endJob hg
      exact (frameResult_error (decodeSlice_error hinv hn hentry he)).symm
    · exact absurd ht.symm (withJob_ne_endJob s _ r)
  | fmtTrailer =>
    obtain ⟨k, hk, hn, ht⟩ | ⟨k, hk, hn, ht⟩ := execFmtTrailer_next h
    · cases hj.symm.trans hk
      rw [deliver_inj.mp ht]
      exact decodeTrailer_eq_jobResult hinv hn
    · cases hj.symm.trans hk
      rw [deliver_inj.mp ht]
      exact encodeTrailer_eq_jobResult hinv hn
  | _ => cases hi

/-! ### Runs of a frame operation -/

/-- With nothing handed over and nothing in flight, steps change nothing (log entry 6). -/
theorem run_idle {s : State} (hr : s.requests = []) (hj : s.job = none) (k : Nat) :
    Host.Core.run core k s = .next s := by
  induction k with
  | zero => rfl
  | succ k ih =>
    have hstep : step s = .next s := by simp only [step, hr, hj]
    rw [run_succ_of_step hstep, ih]

theorem atomic_partInstr (p : Part) : atomic (partInstr p) = false := by
  cases p <;> rfl

theorem partsLeft_pos (j : Job) : 0 < partsLeft j := by
  rw [partsLeft]
  cases nextPart j <;> exact Nat.succ_pos _

section Run
variable {s : State} {j : Job} {k : Nat} (hs : s.Inv) (hr : s.requests = []) (hj : s.job = some j)
include hs hr hj

/-- The part that ends a frame operation leaves its result, and further steps change nothing. -/
theorem run_last {r : Result} (hx : exec (partInstr (nextPart j)) s = .next (s.endJob.deliver r)) :
    Host.Core.run core (k + 1) s = .next (s.endJob.deliver (jobResult s.cfg j)) := by
  rw [run_succ_of_step ((step_of_job hr hj).trans hx), ← exec_part_result (atomic_partInstr _) hs hj hx]
  exact run_idle (s := s.endJob.deliver r) hr rfl k

/-- A frame operation in flight hands back its result within as many steps as parts are left. -/
theorem run_job (hk : partsLeft j ≤ k) :
    Host.Core.run core k s = .next (s.endJob.deliver (jobResult s.cfg j)) := by
  induction k generalizing s j with
  | zero => exact absurd (partsLeft_pos j) (Nat.not_lt_of_le hk)
  | succ k ih =>
    obtain ⟨j', hx, hlt⟩ | ⟨r, hx⟩ := part_goesOnOrEnds hs hj
    · have hext := exec_part_extends (atomic_partInstr _) hj hx
      rw [run_succ_of_step ((step_of_job hr hj).trans hx), ih (exec_inv hs hx) hr rfl (by omega), withJob_cfg,
        hext.jobResult_eq]
      rfl
    · exact run_last hs hr hj hx

end Run

/-- A decoding at its table hands back its result within `L + 3` steps: either the table does not fit, and the next part
is the last, or the slices are fewer than the bytes. -/
theorem run_decode_table {s : State} {j : DecodeJob} {k : Nat} (hs : s.Inv) (hr : s.requests = [])
    (hj : s.job = some (.decode j)) (hn : j.next = .table) (hk : j.b.length + 3 ≤ k) :
    Host.Core.run core k s = .next (s.endJob.deliver (jobResult s.cfg (.decode j))) := by
  rcases Nat.lt_or_ge j.b.length (j.pos + 4 * j.header.numSlices.toNat) with hcut | hroom
  · obtain ⟨m, rfl⟩ : ∃ m, k = m + 1 := ⟨k - 1, by omega⟩
    refine run_last hs hr hj (r := .error .truncatedInput) ?_
    rw [nextPart, hn, partInstr, exec_table_decode hj hn, decodeTable, tblDecode_truncated hcut, error_bind, goOn_eq]
  · refine run_job hs hr hj ?_
    rw [partsLeft_decode, hn, partsFrom_table]
    omega

/-- The first step of a run on one request runs its instruction. -/
theorem run_request {s t : State} {i : Instr} (hr : s.requests = []) (hi : i.wellFormed = true)
    (hx : exec i s = .next t) (k : Nat) :
    Host.Core.run core (k + 1) (s.withRequests [encode i]) = Host.Core.run core k t := by
  refine run_succ_of_step ?_ k
  rw [step_of_request hi, withRequests_self hr, hx]

/-- The header's part raises what FRAME_DEC does. -/
theorem decodeHeader_error {cfg : Config} {b : Bytes} {e : Error} (h : decodeHeader cfg b = .error e) :
    decodeBuffer cfg b = .error e := by
  obtain hb | ⟨_, hb, h⟩ := bind_error_iff.mp h
  · rw [decodeBuffer, hb, error_bind]
  · obtain hh | ⟨_, -, heq⟩ := bind_error_iff.mp h
    · rw [decodeBuffer, hb, ok_bind, frameDecode_header_error hh]
    · cases heq

/-- The header's part that goes on begins a decoding of its buffer, with the table next. -/
theorem decodeHeader_ok {cfg : Config} {b : Bytes} {k : Job} (h : decodeHeader cfg b = .ok k) :
    ∃ j, k = .decode j ∧ j.b = b ∧ j.next = .table ∧ decodeBuffer cfg b = frameDecode cfg b := by
  obtain ⟨_, hb, h⟩ := bind_ok_iff.mp h
  obtain ⟨_, -, heq⟩ := bind_ok_iff.mp h
  cases heq
  exact ⟨_, rfl, rfl, rfl, decodeBuffer_of_accepted (acceptBuffer_ok hb)⟩

/-- Settles O44: the header's part raises what FRAME_DEC does or begins a decoding, whose result is that of FRAME_DEC
(`exec_part_result`). -/
theorem decodingByPartsIsFrameDec : Obligations.DecodingByPartsIsFrameDec := by
  unfold Obligations.DecodingByPartsIsFrameDec
  intro s b k hr hj hk
  obtain ⟨k, rfl⟩ : ∃ m, k = m + 1 := ⟨k - 1, by omega⟩
  have hx := exec_header_decode hj b
  rw [exec_frameDec]
  cases h : decodeHeader s.cfg b with
  | error e =>
    rw [h, goOn_eq, endJob_of_idle hj] at hx
    rw [run_request hr rfl hx, decodeHeader_error h]
    exact run_idle (s := s.deliver _) hr hj k
  | ok job =>
    obtain ⟨j, rfl, rfl, hn, hbuf⟩ := decodeHeader_ok h
    rw [h, goOn_eq] at hx
    have hinv : (s.withJob (.decode j)).Inv := withJob_inv (decodeHeader_inv h)
    rw [run_request hr rfl hx, run_decode_table hinv hr rfl hn (by omega), endJob_withJob hj, hbuf]
    rfl

/-- Settles O45: the header's part begins an encoding, whose result is that of FRAME_ENC (`exec_part_result`). -/
theorem encodingByPartsIsFrameEnc : Obligations.EncodingByPartsIsFrameEnc := by
  unfold Obligations.EncodingByPartsIsFrameEnc
  intro s f k hr hj hw hk
  obtain ⟨k, rfl⟩ : ∃ m, k = m + 1 := ⟨k - 1, by omega⟩
  have hinv : (s.withJob (.encode (encodeHeader f))).Inv := withJob_inv (encodeHeader_inv (frameWF_iff.mpr hw))
  have hparts : partsLeft (.encode (encodeHeader f)) = f.slices.length + 3 := rfl
  rw [exec_frameEnc hw, run_request hr rfl (exec_header_encode hj hw), run_job hinv hr rfl (by omega),
    endJob_withJob hj]
  rfl

/-! ### Which instructions hand back a Frame -/

/-- The result is no Frame. -/
def NoFrame (r : Result) : Prop := ∀ f crc, r ≠ .ok (.frame f crc)

theorem noFrame_map {α : Type} {g : α → Ret} (hg : ∀ a f crc, g a ≠ .frame f crc) (x : Except Error α) :
    NoFrame (x.map g) := by
  intro f crc h
  cases x with
  | ok a => exact hg a f crc (Except.ok.inj h)
  | error e => cases h

/-- Of the atomic instructions only FRAME_DEC hands back a Frame. -/
theorem exec_atomic_noFrame {i : Instr} {s : State} {r : Result} (hi : atomic i = true)
    (hne : ∀ b, i ≠ .frameDec b) (h : exec i s = .next (s.deliver r)) : NoFrame r := by
  have finished {r' : Result} (hr' : NoFrame r') (hx : finish r' s = .next (s.deliver r)) : NoFrame r :=
    deliver_inj.mp (finish_next hx) ▸ hr'
  have atCursor {b : Bytes} {pos : Nat} {r' : Result} (hr' : NoFrame r')
      (hx : atCursor b pos r' s = .next (s.deliver r)) : NoFrame r :=
    deliver_inj.mp (atCursor_next hx).2 ▸ hr'
  cases i with
  | frameDec b => exact absurd rfl (hne b)
  | fmtHeader | fmtTable | fmtTag | fmtSlice | fmtTrailer => cases hi
  | leGet1 | leGet2 | leGet4 | leGet8 | hdrDec | tagDec | tblDec | sliceDec | verify =>
    exact atCursor (noFrame_map (fun _ _ _ h => by cases h) _) h
  | plen => exact deliver_inj.mp (onShape_next h).2 ▸ noFrame_map (fun _ _ _ h => by cases h) _
  | sliceEnc => exact deliver_inj.mp (execSliceEnc_next h).2 ▸ fun _ _ h => by cases h
  | frameEnc => exact deliver_inj.mp (execFrameEnc_next h).2 ▸ fun _ _ h => by cases h
  | elemSize | dispatch | dtypeF16 | dtypeI8 | dtypeQ4 | dtypeSparseCoo | dtypeUnrecognised =>
    dsimp only [exec] at h
    exact finished (noFrame_map (fun _ _ _ h => by cases h) _) h
  | _ =>
    dsimp only [exec] at h
    exact finished (fun _ _ h => by cases h) h

/-- With nothing in flight, a part that hands a result back is the header's part of a decoding, and the result is an
error. -/
theorem exec_part_idle_error {i : Instr} {s : State} {r : Result} (hi : atomic i = false) (hj : s.job = none)
    (h : exec i s = .next (s.endJob.deliver r)) : ∃ e, r = .error e := by
  have refused {p : Part} (hp : exec (partInstr p) s = .next (s.endJob.deliver r)) : ∃ e, r = .error e := by
    cases (part_refused_of_idle hj p).symm.trans hp
  cases i with
  | fmtHeader job =>
    obtain ⟨-, ⟨b, -, hg⟩ | ⟨f, -, -, ht⟩⟩ := execFmtHeader_next h
    · obtain ⟨e, -, hr⟩ := goOn_endJob hg
      exact ⟨e, hr⟩
    · exact absurd ht.symm (withJob_ne_endJob s _ r)
  | fmtTable => exact refused (p := .table) h
  | fmtTag => exact refused (p := .tag) h
  | fmtSlice => exact refused (p := .slice) h
  | fmtTrailer => exact refused (p := .trailer) h
  | _ => cases hi

/-- A Frame handed back comes from FRAME_DEC, or from the trailer's part of a decoding, and from a buffer FRAME_DEC
decodes. -/
theorem exec_frame_decoded {i : Instr} {s t : State} {f : Frame} {crc : U32} (hs : s.Inv) (h : exec i s = .next t)
    (hr : t.results = s.results ++ [.ok (.frame f crc)]) : ∃ b, frameDecode s.cfg b = .ok (f, crc) := by
  cases hi : atomic i with
  | true =>
    obtain ⟨r, rfl⟩ := exec_atomic_next hi h
    obtain rfl : r = .ok (.frame f crc) := by simpa using hr
    by_cases hd : ∃ b, i = .frameDec b
    · obtain ⟨b, rfl⟩ := hd
      rw [exec_frameDec, Host.Outcome.next.injEq, deliver_inj] at h
      exact ⟨b, decodeBuffer_ok (frameResult_ok h)⟩
    · exact absurd rfl (exec_atomic_noFrame hi (not_exists.mp hd) h f crc)
  | false =>
    obtain ⟨k, rfl⟩ | ⟨r, rfl⟩ := exec_part_next hi h
    · simp at hr
    · obtain rfl : r = .ok (.frame f crc) := by simpa using hr
      cases hj : s.job with
      | none =>
        obtain ⟨e, he⟩ := exec_part_idle_error hi hj h
        cases he
      | some j =>
        have hres := exec_part_result hi hs hj h
        cases j with
        | decode j => exact ⟨j.b, frameResult_ok hres.symm⟩
        | encode j => cases hres

/-- Settles O53: FRAME_DEC gives a Frame for nothing but a frame (`frameDecode_ok_iff`). -/
theorem onlyVerifiedFramesAreDelivered : Obligations.OnlyVerifiedFramesAreDelivered := by
  unfold Obligations.OnlyVerifiedFramesAreDelivered
  intro i s t f crc hs h hr
  obtain ⟨b, hb⟩ := exec_frame_decoded hs h hr
  obtain ⟨hw, -, rfl⟩ := frameDecode_ok_iff.mp hb
  exact ⟨hw, by rw [frameBody_eq_wireBody hw]⟩

end Sys2Proof.Machine
end

