-- ==== Sys2Proof/Proofs/Dispatcher.lean ====
section
/-!
PROOFS of the family `47_dispatch_consumer.md`. Once every dtype is supported, DISPATCH is `dispatchNamed` at the name of
the message type (`dispatchFrame_of_supported`), and what that gives is said once for each name (R246, R248). An unnamed
message type goes before the dtypes.
-/

namespace Sys2Proof.Machine

/-! ### The tests of DISPATCH, in order -/

theorem exec_dispatch {s : State} {f : Frame} {r : Except Error SemanticMessage} (h : dispatchFrame s.cfg f = r) :
    exec (.dispatch f) s = .next (s.deliver (r.map .message)) :=
  h ▸ finish_eq _ s

/-- A byte below 5 has a message type's name (R71). -/
theorem msgName_named {v : Byte} (h : v.toNat < 5) : msgName v ≠ .unnamed := by
  have hv : v = 0#8 ∨ v = 1#8 ∨ v = 2#8 ∨ v = 3#8 ∨ v = 4#8 := by bv_omega
  obtain rfl | rfl | rfl | rfl | rfl := hv <;> decide

/-- An unnamed message type is never fatal, whatever the slices (R246). -/
theorem dispatchFrame_of_unnamed {f : Frame} (h : msgName f.msgType = .unnamed) (cfg : Config) :
    dispatchFrame cfg f = .ok (.unknown f) := if_pos h

/-- A dtype that is not supported is found before the slices are counted (R250). -/
theorem dispatchFrame_of_unsupported {cfg : Config} {f : Frame} (hn : msgName f.msgType ≠ .unnamed)
    (hd : ∃ d ∈ f.slices, supported cfg d.dtype = false) : dispatchFrame cfg f = .error .unsupportedDtype := by
  rw [dispatchFrame, if_neg hn, if_neg]
  simpa using hd

/-- With every dtype supported the message type decides, an unnamed one too. -/
theorem dispatchFrame_of_supported {cfg : Config} {f : Frame} (hs : ∀ d ∈ f.slices, supported cfg d.dtype = true) :
    dispatchFrame cfg f = dispatchNamed (msgName f.msgType) f := by
  by_cases hn : msgName f.msgType = .unnamed
  · rw [dispatchFrame_of_unnamed hn, hn, dispatchNamed]
  · rw [dispatchFrame, if_neg hn, if_pos (List.all_eq_true.mpr hs)]

theorem exec_dispatch_supported {s : State} {f : Frame} {name : MsgName} {r : Except Error SemanticMessage}
    (hs : ∀ d ∈ f.slices, supported s.cfg d.dtype = true) (hname : msgName f.msgType = name)
    (h : dispatchNamed name f = r) : exec (.dispatch f) s = .next (s.deliver (r.map .message)) :=
  exec_dispatch (by rw [dispatchFrame_of_supported hs, hname, h])

/-! ### What each named message type gives -/

section Named
variable {f : Frame} {d e : SliceDescriptor} {rest : List SliceDescriptor}

theorem dispatchNamed_sync (h : f.slices = [d]) :
    dispatchNamed .sync f = (needObject d.payload).map .handshake := by
  rw [dispatchNamed, h]
  rfl

theorem dispatchNamed_sync_incomplete (h : f.slices.length ≠ 1) :
    dispatchNamed .sync f = .error .decodeIncomplete := by
  rw [dispatchNamed]
  split
  · next hd => exact absurd (congrArg List.length hd) h
  · rfl

theorem dispatchNamed_think (h : f.slices ≠ []) :
    dispatchNamed .think f = .ok (.tensors (f.slices.map fun d => (d.dtype, d.shape, d.payload))) := by
  rw [dispatchNamed]
  split
  · next hnil => exact absurd hnil h
  · rfl

theorem dispatchNamed_think_incomplete (h : f.slices = []) :
    dispatchNamed .think f = .error .decodeIncomplete := by
  rw [dispatchNamed, h]

theorem dispatchNamed_critique (h : f.slices = d :: e :: rest) :
    dispatchNamed .critique f = (needObject e.payload).map (.critiquePair d) := by
  rw [dispatchNamed, h]
  rfl

theorem dispatchNamed_critique_incomplete (h : f.slices.length < 2) :
    dispatchNamed .critique f = .error .decodeIncomplete := by
  rw [dispatchNamed]
  split
  · next hds =>
    rw [hds, List.length_cons, List.length_cons] at h
    omega
  · rfl

end Named

/-- Settles O35: an unnamed type first, then the dtypes, then what the named type gives for its number of slices. -/
theorem dispatchFollowsTheMessageType : Obligations.DispatchFollowsTheMessageType := by
  unfold Obligations.DispatchFollowsTheMessageType
  exact fun s f =>
    ⟨fun h => exec_dispatch (dispatchFrame_of_unnamed (msgName_unnamed h) s.cfg),
      fun h hd => exec_dispatch (dispatchFrame_of_unsupported (msgName_named h) hd),
      fun hs =>
        ⟨fun hm hlen => exec_dispatch_supported hs (congrArg msgName hm) (dispatchNamed_sync_incomplete hlen),
          fun hm hnil => exec_dispatch_supported hs (congrArg msgName hm) (dispatchNamed_think_incomplete hnil),
          fun hm hne => exec_dispatch_supported hs (congrArg msgName hm) (dispatchNamed_think hne),
          fun hm hlen => exec_dispatch_supported hs (congrArg msgName hm) (dispatchNamed_critique_incomplete hlen),
          fun hm => exec_dispatch_supported hs (congrArg msgName hm) rfl,
          fun hm => exec_dispatch_supported hs (congrArg msgName hm) rfl⟩⟩

/-! ### JSON objects -/

theorem jsonObject_of_not_utf8 {b : Bytes} (h : utf8Valid b = false) : jsonObject b = none := by
  rw [jsonObject, h]
  rfl

theorem needObject_of_some {b : Bytes} {o : JsonObject} (h : jsonObject b = some o) : needObject b = .ok o := by
  rw [needObject, h]

theorem needObject_of_none {b : Bytes} (h : jsonObject b = none) : needObject b = .error .malformedPayload := by
  rw [needObject, h]

/-- Settles O36: the slice that must be an object is one or is not, and the parser is used for nothing else. -/
theorem dispatchNeedsJsonObjects : Obligations.DispatchNeedsJsonObjects := by
  unfold Obligations.DispatchNeedsJsonObjects
  refine ⟨fun s f d hm hd hdtype => ?_, fun s f d e rest hm hds hs => ?_, fun b => jsonObject_of_not_utf8⟩
  · have hs : ∀ x ∈ f.slices, supported s.cfg x.dtype = true := by
      rw [hd]
      exact List.forall_mem_singleton.mpr hdtype
    have hx := exec_dispatch_supported hs (congrArg msgName hm) (dispatchNamed_sync hd)
    cases ho : jsonObject d.payload with
    | some o => rwa [needObject_of_some ho] at hx
    | none => rwa [needObject_of_none ho] at hx
  · have hx := exec_dispatch_supported hs (congrArg msgName hm) (dispatchNamed_critique hds)
    cases ho : jsonObject e.payload with
    | some o => rwa [needObject_of_some ho] at hx
    | none => rwa [needObject_of_none ho] at hx

end Sys2Proof.Machine
end

