-- ==== Sys2Proof/Proofs/Exceptions.lean ====
section
/-!
PROOFS of the families `60_exceptions.md` and `70_reset_and_hazards.md`. The errors a computation may raise (`Raises`)
are those of its steps, so each decoder's follow from the reads, ELEM_SIZE and the tests it makes, in the order of its
pseudocode. That FRAME_DEC is total (R281), and that an instruction raises only the errors of its row (R270), follow.
-/

namespace Sys2Proof.Machine

/-! ### The errors a computation may raise -/

/-- The computation raises no error but these. -/
def Raises {α : Type} (es : List Error) (x : Except Error α) : Prop := ∀ e, x = .error e → e ∈ es

theorem raises_ok {α : Type} {es : List Error} (a : α) : Raises es (.ok a) := fun _ h => by cases h

theorem raises_error {α : Type} {es : List Error} {e : Error} (h : e ∈ es) :
    Raises es (.error e : Except Error α) := fun _ he => by cases he; exact h

theorem Raises.mono {α : Type} {es es' : List Error} {x : Except Error α} (hx : Raises es x) (h : es ⊆ es') :
    Raises es' x := fun e he => h (hx e he)

theorem Raises.bind {α β : Type} {es : List Error} {x : Except Error α} {f : α → Except Error β} (hx : Raises es x)
    (hf : ∀ a, Raises es (f a)) : Raises es (x >>= f) := fun e h => by
  obtain he | ⟨a, -, he⟩ := bind_error_iff.mp h
  · exact hx e he
  · exact hf a e he

theorem Raises.map {α β : Type} {es : List Error} {x : Except Error α} (hx : Raises es x) (f : α → β) :
    Raises es (x.map f) := by
  cases x with
  | ok a => exact raises_ok (f a)
  | error e => exact raises_error (hx e rfl)

theorem OnlyTruncates.raises {α : Type} {es : List Error} {x : Except Error α} (hx : OnlyTruncates x) :
    Raises (.truncatedInput :: es) x := fun e he => hx e he ▸ List.mem_cons_self

/-! ### What each operation may raise -/

theorem onlyTruncates_tblDecode (b : Bytes) (pos : Nat) (n : U64) : OnlyTruncates (tblDecode b pos n) := by
  rw [tblDecode]
  split
  · exact onlyTruncates_getU32s b pos n.toNat
  · exact fun _ h => by cases h; rfl

theorem raises_elemSize (cfg : Config) (d : Byte) : Raises [.unsupportedDtype] (elemSize cfg d) :=
  fun _ h => List.mem_singleton.mpr (elemSize_error h)

theorem raises_dtypeResult (cfg : Config) (d : Byte) : Raises [.unsupportedDtype] (dtypeResult cfg d) :=
  (raises_elemSize cfg d).map _

theorem raises_payloadLength (cfg : Config) (d : Byte) (shape : List U32) :
    Raises [.unsupportedDtype] (payloadLength cfg d shape) :=
  fun _ h => List.mem_singleton.mpr (payloadLength_error h)

/-- The errors of SLICE_DEC (R201). -/
def sliceErrors : List Error := [.truncatedInput, .unsupportedDtype, .sizeMismatch]

theorem raises_slicePayload (cfg : Config) (b : Bytes) (entry : U32) (dtype : Byte) (shape : List U32) (pos : Nat) :
    Raises sliceErrors (slicePayload cfg b entry dtype shape pos) := by
  refine ((raises_payloadLength cfg dtype shape).mono (by decide)).bind fun size => ?_
  split
  · exact raises_error (by decide)
  · split
    · exact raises_ok _
    · exact raises_error (by decide)

theorem raises_sliceDecode (cfg : Config) (b : Bytes) (pos : Nat) (entry : U32) :
    Raises sliceErrors (sliceDecode cfg b pos entry) := by
  rw [sliceDecode_eq]
  exact (onlyTruncates_sliceMetadata b pos).raises.bind fun ((dtype, _, shape), pos) =>
    raises_slicePayload cfg b entry dtype shape pos

theorem raises_decodeSlices (cfg : Config) (b : Bytes) (pos : Nat) (tbl : List U32) :
    Raises sliceErrors (decodeSlices cfg b pos tbl) := by
  induction tbl generalizing pos with
  | nil => exact raises_ok _
  | cons entry rest ih =>
    exact (raises_sliceDecode cfg b pos entry).bind fun (_, pos) => (ih pos).bind fun _ => raises_ok _

/-- The errors of VERIFY (R220, R223). -/
def verifyErrors : List Error := [.truncatedInput, .integrityError]

theorem raises_checkTrailer (cfg : Config) (b : Bytes) (p : Nat) (computed : U32) :
    Raises verifyErrors (checkTrailer cfg b p computed) := by
  refine (onlyTruncates_fieldGet 4 b p).raises.bind fun (stored, q) => ?_
  dsimp only
  split
  · exact raises_error (by decide)
  · split
    · exact raises_error (by decide)
    · exact raises_ok _

theorem raises_verify (cfg : Config) (b : Bytes) (p : Nat) : Raises verifyErrors (verify cfg b p) := by
  rw [verify_eq_checkTrailer]
  exact raises_checkTrailer cfg b p _

/-- The errors of FRAME_DEC (R225): codes 1 to 4 (R281). -/
def decoderErrors : List Error := [.truncatedInput, .unsupportedDtype, .sizeMismatch, .integrityError]

theorem code_of_mem_decoderErrors {e : Error} : e ∈ decoderErrors → 1 ≤ e.code ∧ e.code ≤ 4 := by
  cases e <;> decide

theorem raises_frameDecode (cfg : Config) (b : Bytes) : Raises decoderErrors (frameDecode cfg b) :=
  (onlyTruncates_hdrDecode b 0).raises.bind fun (h, pos) =>
  (onlyTruncates_tblDecode b pos h.numSlices).raises.bind fun (tbl, pos) =>
  (onlyTruncates_tagDecode b pos).raises.bind fun (_, pos) =>
  ((raises_decodeSlices cfg b pos tbl).mono (by decide)).bind fun (_, pos) =>
  ((raises_verify cfg b pos).mono (by decide)).bind fun _ => raises_ok _

theorem raises_decodeBuffer (cfg : Config) (b : Bytes) : Raises decoderErrors (decodeBuffer cfg b) := by
  rw [decodeBuffer_eq]
  split
  · exact raises_frameDecode cfg b
  · exact raises_error (ofDecoderError_mem _)

theorem raises_needObject (b : Bytes) : Raises [.malformedPayload] (needObject b) := by
  rw [needObject]
  split
  · exact raises_ok _
  · exact raises_error (by decide)

/-- The errors of DISPATCH (R246). -/
def dispatchErrors : List Error := [.decodeIncomplete, .malformedPayload, .unsupportedDtype]

theorem raises_dispatchNamed (name : MsgName) (f : Frame) : Raises dispatchErrors (dispatchNamed name f) := by
  have incomplete : Raises dispatchErrors (.error .decodeIncomplete : Except Error SemanticMessage) :=
    raises_error (by decide)
  have object (b : Bytes) (g : JsonObject → SemanticMessage) : Raises dispatchErrors ((needObject b).map g) :=
    ((raises_needObject b).mono (by decide)).map g
  cases name with
  | sync =>
    by_cases h : f.slices.length = 1
    · obtain ⟨d, hd⟩ := List.length_eq_one_iff.mp h
      exact dispatchNamed_sync hd ▸ object _ _
    · exact dispatchNamed_sync_incomplete h ▸ incomplete
  | think =>
    by_cases h : f.slices = []
    · exact dispatchNamed_think_incomplete h ▸ incomplete
    · exact dispatchNamed_think h ▸ raises_ok _
  | critique =>
    match h : f.slices with
    | [] => exact dispatchNamed_critique_incomplete (f := f) (h ▸ Nat.zero_lt_two) ▸ incomplete
    | [_] => exact dispatchNamed_critique_incomplete (f := f) (h ▸ Nat.one_lt_two) ▸ incomplete
    | _ :: _ :: _ => exact dispatchNamed_critique h ▸ object _ _
  | cache | ask | unnamed => exact raises_ok _

theorem raises_dispatchFrame (cfg : Config) (f : Frame) : Raises dispatchErrors (dispatchFrame cfg f) := by
  rw [dispatchFrame]
  split
  · exact raises_ok _
  · split
    · exact raises_dispatchNamed _ f
    · exact raises_error (by decide)

/-! ### FRAME_DEC is total -/

/-- Settles O27: FRAME_DEC always answers, and its errors are those of its stages or that of an overlong buffer. -/
theorem frameDecIsTotal : Obligations.FrameDecIsTotal := by
  unfold Obligations.FrameDecIsTotal
  refine ⟨fun s b => ⟨_, exec_frameDec b s, ?_⟩,
    fun s b m hm hlt => ⟨overlongError s.cfg b, ?_, ofDecoderError_code _⟩⟩
  · cases h : decodeBuffer s.cfg b with
    | ok r => exact .inl ⟨r.1, r.2, rfl⟩
    | error e => exact .inr ⟨e, rfl, code_of_mem_decoderErrors (raises_decodeBuffer s.cfg b e h)⟩
  · rw [exec_frameDec, decodeBuffer, acceptBuffer_of_overlong (bufferAccepted_of_overlong hm hlt), error_bind]
    rfl

/-! ### An instruction raises only the errors of its row -/

section Outcomes
variable {es : List Error} {s : State} {r r' : Result}

theorem finish_raises (hr : Raises es r') (h : finish r' s = .next (s.deliver r)) : Raises es r :=
  deliver_inj.mp (finish_next h) ▸ hr

theorem atCursor_raises {b : Bytes} {pos : Nat} (hr : Raises es r')
    (h : atCursor b pos r' s = .next (s.deliver r)) : Raises es r :=
  deliver_inj.mp (atCursor_next h).2 ▸ hr

/-- A stage that ends the operation hands back an error it raised. -/
theorem goOn_raises {x : Except Error Job} (hx : Raises es x) (h : goOn x s = .next (s.endJob.deliver r)) :
    Raises es r := by
  obtain ⟨e, he, rfl⟩ := goOn_endJob h
  exact raises_error (hx e he)

end Outcomes

/-- R80, R270 of the atomic instructions: each hands back what its operation gives. -/
theorem exec_atomic_raises {i : Instr} {s : State} {r : Result} (hi : atomic i = true)
    (h : exec i s = .next (s.deliver r)) : Raises (mayRaise i) r := by
  cases i with
  | leGet1 b pos => exact atCursor_raises ((onlyTruncates_fieldGet 1 b pos).raises.map _) h
  | leGet2 b pos => exact atCursor_raises ((onlyTruncates_fieldGet 2 b pos).raises.map _) h
  | leGet4 b pos => exact atCursor_raises ((onlyTruncates_fieldGet 4 b pos).raises.map _) h
  | leGet8 b pos => exact atCursor_raises ((onlyTruncates_fieldGet 8 b pos).raises.map _) h
  | hdrDec b pos => exact atCursor_raises ((onlyTruncates_hdrDecode b pos).raises.map _) h
  | tagDec b pos => exact atCursor_raises ((onlyTruncates_tagDecode b pos).raises.map _) h
  | tblDec b pos n => exact atCursor_raises ((onlyTruncates_tblDecode b pos n).raises.map _) h
  | sliceDec b pos entry => exact atCursor_raises ((raises_sliceDecode s.cfg b pos entry).map _) h
  | verify b p => exact atCursor_raises ((raises_verify s.cfg b p).map _) h
  | elemSize d => exact finish_raises (raises_dtypeResult s.cfg d) h
  | dtypeQ4 => exact finish_raises (raises_dtypeResult s.cfg 0x03#8) h
  | dtypeSparseCoo => exact finish_raises (raises_dtypeResult s.cfg 0x10#8) h
  | dtypeUnrecognised d => exact finish_raises (raises_dtypeResult s.cfg d) h
  | plen d shape => exact deliver_inj.mp (onShape_next h).2 ▸ (raises_payloadLength s.cfg d shape).map _
  | sliceEnc d => exact deliver_inj.mp (execSliceEnc_next h).2 ▸ raises_ok _
  | frameEnc f => exact deliver_inj.mp (execFrameEnc_next h).2 ▸ raises_ok _
  | frameDec b => exact finish_raises ((raises_decodeBuffer s.cfg b).map _) h
  | dispatch f => exact finish_raises ((raises_dispatchFrame s.cfg f).map _) h
  | fmtHeader | fmtTable | fmtTag | fmtSlice | fmtTrailer => cases hi
  | _ =>
    dsimp only [exec] at h
    exact finish_raises (raises_ok _) h

/-- R80, R270 of the parts of a frame: a part of a decoding that ends it raises what its stage calls, and an encoding
ends without an error. -/
theorem exec_part_raises {i : Instr} {s : State} {r : Result} (hi : atomic i = false)
    (h : exec i s = .next (s.endJob.deliver r)) : Raises (mayRaise i) r := by
  have goesOn {j : Job} (ht : s.endJob.deliver r = s.withJob j) : Raises (mayRaise i) r :=
    absurd ht.symm (withJob_ne_endJob s j r)
  cases i with
  | fmtHeader job =>
    obtain ⟨-, ⟨b, -, hg⟩ | ⟨f, -, -, ht⟩⟩ := execFmtHeader_next h
    · exact goOn_raises (fun e he => raises_decodeBuffer s.cfg b e (decodeHeader_error he)) hg
    · exact goesOn ht
  | fmtTable =>
    obtain ⟨j, -, -, hg⟩ | ⟨j, -, -, ht⟩ := execFmtTable_next h
    · exact goOn_raises ((onlyTruncates_tblDecode j.b j.pos _).raises.bind fun _ => raises_ok _) hg
    · exact goesOn ht
  | fmtTag =>
    obtain ⟨j, -, -, hg⟩ | ⟨j, -, -, ht⟩ := execFmtTag_next h
    · exact goOn_raises ((onlyTruncates_tagDecode j.b j.pos).raises.bind fun _ => raises_ok _) hg
    · exact goesOn ht
  | fmtSlice =>
    obtain ⟨j, entry, -, -, -, hg⟩ | ⟨j, d, rest, -, -, -, ht⟩ := execFmtSlice_next h
    · exact goOn_raises ((raises_sliceDecode s.cfg j.b j.pos entry).bind fun _ => raises_ok _) hg
    · exact goesOn ht
  | fmtTrailer =>
    obtain ⟨j, -, -, ht⟩ | ⟨j, -, -, ht⟩ := execFmtTrailer_next h
    · exact deliver_inj.mp ht ▸ (raises_checkTrailer s.cfg j.b j.pos _).bind fun _ => raises_ok _
    · exact deliver_inj.mp ht ▸ raises_ok _
  | _ => cases hi

/-- Settles O50: the new result is the one an atomic instruction delivers, or the one with which a part ends. -/
theorem errorsAreThoseOfTheRow : Obligations.ErrorsAreThoseOfTheRow := by
  unfold Obligations.ErrorsAreThoseOfTheRow
  intro i s t e h hr
  cases hi : atomic i with
  | true =>
    obtain ⟨r, rfl⟩ := exec_atomic_next hi h
    exact exec_atomic_raises hi h e (by simpa using hr)
  | false =>
    obtain ⟨j, rfl⟩ | ⟨r, rfl⟩ := exec_part_next hi h
    · simp at hr
    · exact exec_part_raises hi h e (by simpa using hr)

/-! ### Reset -/

/-- Settles O55: with nothing in flight the invariant asks nothing, and the rest is read off `State.reset`. -/
theorem resetMeetsTheInvariant : Obligations.ResetMeetsTheInvariant := by
  unfold Obligations.ResetMeetsTheInvariant
  exact ⟨inv_of_job_none rfl, rfl, rfl, rfl, rfl, rfl, rfl, rfl⟩

end Sys2Proof.Machine
end
